-- ==== Sys2Proof/Word.lean ====
section
/-! DEFINITION. The machine's word types: the fixed-point formats of 00_scope.md R9, each stored as the bits of its
stated width, and the widths of the ports of 10_state.md R31. Only names: every operation on them stands in Machine/. -/

namespace Sys2Proof

/-- A 32-bit command word or register (R90, R46); also a phase, an increment and a bend (R35). -/
abbrev Word := BitVec 32

/-- A routing address. `ADDR_W` is 1..16 (R5); the model stores every address in the widest legal width and keeps it
below `2 ^ ADDR_W` (assumption 11). -/
abbrev Addr := BitVec 16

/-- A Q1.15 sample: signed 16 bits, read with `BitVec.toInt` (R9). -/
abbrev Q15 := BitVec 16

/-- A U4.4 velocity or scale: unsigned 8 bits (R9). -/
abbrev U44 := BitVec 8

/-- A U8.8 gain: unsigned 16 bits (R9). -/
abbrev U88 := BitVec 16

/-- A Q0.15 coefficient or amplitude: unsigned 15 bits (R9). -/
abbrev Q015 := BitVec 15

/-- A decay interval or a decay counter: unsigned 16 bits (R35, R36, R41, R42). -/
abbrev U16 := BitVec 16

/-- An index of the register port: `REG_INDEX_W` = 12 bits (R5, R46). -/
abbrev RegIndex := BitVec 12

end Sys2Proof
end

