-- ==== Sys2Proof/Syntax.lean ====
section
/-! DEFINITION. The commands of the block: one constructor per row of spec/opcode_table.json. The routing address is
no operand: it travels beside the word (30_encoding.md R100). -/

namespace Sys2Proof

/-- The seven pitch letters, in the order of their ids 0..6 (R94). -/
inductive Letter where
  | a | b | c | d | e | f | g
  deriving DecidableEq, Repr

/-- The five accidentals, in the order of their ids 0..4 (R93). -/
inductive Accidental where
  | doubleFlat | flat | natural | sharp | doubleSharp
  deriving DecidableEq, Repr

/-- A pitch: letter, accidental and an integer octave, legal in −8..7 (R110). Equality is equality of the three
fields (R112). -/
structure Pitch where
  letter     : Letter
  accidental : Accidental
  octave     : Int
  deriving DecidableEq, Repr

/-- A command: the two rows of the opcode table (R91, R96, R97). -/
inductive Instr where
  /-- PLAY, cid 0: velocity 0 is a note-off (R95, R96). -/
  | play (pitch : Pitch) (vel scale : U44)
  /-- SETATTACK, cid 1 (R97). -/
  | setAttack (vel scale : U44)
  deriving DecidableEq, Repr

/-- `NOTEOFF @a, p` expands to `PLAY @a, p, vel=0, scale=0` (R102). -/
def Instr.noteOff (p : Pitch) : Instr := .play p 0 0

/-- `NOTEON @a, p` expands to `PLAY @a, p, vel=0x10, scale=0x10` (R102). -/
def Instr.noteOn (p : Pitch) : Instr := .play p 0x10 0x10

/-- `ATTACK1 @a` expands to `SETATTACK @a, vel=0x10, scale=0x10` (R102). -/
def Instr.attack1 : Instr := .setAttack 0x10 0x10

end Sys2Proof
end

