-- ==== Sys2Proof/Config.lean ====
section
/-! DEFINITION. What an implementation of the block fixes: the parameters of 00_scope.md R5, the grammar of `TOPOLOGY`
(10_state.md R32), and the reference instance `REF` with the default values (R5, R33). The spec says that the model
takes the parameters as arguments: a value of `Params` stands in State as a constant that no event writes
(assumption 1), so a statement over every state is one over every instance. The spec leaves no VALUE undefined, so
there is no free value here. -/

namespace Sys2Proof

/-- A Sample unit of the topology: its address and its read-only buffer, whose length is `LEN` (R32, R37, R73). -/
structure SampleTopo where
  addr : Addr
  rom  : List Q15
  deriving DecidableEq, Repr

/-- `Effect` of the grammar of R32. -/
inductive EffectTopo where
  | linDecay (addr : Addr)
  | expDecay (addr : Addr)
  | lpf (addr : Addr)
  deriving DecidableEq, Repr

/-- `Synth` of the grammar of R32; `poly addr p voice` stands for `p` copies of the voice template. -/
inductive SynthTopo where
  | sine (addr : Addr)
  | saw (addr : Addr)
  | sample (t : SampleTopo)
  | drum (addr : Addr) (kick snare hat : SampleTopo)
  | poly (addr : Addr) (p : Nat) (voice : SynthTopo)
  | withEffect (synth : SynthTopo) (effect : EffectTopo)
  deriving DecidableEq, Repr

/-- The number of units of a node and everything below it (R32). -/
def SynthTopo.size : SynthTopo → Nat
  | .sine _ | .saw _ | .sample _ => 1
  | .drum .. => 4
  | .poly _ p voice => 1 + p * voice.size
  | .withEffect synth _ => 2 + synth.size

/-- The implementation parameters of R5, and `STEP_CYCLES` of R247. -/
structure Params where
  sampleRateHz   : Nat
  addrW          : Nat
  fifoDepth      : Nat
  topology       : List SynthTopo
  drumKickCode   : Int
  drumSnareCode  : Int
  drumHatCode    : Int
  seqAddr        : Addr
  seqHatPitch    : Pitch
  seqSnarePitch  : Pitch
  seqKickPitch   : Pitch
  seqAccentPitch : Pitch
  seqAccentVel   : U44
  seqCymbalPitch : Pitch
  seqCymbalVel   : U44
  seqScale       : U44
  stepCycles     : Nat
  deriving DecidableEq, Repr

/-- The REF sample buffers (R33). -/
def romKick : List Q15 :=
  [BitVec.ofInt 16 20000, BitVec.ofInt 16 10000, BitVec.ofInt 16 (-10000), BitVec.ofInt 16 (-20000)]

@[inherit_doc romKick]
def romSnare : List Q15 := [BitVec.ofInt 16 8000, BitVec.ofInt 16 (-8000)]

@[inherit_doc romKick]
def romHat : List Q15 := [BitVec.ofInt 16 4000]

/-- The reference topology `REF` (R33): unit ids 0 WithEffect, 1 Poly, 2..5 Sine voices, 6 LPF, 7 Drum, 8 kick,
9 snare, 10 hat. -/
def refTopology : List SynthTopo :=
  [ .withEffect (.poly 0x01 4 (.sine 0x01)) (.lpf 0x01),
    .drum 0x02 ⟨0x02, romKick⟩ ⟨0x02, romSnare⟩ ⟨0x02, romHat⟩ ]

/-- The default column of R5. `stepCycles` has no default in the spec: 1 is a DESIGN CHOICE (assumption 8). -/
def Params.ref : Params where
  sampleRateHz   := 48000
  addrW          := 8
  fifoDepth      := 8
  topology       := refTopology
  drumKickCode   := 36
  drumSnareCode  := 38
  drumHatCode    := 42
  seqAddr        := 0x02
  seqHatPitch    := ⟨.f, .sharp, 2⟩
  seqSnarePitch  := ⟨.d, .natural, 2⟩
  seqKickPitch   := ⟨.c, .natural, 2⟩
  seqAccentPitch := ⟨.f, .sharp, 2⟩
  seqAccentVel   := 0x08
  seqCymbalPitch := ⟨.f, .sharp, 2⟩
  seqCymbalVel   := 0x10
  seqScale       := 0x10
  stepCycles     := 1

end Sys2Proof
end

