-- ==== Sys2Proof/WellFormed.lean ====
section
/-! DEFINITION. Well-formed commands (the operand ranges of 41_command.md R121) and legal parameters (the "legal
values" column of 00_scope.md R5 and the limits of the topology grammar, 10_state.md R32). -/

namespace Sys2Proof

/-- A valid pitch: the octave is one of −8..7 (R110); letter and accidental are in range by their types. -/
def Pitch.wf (p : Pitch) : Bool := decide (-8 ≤ p.octave) && decide (p.octave ≤ 7)

/-- A command whose fields are in range (R121). -/
def Instr.wf : Instr → Bool
  | .play p _ _ => p.wf
  | .setAttack _ _ => true

/-- An address of `w` bits (R5). -/
def Addr.fits (w : Nat) (a : Addr) : Bool := decide (a.toNat < 2 ^ w)

/-- A Sample unit's constants: an `ADDR_W`-bit address and `LEN ≤ 2 ^ 20` (R5, R37). -/
def SampleTopo.wf (w : Nat) (t : SampleTopo) : Bool := t.addr.fits w && decide (t.rom.length ≤ 2 ^ 20)

@[inherit_doc SampleTopo.wf]
def EffectTopo.wf (w : Nat) : EffectTopo → Bool
  | .linDecay a | .expDecay a | .lpf a => a.fits w

/-- Every node has an `ADDR_W`-bit address and every allocator 1..16 voices (R32). -/
def SynthTopo.wf (w : Nat) : SynthTopo → Bool
  | .sine a | .saw a => a.fits w
  | .sample t => t.wf w
  | .drum a kick snare hat => a.fits w && kick.wf w && snare.wf w && hat.wf w
  | .poly a p voice => a.fits w && decide (1 ≤ p) && decide (p ≤ 16) && voice.wf w
  | .withEffect synth effect => synth.wf w && effect.wf w

/-- The legal values of R5: sample rate, widths, channel depth, 1..8 roots, at most 256 units, distinct drum codes,
valid sequencer pitches and address, and at least one cycle per sample step (R247). -/
def Params.wf (p : Params) : Bool :=
  decide (25088 ≤ p.sampleRateHz)
    && decide (1 ≤ p.addrW) && decide (p.addrW ≤ 16)
    && decide (4 ≤ p.fifoDepth) && decide (p.fifoDepth ≤ 255)
    && decide (1 ≤ p.topology.length) && decide (p.topology.length ≤ 8)
    && decide ((p.topology.map SynthTopo.size).sum ≤ 256)
    && p.topology.all (SynthTopo.wf p.addrW)
    && decide (p.drumKickCode ≠ p.drumSnareCode) && decide (p.drumKickCode ≠ p.drumHatCode)
    && decide (p.drumSnareCode ≠ p.drumHatCode)
    && p.seqAddr.fits p.addrW
    && p.seqHatPitch.wf && p.seqSnarePitch.wf && p.seqKickPitch.wf
    && p.seqAccentPitch.wf && p.seqCymbalPitch.wf
    && decide (1 ≤ p.stepCycles)

end Sys2Proof
end

