-- ==== Sys2Proof/Decode.lean ====
section
/-! DEFINITION. The decoder of a command word (`deserialize`, 41_command.md R120), total on every word and rejecting by
name, and after it the encoder (`serialize`, R121), both from the layout of 30_encoding.md R90. -/

namespace Sys2Proof

/-- Why a word decodes to no command (R98, R99). -/
inductive DecodeReject where
  /-- `cid` is 2..63 (R98). -/
  | reservedCommandId
  /-- A Play word with `let = 7` (R99). -/
  | letterOutOfRange
  /-- A Play word with `acc` 5..7 (R99). -/
  | accidentalOutOfRange
  /-- Fewer than four bytes from a byte-serial transport (the transport is outside the block, R74). -/
  | truncated
  deriving DecidableEq, Repr

/-- The letter of an id (R94). -/
def Letter.ofId (i : BitVec 3) : Option Letter :=
  match i.toNat with
  | 0 => some .a
  | 1 => some .b
  | 2 => some .c
  | 3 => some .d
  | 4 => some .e
  | 5 => some .f
  | 6 => some .g
  | _ => none

/-- The accidental of an id (R93). -/
def Accidental.ofId (i : BitVec 3) : Option Accidental :=
  match i.toNat with
  | 0 => some .doubleFlat
  | 1 => some .flat
  | 2 => some .natural
  | 3 => some .sharp
  | 4 => some .doubleSharp
  | _ => none

/-- The fields of a command word, by the bit positions of R90. -/
def cidOf (w : Word) : BitVec 6 := w.extractLsb' 26 6
@[inherit_doc cidOf] def octOf (w : Word) : BitVec 4 := w.extractLsb' 22 4
@[inherit_doc cidOf] def accOf (w : Word) : BitVec 3 := w.extractLsb' 19 3
@[inherit_doc cidOf] def letOf (w : Word) : BitVec 3 := w.extractLsb' 16 3
@[inherit_doc cidOf] def scaleOf (w : Word) : U44 := w.extractLsb' 8 8
@[inherit_doc cidOf] def velOf (w : Word) : U44 := w.extractLsb' 0 8

/-- Decode a word, by the priority of R103: `cid`, then the ranges of a Play word's letter and accidental. The octave
is `sext_4(oct)` (R92); SetAttack ignores bits 25:16 (R97). -/
def decode (w : Word) : Except DecodeReject Instr :=
  match (cidOf w).toNat with
  | 0 =>
    match Letter.ofId (letOf w), Accidental.ofId (accOf w) with
    | some l, some a => .ok (.play ⟨l, a, (octOf w).toInt⟩ (velOf w) (scaleOf w))
    | none, _ => .error .letterOutOfRange
    | some _, none => .error .accidentalOutOfRange
  | 1 => .ok (.setAttack (velOf w) (scaleOf w))
  | _ => .error .reservedCommandId

/-- `deserialize` of R120: a command or nothing. -/
def deserialize (w : Word) : Option Instr := (decode w).toOption

/-- The id of a letter (R94). -/
def Letter.id : Letter → BitVec 3
  | .a => 0 | .b => 1 | .c => 2 | .d => 3 | .e => 4 | .f => 5 | .g => 6

/-- The id of an accidental (R93). -/
def Accidental.id : Accidental → BitVec 3
  | .doubleFlat => 0 | .flat => 1 | .natural => 2 | .sharp => 3 | .doubleSharp => 4

/-- `serialize` of R121: the word of a command, `cid` first. A Play's octave field is the low 4 bits of the integer
octave (R92); a SetAttack writes 0 to bits 25:16 (R97). -/
def encode : Instr → Word
  | .play p vel scale =>
    (0 : BitVec 6) ++ BitVec.ofInt 4 p.octave ++ p.accidental.id ++ p.letter.id ++ scale ++ vel
  | .setAttack vel scale => (1 : BitVec 6) ++ (0 : BitVec 10) ++ scale ++ vel

/-- The word that a byte-serial transport outside the block delivers: the least significant byte first (R74). -/
def wordOfBytes (b0 b1 b2 b3 : BitVec 8) : Word := b3 ++ b2 ++ b1 ++ b0

/-- Decode the first command of a byte stream in the transport order of R74, and answer the bytes after it. -/
def decodeBytes : List (BitVec 8) → Except DecodeReject (Instr × List (BitVec 8))
  | b0 :: b1 :: b2 :: b3 :: rest =>
    match decode (wordOfBytes b0 b1 b2 b3) with
    | .ok i => .ok (i, rest)
    | .error r => .error r
  | _ => .error .truncated

/-- What the decoder reads from a word whose bits are numbered as spec/opcode_table.json numbers them: every command
is one 32-bit word (R90), and the bits above `nbits` are 0. -/
def decodeTableWord (nbits w : Nat) : Option Instr := deserialize (BitVec.ofNat 32 (w % 2 ^ nbits))

end Sys2Proof
end

