-- ==== Sys2Proof/Machine/Units.lean ====
section
/-! DEFINITION. The state of each unit kind (10_state.md R35 to R43), the synth tree (R32) and the sequencer (R44), the
state each has after reset, and the tree that a topology builds. -/

namespace Sys2Proof.Machine

/-- Sine unit state (R35). -/
structure SineUnit where
  addr   : Addr
  ratio  : Q015
  every  : U16
  phase  : Word
  inc    : Word
  bend   : Word
  gain   : U88
  attack : U88
  amp    : Q015
  cnt    : U16
  deriving DecidableEq, Repr

/-- Saw unit state (R36). -/
structure SawUnit where
  addr  : Addr
  ratio : Q015
  every : U16
  phase : Word
  inc   : Word
  gain  : U88
  cnt   : U16
  deriving DecidableEq, Repr

/-- Sample unit state (R37); `LEN` is the length of `rom`. -/
structure SampleUnit where
  addr   : Addr
  rom    : List Q15
  cursor : BitVec 21
  active : Bool
  gain   : U88
  deriving DecidableEq, Repr

/-- LinDecay unit state (R41). -/
structure LinDecayUnit where
  addr  : Addr
  step  : Q015
  every : U16
  amp   : Q015
  cnt   : U16
  deriving DecidableEq, Repr

/-- ExpDecay unit state (R42). -/
structure ExpDecayUnit where
  addr  : Addr
  ratio : Q015
  every : U16
  amp   : Q015
  cnt   : U16
  deriving DecidableEq, Repr

/-- LPF unit state (R43). -/
structure LpfUnit where
  addr  : Addr
  alpha : Q015
  y     : Q15
  deriving DecidableEq, Repr

/-- An effect unit (R32). -/
inductive Effect where
  | linDecay (u : LinDecayUnit)
  | expDecay (u : ExpDecayUnit)
  | lpf (u : LpfUnit)
  deriving DecidableEq, Repr

mutual
/-- A synth unit with everything below it (R32): the Drum has three Sample children (R38), the Poly its slots and
voices (R39), the WithEffect its two children and no state of its own (R40). -/
inductive Synth where
  | sine (u : SineUnit)
  | saw (u : SawUnit)
  | sample (u : SampleUnit)
  | drum (addr : Addr) (kick snare hat : SampleUnit)
  | poly (addr : Addr) (voices : Voices)
  | withEffect (synth : Synth) (effect : Effect)
  deriving DecidableEq, Repr
/-- The voices of a Poly in index order, each with its `slot` (R39). -/
inductive Voices where
  | nil
  | cons (slot : Option Pitch) (voice : Synth) (rest : Voices)
  deriving DecidableEq, Repr
end

/-- Reset values of a Sine unit (R35, R281). -/
def SineUnit.init (a : Addr) : SineUnit :=
  { addr := a, ratio := 0x7FFF, every := 0, phase := 0, inc := 0, bend := 0, gain := 0, attack := 0x0100, amp := 0,
    cnt := 0 }

/-- Reset values of a Saw unit (R36, R281). -/
def SawUnit.init (a : Addr) : SawUnit :=
  { addr := a, ratio := 0x7FFF, every := 0, phase := 0, inc := 0, gain := 0, cnt := 0 }

/-- Reset values of a Sample unit (R37, R281). -/
def SampleUnit.init (t : SampleTopo) : SampleUnit :=
  { addr := t.addr, rom := t.rom, cursor := 0, active := false, gain := 0 }

/-- Reset values of a LinDecay unit (R41, R281). -/
def LinDecayUnit.init (a : Addr) : LinDecayUnit := { addr := a, step := 0, every := 0, amp := 0, cnt := 0 }

/-- Reset values of an ExpDecay unit (R42, R281). -/
def ExpDecayUnit.init (a : Addr) : ExpDecayUnit := { addr := a, ratio := 0x7FFF, every := 0, amp := 0, cnt := 0 }

/-- Reset values of an LPF unit (R43, R281). -/
def LpfUnit.init (a : Addr) : LpfUnit := { addr := a, alpha := 0x7FFF, y := 0 }

/-- The effect unit that a topology node builds, at its reset values. -/
def Effect.build : EffectTopo → Effect
  | .linDecay a => .linDecay (LinDecayUnit.init a)
  | .expDecay a => .expDecay (ExpDecayUnit.init a)
  | .lpf a => .lpf (LpfUnit.init a)

/-- `n` copies of a voice, every slot empty (R32, R39). -/
def Voices.replicate (n : Nat) (voice : Synth) : Voices :=
  match n with
  | 0 => .nil
  | k + 1 => .cons none voice (Voices.replicate k voice)

/-- The synth unit that a topology node builds, at its reset values (R32, R281). -/
def Synth.build : SynthTopo → Synth
  | .sine a => .sine (SineUnit.init a)
  | .saw a => .saw (SawUnit.init a)
  | .sample t => .sample (SampleUnit.init t)
  | .drum a kick snare hat => .drum a (SampleUnit.init kick) (SampleUnit.init snare) (SampleUnit.init hat)
  | .poly a p voice => .poly a (Voices.replicate p (Synth.build voice))
  | .withEffect synth effect => .withEffect (Synth.build synth) (Effect.build effect)

/-- The structural part of a Sample unit (R37). -/
def SampleUnit.topo (u : SampleUnit) : SampleTopo := ⟨u.addr, u.rom⟩

/-- An effect with every field but its structural constants at the reset value. -/
def Effect.skeleton : Effect → Effect
  | .linDecay u => .linDecay (LinDecayUnit.init u.addr)
  | .expDecay u => .expDecay (ExpDecayUnit.init u.addr)
  | .lpf u => .lpf (LpfUnit.init u.addr)

mutual
/-- A tree with every field but its structural constants (shape, addresses, sample buffers) at the reset value: what
no event may change (R32, R54, R282). -/
def Synth.skeleton : Synth → Synth
  | .sine u => .sine (SineUnit.init u.addr)
  | .saw u => .saw (SawUnit.init u.addr)
  | .sample u => .sample (SampleUnit.init u.topo)
  | .drum a kick snare hat =>
    .drum a (SampleUnit.init kick.topo) (SampleUnit.init snare.topo) (SampleUnit.init hat.topo)
  | .poly a voices => .poly a voices.skeleton
  | .withEffect synth effect => .withEffect synth.skeleton effect.skeleton
@[inherit_doc Synth.skeleton]
def Voices.skeleton : Voices → Voices
  | .nil => .nil
  | .cons _ voice rest => .cons none voice.skeleton rest.skeleton
end

/-- The address of an effect unit (R54). -/
def Effect.addr : Effect → Addr
  | .linDecay u => u.addr
  | .expDecay u => u.addr
  | .lpf u => u.addr

/-- The address of a synth unit: its constant (R54), or for a WithEffect the union of its children's addresses
(44_poly_and_mix.md R195). -/
def Synth.addr : Synth → Addr
  | .sine u => u.addr
  | .saw u => u.addr
  | .sample u => u.addr
  | .drum a _ _ _ => a
  | .poly a _ => a
  | .withEffect synth effect => synth.addr ||| effect.addr

/-- The number of voices, `P` (R39). -/
def Voices.count : Voices → Nat
  | .nil => 0
  | .cons _ _ rest => rest.count + 1

/-- The slots in index order (R39). -/
def Voices.slots : Voices → List (Option Pitch)
  | .nil => []
  | .cons slot _ rest => slot :: rest.slots

/-- The slots and voices in index order (R39). -/
def Voices.toList : Voices → List (Option Pitch × Synth)
  | .nil => []
  | .cons slot voice rest => (slot, voice) :: rest.toList

mutual
/-- The number of units of a tree: the length of the pre-order walk of R32. -/
def Synth.size : Synth → Nat
  | .sine _ | .saw _ | .sample _ => 1
  | .drum .. => 4
  | .poly _ voices => 1 + voices.size
  | .withEffect synth _ => 2 + synth.size
@[inherit_doc Synth.size]
def Voices.size : Voices → Nat
  | .nil => 0
  | .cons _ voice rest => voice.size + rest.size
end

/-- One unit of the pre-order walk with its own state, as the register port sees it (R32, R50). -/
inductive UnitView where
  | sine (u : SineUnit)
  | saw (u : SawUnit)
  | sample (u : SampleUnit)
  | drum (addr : Addr)
  | poly (addr : Addr) (slots : List (Option Pitch))
  | withEffect
  | linDecay (u : LinDecayUnit)
  | expDecay (u : ExpDecayUnit)
  | lpf (u : LpfUnit)
  deriving DecidableEq, Repr

/-- The unit of an effect. -/
def Effect.view : Effect → UnitView
  | .linDecay u => .linDecay u
  | .expDecay u => .expDecay u
  | .lpf u => .lpf u

mutual
/-- The units of a tree in the pre-order of R32: a node, then kick, snare, hat (Drum), the voices in index order
(Poly), the synth and then the effect (WithEffect). -/
def Synth.units : Synth → List UnitView
  | .sine u => [.sine u]
  | .saw u => [.saw u]
  | .sample u => [.sample u]
  | .drum a kick snare hat => [.drum a, .sample kick, .sample snare, .sample hat]
  | .poly a voices => .poly a voices.slots :: voices.units
  | .withEffect synth effect => .withEffect :: (synth.units ++ [effect.view])
@[inherit_doc Synth.units]
def Voices.units : Voices → List UnitView
  | .nil => []
  | .cons _ voice rest => voice.units ++ rest.units
end

/-- One beat of the command channel: the routing address beside the command word (R45, 30_encoding.md R100). -/
structure Beat where
  addr : Addr
  word : Word
  deriving DecidableEq, Repr

/-- The sequencer's modes (45_sequencer.md R210), in the order of their encoding 0..3. -/
inductive SeqMode where
  | stopped | countoffSlow | countoffFast | playing
  deriving DecidableEq, Repr

/-- The meter (45_sequencer.md R211): 0 is 4/4, 1 is 12/8. -/
inductive Meter where
  | fourFour | twelveEight
  deriving DecidableEq, Repr

/-- A three-lane pattern: a mask and a velocity a lane (R44). Bit `i` of a mask is subdivision `i`. -/
structure Pattern where
  hatMask   : BitVec 16
  snareMask : BitVec 16
  kickMask  : BitVec 16
  hatVel    : U44
  snareVel  : U44
  kickVel   : U44
  deriving DecidableEq, Repr

/-- Sequencer state (R44): `active` is `mask`, `vel`, and `shadow` is `sh_mask`, `sh_vel`. -/
structure Sequencer where
  mode    : SeqMode
  measure : BitVec 2
  idx     : BitVec 4
  meter   : Meter
  cymbal4 : Bool
  active  : Pattern
  shadow  : Pattern
  seqbuf  : List Beat
  deriving DecidableEq, Repr

/-- Reset values of a pattern (R44, R281). -/
def Pattern.init : Pattern :=
  { hatMask := 0, snareMask := 0, kickMask := 0, hatVel := 0x10, snareVel := 0x10, kickVel := 0x10 }

/-- Reset values of the sequencer (R44, R281). -/
def Sequencer.init : Sequencer :=
  { mode := .stopped, measure := 0, idx := 0, meter := .fourFour, cymbal4 := false, active := Pattern.init,
    shadow := Pattern.init, seqbuf := [] }

end Sys2Proof.Machine
end

