-- ==== Sys2Proof/Machine/State.lean ====
section
/-! DEFINITION. The state of the block as plain data (10_state.md sections 5 and 6), the events that drive it (R34), the
pins of one clock cycle (R31), the reasons a step can stop, and the state after reset. -/

namespace Sys2Proof.Machine

/-- The diagnostics (60_exceptions.md R260), in the order of their codes 1..5. -/
inductive Diag where
  | malformed | voiceDrop | drumUnmapped | pitchRange | seqOverrun
  deriving DecidableEq, Repr

/-- The atomic events of R34. `presentDiag` is the model's own: the block presents the oldest waiting diagnostic on
`diag_valid` / `diag_code`, at a time the spec leaves open (60_exceptions.md R261, assumption 7). -/
inductive Event where
  | reset
  | sampleStep
  | hostPush (addr : Addr) (word : Word)
  | seqTick
  | seqPush
  | regWrite (index : RegIndex) (data : Word)
  | regRead (index : RegIndex)
  | presentDiag
  deriving DecidableEq, Repr

/-- The input pins of one clock cycle (R31). `diagSlot` is no pin: it says whether the block presents a diagnostic in
this cycle (assumption 7). -/
structure CycleIn where
  rst        : Bool
  sampleTick : Bool
  cmdValid   : Bool
  cmdAddr    : Addr
  cmdWord    : Word
  seqTick    : Bool
  regWe      : Bool
  regRe      : Bool
  regIndex   : RegIndex
  regWdata   : Word
  diagSlot   : Bool
  deriving DecidableEq, Repr

/-- One entry of the schedule: an atomic event (R34) or a whole clock cycle (46_engine_step.md R246). -/
inductive Input where
  | event (e : Event)
  | cycle (c : CycleIn)
  deriving DecidableEq, Repr

/-- The state of the block. `inputs`, `beatAddr` and `busy` are the model's own (assumptions 2, 4, 8). -/
structure State where
  /-- The structural parameters (00_scope.md R5): no event writes them (assumption 1). -/
  params      : Params
  /-- The roots of the synth tree (R32). -/
  roots       : List Synth
  /-- The sequencer (R44). -/
  seq         : Sequencer
  /-- The command channel, head first (R45). -/
  fifo        : List Beat
  /-- The sticky diagnostic bits (R47). -/
  status      : BitVec 5
  /-- The value driven on `sample_out` (R45). -/
  lastSample  : Q15
  /-- The diagnostics emitted and not yet presented, oldest first (60_exceptions.md R261). -/
  trace       : List Diag
  /-- `sample_valid` (R31). -/
  sampleValid : Bool
  /-- `reg_rvalid` and `reg_rdata` (R31): the data while the valid bit is high. -/
  regResp     : Option Word
  /-- `diag_valid` and `diag_code` (R31): the code while the valid bit is high. -/
  diagOut     : Option Diag
  /-- The address side-band of the beat being dispatched inside a sample step; 0 between steps. -/
  beatAddr    : Addr
  /-- Clock cycles left of the sample step in progress (46_engine_step.md R247). -/
  busy        : Nat
  /-- The environment's schedule: what happens next, first entry first. -/
  inputs      : List Input
  deriving DecidableEq, Repr

/-- Why a step can stop. -/
inductive Fault where
  /-- A `sample_tick` pulse in a clock cycle in which the previous sample step is still in progress: outside the spec
  (46_engine_step.md R247). Raised by a cycle of the schedule; safe: the model stops (assumption 8). -/
  | sampleTickDuringStep
  deriving DecidableEq, Repr

/-- Why a step can be refused. -/
inductive Refusal where
  /-- An instruction without a meaning. No arm of `exec` raises it: every instruction has its meaning. Safe. -/
  | notModelled (mnemonic : String)
  deriving DecidableEq, Repr

/-- The block with the given parameters right after `Reset` (70_reset_and_hazards.md R280, R281), nothing scheduled. -/
def State.ofParams (p : Params) : State :=
  { params := p, roots := p.topology.map Synth.build, seq := Sequencer.init, fifo := [], status := 0, lastSample := 0,
    trace := [], sampleValid := false, regResp := none, diagOut := none, beatAddr := 0, busy := 0, inputs := [] }

/-- The reference instance right after reset. -/
def State.reset : State := State.ofParams Params.ref

end Sys2Proof.Machine
end

