-- ==== Sys2Proof/Machine/Flags.lean ====
section
/-! DEFINITION. The block has no condition flags (10_state.md R30); its flags are the sticky diagnostic bits of STATUS
(R47). Their codes, the bits a list of diagnostics sets, and the write that clears them. -/

namespace Sys2Proof.Machine

/-- The code of a diagnostic, as `diag_code` shows it (60_exceptions.md R260). -/
def Diag.code : Diag → BitVec 3
  | .malformed => 1 | .voiceDrop => 2 | .drumUnmapped => 3 | .pitchRange => 4 | .seqOverrun => 5

/-- The STATUS bit of a diagnostic: bit `code − 1` (R47, R260). -/
def Diag.bit (k : Diag) : BitVec 5 := 1#5 <<< (k.code.toNat - 1)

/-- STATUS after a list of diagnostics: their bits are set, the others stay (R261). -/
def statusAfter (status : BitVec 5) (ks : List Diag) : BitVec 5 := ks.foldl (fun st k => st ||| k.bit) status

/-- STATUS after a write of `d`: write 1 to clear (R47). -/
def statusCleared (status : BitVec 5) (d : Word) : BitVec 5 := status &&& ~~~ (d.extractLsb' 0 5)

end Sys2Proof.Machine
end

