-- ==== Sys2Proof/Machine/Operands.lean ====
section
/-! DEFINITION. The operand forms and the arithmetic of the block: floor shift and saturation (00_scope.md R7, R8),
gains, the linear code of a pitch (40_pitch.md R113), the phase-increment ROM (R115), the quarter-sine ROM and its
lookup (43_oscillators.md R160), and the address test (41_command.md R124). -/

namespace Sys2Proof.Machine

/-- `a >> k`: floor division by `2 ^ k` (R7). -/
def asr (a : Int) (k : Nat) : Int := a / 2 ^ k

/-- Saturation to the Q1.15 range (R8). -/
def sat16 (v : Int) : Int := max (-32768) (min 32767 v)

/-- The Q1.15 pattern of an integer in range (R9). -/
def toQ15 (v : Int) : Q15 := BitVec.ofInt 16 v

/-- The U8.8 gain `velocity × scale` of a Play or SetAttack (R9, 92 D14): at most 65025, so it fits. -/
def gainOf (vel scale : U44) : U88 := BitVec.ofNat 16 (vel.toNat * scale.toNat)

/-- A Q0.15 product of an amplitude or gain of `n` bits by a ratio, floored: `(a * ratio) >> 15` (42_effects.md R144). -/
def scaleBy (n : Nat) (a : BitVec n) (ratio : Q015) : BitVec n := BitVec.ofNat n (a.toNat * ratio.toNat / 2 ^ 15)

/-- Semitones of a letter from A of the same octave number (40_pitch.md R111). -/
def letOff : Letter → Int
  | .a => 0 | .b => 2 | .c => -9 | .d => -7 | .e => -5 | .f => -4 | .g => -2

/-- Semitones of an accidental (R111). -/
def accOff : Accidental → Int
  | .doubleFlat => -2 | .flat => -1 | .natural => 0 | .sharp => 1 | .doubleSharp => 2

/-- Semitones of a pitch from A4 (R113). -/
def semis (p : Pitch) : Int := letOff p.letter + accOff p.accidental + 12 * (p.octave - 4)

/-- The linear code of a pitch (R113). -/
def code (p : Pitch) : Int := 69 + semis p

/-- The ROM index of a pitch whose code is in 0..127, and `none` for one out of the oscillators' range (R116). -/
def romIndex (p : Pitch) : Option Nat := if 0 ≤ code p ∧ code p ≤ 127 then some (code p).toNat else none

/-- Is `r ≤ 2 · 440 · 2 ^ ((c - 69) / 12) · 2 ^ 32 / fs`? Both sides are raised to the 12th power, so that the test is
exact on integers (assumption 12). -/
def pincBelow (fs c r : Nat) : Bool := (r * fs) ^ 12 * 2 ^ 69 ≤ (880 * 2 ^ 32) ^ 12 * 2 ^ c

/-- The greatest number that extends `r` by `k` low bits and passes `pincBelow`, bit by bit from the highest. -/
def pincSearch (fs c : Nat) : Nat → Nat → Nat
  | 0, r => r
  | k + 1, r => if pincBelow fs c (r + 2 ^ k) then pincSearch fs c k (r + 2 ^ k) else pincSearch fs c k r

/-- Entry `c` of the phase-increment ROM (R71, R115): twice the exact increment is rounded down to `r`, and
`(r + 1) / 2` is the increment rounded to nearest. -/
def pinc (fs c : Nat) : Word := BitVec.ofNat 32 ((pincSearch fs c 33 0 + 1) / 2)

/-- Entries 0 to 63 of `QTAB` (R160). -/
def qtab0 : List Nat :=
  [ 0, 201, 402, 603, 804, 1005, 1206, 1407, 1608, 1809, 2009, 2210, 2410, 2611, 2811, 3012,
    3212, 3412, 3612, 3811, 4011, 4210, 4410, 4609, 4808, 5007, 5205, 5404, 5602, 5800, 5998, 6195,
    6393, 6590, 6786, 6983, 7179, 7375, 7571, 7767, 7962, 8157, 8351, 8545, 8739, 8933, 9126, 9319,
    9512, 9704, 9896, 10087, 10278, 10469, 10659, 10849, 11039, 11228, 11417, 11605, 11793, 11980, 12167, 12353 ]

/-- Entries 64 to 127 of `QTAB` (R160). -/
def qtab1 : List Nat :=
  [ 12539, 12725, 12910, 13094, 13279, 13462, 13645, 13828, 14010, 14191, 14372, 14553, 14732, 14912, 15090, 15269,
    15446, 15623, 15800, 15976, 16151, 16325, 16499, 16673, 16846, 17018, 17189, 17360, 17530, 17700, 17869, 18037,
    18204, 18371, 18537, 18703, 18868, 19032, 19195, 19357, 19519, 19680, 19841, 20000, 20159, 20317, 20475, 20631,
    20787, 20942, 21096, 21250, 21403, 21554, 21705, 21856, 22005, 22154, 22301, 22448, 22594, 22739, 22884, 23027 ]

/-- Entries 128 to 191 of `QTAB` (R160). -/
def qtab2 : List Nat :=
  [ 23170, 23311, 23452, 23592, 23731, 23870, 24007, 24143, 24279, 24413, 24547, 24680, 24811, 24942, 25072, 25201,
    25329, 25456, 25582, 25708, 25832, 25955, 26077, 26198, 26319, 26438, 26556, 26674, 26790, 26905, 27019, 27133,
    27245, 27356, 27466, 27575, 27683, 27790, 27896, 28001, 28105, 28208, 28310, 28411, 28510, 28609, 28706, 28803,
    28898, 28992, 29085, 29177, 29268, 29358, 29447, 29534, 29621, 29706, 29791, 29874, 29956, 30037, 30117, 30195 ]

/-- Entries 192 to 255 of `QTAB` (R160). -/
def qtab3 : List Nat :=
  [ 30273, 30349, 30424, 30498, 30571, 30643, 30714, 30783, 30852, 30919, 30985, 31050, 31113, 31176, 31237, 31297,
    31356, 31414, 31470, 31526, 31580, 31633, 31685, 31736, 31785, 31833, 31880, 31926, 31971, 32014, 32057, 32098,
    32137, 32176, 32213, 32250, 32285, 32318, 32351, 32382, 32412, 32441, 32469, 32495, 32521, 32545, 32567, 32589,
    32609, 32628, 32646, 32663, 32678, 32692, 32705, 32717, 32728, 32737, 32745, 32752, 32757, 32761, 32765, 32766 ]

/-- The quarter-sine ROM (20_memory.md R72, 43_oscillators.md R160): 257 entries. -/
def qtab : List Nat := qtab0 ++ qtab1 ++ qtab2 ++ qtab3 ++ [32767]

/-- Entry `i` of `QTAB`; `i` is at most 256 wherever a rule reads it. -/
def qtabAt (i : Nat) : Int := qtab.getD i 0

/-- The position in the quadrant, mirrored in quadrants 1 and 3 (R160): 0..2 ^ 30. -/
def quadrantPos (phase : Word) : Nat :=
  let p := (phase.extractLsb' 0 30).toNat
  if phase.getLsbD 30 then 2 ^ 30 - p else p

/-- The quarter wave at a position of 0..2 ^ 30, linearly interpolated between entries (R160). -/
def quarterSine (p : Nat) : Int :=
  let i := p / 2 ^ 22
  let frac : Nat := p % 2 ^ 22
  if i = 256 then qtabAt 256 else qtabAt i + asr ((qtabAt (i + 1) - qtabAt i) * frac) 22

/-- `sine_lookup` (R160): the full cycle from the quarter wave, negated in quadrants 2 and 3. -/
def sineLookup (phase : Word) : Int :=
  let m := quarterSine (quadrantPos phase)
  if phase.getLsbD 31 then -m else m

/-- `match(a, u)` on the unit's address (R124): the two sets of routing bits meet. -/
def addrMatch (a unitAddr : Addr) : Bool := decide (a &&& unitAddr ≠ 0)

/-- The address bits that exist: the low `ADDR_W` of the port (R5, R31). -/
def addrMask (p : Params) (a : Addr) : Addr := a &&& BitVec.ofNat 16 (2 ^ p.addrW - 1)

end Sys2Proof.Machine
end

