-- ==== Sys2Proof/Machine/Ops.lean ====
section
/-! DEFINITION. The named operations over the state. The block has no addressable data memory and no trap
(20_memory.md R70, 60_exceptions.md R269): the channel takes the place of memory, and `emit`, the block's only "raise"
(00_scope.md R10), the place of taking an exception. It saves nothing and redirects nothing, so there is no return. -/

namespace Sys2Proof.Machine

/-- `emit Diag(k)` for each diagnostic of a list, in order (60_exceptions.md R261): the sticky bits are set and the
codes join the trace; nothing else happens. -/
def State.emit (s : State) (ks : List Diag) : State :=
  { s with status := statusAfter s.status ks, trace := s.trace ++ ks }

/-- Is there room in the channel (20_memory.md R83)? -/
def State.hasRoom (s : State) : Bool := decide (s.fifo.length < s.params.fifoDepth)

/-- `cmd_ready` on the state at the start of the cycle, `rst` low (46_engine_step.md R243). -/
def State.cmdReady (s : State) : Bool := s.hasRoom && s.seq.seqbuf.isEmpty

/-- Is `SeqPush` enabled (46_engine_step.md R240)? -/
def State.seqPushEnabled (s : State) : Bool := !s.seq.seqbuf.isEmpty && s.hasRoom

/-- `FifoPush(e)` on a channel with room: append at the tail (20_memory.md R83). -/
def State.fifoPush (s : State) (b : Beat) : State := { s with fifo := s.fifo ++ [b] }

/-- The units of the block in the order of their unit ids (10_state.md R32). -/
def State.units (s : State) : List UnitView := s.roots.flatMap Synth.units

/-- `NUM_UNITS` (10_state.md R32). -/
def State.numUnits (s : State) : Nat := (s.roots.map Synth.size).sum

/-- The output pulses of the previous event are over (10_state.md R31: `sample_valid`, `reg_rvalid` and `diag_valid` are
one-cycle pulses); everything else is held (60_exceptions.md R274). -/
def State.quiet (s : State) : State := { s with sampleValid := false, regResp := none, diagOut := none }

/-- `Reset` (70_reset_and_hazards.md R280 to R282): every state element at its reset value, the parameters kept. What
the environment has scheduled is not the block's and stays (assumption 2). -/
def State.resetBlock (s : State) : State := { State.ofParams s.params with inputs := s.inputs }

/-- The block presents the oldest waiting diagnostic, if there is one (60_exceptions.md R261). -/
def State.presentDiag (s : State) : State :=
  match s.trace with
  | [] => s
  | k :: rest => { s with trace := rest, diagOut := some k }

end Sys2Proof.Machine
end

