-- ==== Sys2Proof/Machine/Effects.lean ====
section
/-! DEFINITION. The decay-interval counter and the three effect kinds (42_effects.md). An effect's `next` answers its
output sample and its state after the call; the output is computed from the state before it. -/

namespace Sys2Proof.Machine

/-- `decay_due` (R147): is a decay due at the end of this call, and the counter after it. -/
def decayDue (every cnt : U16) : Bool × U16 :=
  if every = 0 then (false, cnt)
  else if every.toNat ≤ cnt.toNat + 1 then (true, 0)
  else (false, cnt + 1)

/-- The low 15 bits of a settings record: `ratio`, `step` or `alpha` (10_state.md R50). -/
def cfgCoeff (d : Word) : Q015 := d.extractLsb' 0 15

/-- The high 16 bits of a settings record: `every` (10_state.md R50). -/
def cfgEvery (d : Word) : U16 := d.extractLsb' 16 16

/-- `LinDecay.play` (R141): a note-on restarts the envelope, a note-off does nothing. -/
def LinDecayUnit.play (vel : U44) (u : LinDecayUnit) : LinDecayUnit :=
  if vel = 0 then u else { u with amp := 0x7FFF, cnt := 0 }

/-- `LinDecay.next` (R142). -/
def LinDecayUnit.next (x : Int) (u : LinDecayUnit) : Int × LinDecayUnit :=
  let due := decayDue u.every u.cnt
  (asr (x * u.amp.toNat) 15,
    { u with cnt := due.2, amp := if due.1 then BitVec.ofNat 15 (u.amp.toNat - u.step.toNat) else u.amp })

/-- `configure` of a LinDecay (R148). -/
def LinDecayUnit.configure (d : Word) (u : LinDecayUnit) : LinDecayUnit :=
  { u with step := cfgCoeff d, every := cfgEvery d }

/-- `ExpDecay.play` (R143). -/
def ExpDecayUnit.play (vel : U44) (u : ExpDecayUnit) : ExpDecayUnit :=
  if vel = 0 then u else { u with amp := 0x7FFF, cnt := 0 }

/-- `ExpDecay.next` (R144). -/
def ExpDecayUnit.next (x : Int) (u : ExpDecayUnit) : Int × ExpDecayUnit :=
  let due := decayDue u.every u.cnt
  (asr (x * u.amp.toNat) 15, { u with cnt := due.2, amp := if due.1 then scaleBy 15 u.amp u.ratio else u.amp })

/-- `configure` of an ExpDecay (R148). -/
def ExpDecayUnit.configure (d : Word) (u : ExpDecayUnit) : ExpDecayUnit :=
  { u with ratio := cfgCoeff d, every := cfgEvery d }

/-- `LPF.play` does nothing (R145). -/
def LpfUnit.play (u : LpfUnit) : LpfUnit := u

/-- The filter's exact new output `(α·x + (32768 − α)·y) >> 15` (R146). -/
def lpfMix (alpha : Q015) (x y : Int) : Int := asr (alpha.toNat * x + (32768 - alpha.toNat) * y) 15

/-- `LPF.next` (R146): the new `y` is stored and returned. -/
def LpfUnit.next (x : Int) (u : LpfUnit) : Int × LpfUnit :=
  let y := toQ15 (lpfMix u.alpha x u.y.toInt)
  (y.toInt, { u with y := y })

/-- `configure` of an LPF (R148). -/
def LpfUnit.configure (d : Word) (u : LpfUnit) : LpfUnit := { u with alpha := cfgCoeff d }

/-- `effect_play` (41_command.md R126): the `play` hook of the effect's kind; pitch and scale have no effect. -/
def Effect.play (vel : U44) : Effect → Effect
  | .linDecay u => .linDecay (u.play vel)
  | .expDecay u => .expDecay (u.play vel)
  | .lpf u => .lpf u.play

/-- `next(x)` of an effect by kind (R140). -/
def Effect.next (x : Int) : Effect → Int × Effect
  | .linDecay u => ((u.next x).1, .linDecay (u.next x).2)
  | .expDecay u => ((u.next x).1, .expDecay (u.next x).2)
  | .lpf u => ((u.next x).1, .lpf (u.next x).2)

/-- `configure` of an effect by kind (R148). -/
def Effect.configure (d : Word) : Effect → Effect
  | .linDecay u => .linDecay (u.configure d)
  | .expDecay u => .expDecay (u.configure d)
  | .lpf u => .lpf (u.configure d)

end Sys2Proof.Machine
end

