-- ==== Sys2Proof/Machine/Oscillators.lean ====
section
/-! DEFINITION. The leaf synths and the drum dispatcher (43_oscillators.md). A `play` answers the unit after it and the
diagnostics it emitted; a `next` answers the output sample, computed from the state before the call, and the unit after
it. -/

namespace Sys2Proof.Machine

/-- `Sine.play` (R161); `fs` is the sample rate of the phase-increment ROM. -/
def SineUnit.play (fs : Nat) (p : Pitch) (vel scale : U44) (u : SineUnit) : SineUnit × List Diag :=
  if vel = 0 then ({ u with gain := 0 }, [])
  else
    match romIndex p with
    | none => (u, [.pitchRange])
    | some c => ({ u with inc := pinc fs c, phase := 0, gain := gainOf vel scale, amp := 0x7FFF, cnt := 0 }, [])

/-- `Sine.attack` (R162). -/
def SineUnit.setAttack (vel scale : U44) (u : SineUnit) : SineUnit := { u with attack := gainOf vel scale }

/-- The output of a Sine unit in its present state (R163): velocity gain, attack gain, own decay envelope. -/
def SineUnit.output (u : SineUnit) : Int :=
  let s1 := sat16 (asr (sineLookup u.phase * u.gain.toNat) 8)
  let s2 := sat16 (asr (s1 * u.attack.toNat) 8)
  asr (s2 * u.amp.toNat) 15

/-- `Sine.next` (R163): the phase advances by `inc + bend` modulo 2 ^ 32. -/
def SineUnit.next (u : SineUnit) : Int × SineUnit :=
  let due := decayDue u.every u.cnt
  (u.output,
    { u with phase := u.phase + u.inc + u.bend, cnt := due.2,
             amp := if due.1 then scaleBy 15 u.amp u.ratio else u.amp })

/-- `Sine.configure` (R164). -/
def SineUnit.configure (d : Word) (u : SineUnit) : SineUnit := { u with ratio := cfgCoeff d, every := cfgEvery d }

/-- A `BEND[u]` write (R165, 10_state.md R51). -/
def SineUnit.setBend (d : Word) (u : SineUnit) : SineUnit := { u with bend := d }

/-- `Saw.play` (R166). -/
def SawUnit.play (fs : Nat) (p : Pitch) (vel scale : U44) (u : SawUnit) : SawUnit × List Diag :=
  if vel = 0 then ({ u with gain := 0 }, [])
  else
    match romIndex p with
    | none => (u, [.pitchRange])
    | some c => ({ u with inc := pinc fs c, phase := 0, gain := gainOf vel scale, cnt := 0 }, [])

/-- `Saw.attack` does nothing (R168). -/
def SawUnit.setAttack (u : SawUnit) : SawUnit := u

/-- `Saw.next` (R167): the ramp is the phase read as Q1.31; the decay lowers the gain itself. -/
def SawUnit.next (u : SawUnit) : Int × SawUnit :=
  let due := decayDue u.every u.cnt
  (sat16 (asr (asr u.phase.toInt 16 * u.gain.toNat) 8),
    { u with phase := u.phase + u.inc, cnt := due.2, gain := if due.1 then scaleBy 16 u.gain u.ratio else u.gain })

/-- `Saw.configure` (R168). -/
def SawUnit.configure (d : Word) (u : SawUnit) : SawUnit := { u with ratio := cfgCoeff d, every := cfgEvery d }

/-- `Sample.play` (R169): a note-on restarts the buffer, a note-off stops it. -/
def SampleUnit.play (vel scale : U44) (u : SampleUnit) : SampleUnit :=
  if vel = 0 then { u with active := false } else { u with cursor := 0, active := true, gain := gainOf vel scale }

/-- `Sample.attack` does nothing (R171). -/
def SampleUnit.setAttack (u : SampleUnit) : SampleUnit := u

/-- `RomRead` of a Sample unit's buffer (20_memory.md R73); the index is in range wherever R170 reads it. -/
def SampleUnit.romAt (u : SampleUnit) (i : Nat) : Int := (u.rom.getD i 0).toInt

/-- `Sample.next` (R170): silence when inactive or exhausted. -/
def SampleUnit.next (u : SampleUnit) : Int × SampleUnit :=
  if u.active = false then (0, u)
  else if u.rom.length ≤ u.cursor.toNat then (0, { u with active := false })
  else (sat16 (asr (u.romAt u.cursor.toNat * u.gain.toNat) 8), { u with cursor := u.cursor + 1 })

/-- The three Sample children of a Drum (10_state.md R38). -/
structure DrumVoices where
  kick  : SampleUnit
  snare : SampleUnit
  hat   : SampleUnit
  deriving DecidableEq, Repr

/-- `Drum.play` (R172): the voice whose parameter equals the linear code of the pitch. -/
def drumPlay (cfg : Params) (p : Pitch) (vel scale : U44) (d : DrumVoices) : DrumVoices × List Diag :=
  if code p = cfg.drumKickCode then ({ d with kick := d.kick.play vel scale }, [])
  else if code p = cfg.drumSnareCode then ({ d with snare := d.snare.play vel scale }, [])
  else if code p = cfg.drumHatCode then ({ d with hat := d.hat.play vel scale }, [])
  else (d, [.drumUnmapped])

/-- `Drum.next` (R173): the exact sum of the three voices, saturated once. -/
def drumNext (d : DrumVoices) : Int × DrumVoices :=
  (sat16 (d.kick.next.1 + d.snare.next.1 + d.hat.next.1),
    { kick := d.kick.next.2, snare := d.snare.next.2, hat := d.hat.next.2 })

/-- `Drum.attack` (R174): each voice's own, which does nothing. -/
def drumAttack (d : DrumVoices) : DrumVoices :=
  { kick := d.kick.setAttack, snare := d.snare.setAttack, hat := d.hat.setAttack }

end Sys2Proof.Machine
end

