-- ==== Sys2Proof/Machine/Poly.lean ====
section
/-! DEFINITION. The polyphonic allocator, the synth-with-effect composition and the root mixer (44_poly_and_mix.md),
and with them the operations of every synth kind: the table of 41_command.md R129 as recursive functions on the synth
tree. -/

namespace Sys2Proof.Machine

/-- The first voice whose slot holds `p` (R190 (a)). -/
def Voices.findHeld (p : Pitch) (vs : Voices) : Option Nat := vs.slots.findIdx? (fun o => decide (o = some p))

/-- The first voice whose slot is empty (R190 (b)). -/
def Voices.findFree (vs : Voices) : Option Nat := vs.slots.findIdx? (fun o => decide (o = none))

/-- The voice the allocator chooses for `p`: retrigger, else first free, else none (R190). -/
def Voices.choose (p : Pitch) (vs : Voices) : Option Nat := (vs.findHeld p).or vs.findFree

/-- The slot of the chosen voice after a dispatch (R191). -/
def slotAfter (p : Pitch) (vel : U44) : Option Pitch := if vel = 0 then none else some p

/-- `SHIFT = ceil(log2 P)` (10_state.md R39, R192). -/
def shiftFor (p : Nat) : Nat := if p ≤ 1 then 0 else Nat.log2 (p - 1) + 1

mutual
/-- `synth_play` by kind (41_command.md R127): Sine R161, Saw R166, Sample R169, Drum R172, Poly R190, WithEffect R196. -/
def Synth.play (cfg : Params) (p : Pitch) (vel scale : U44) : Synth → Synth × List Diag
  | .sine u => (.sine (u.play cfg.sampleRateHz p vel scale).1, (u.play cfg.sampleRateHz p vel scale).2)
  | .saw u => (.saw (u.play cfg.sampleRateHz p vel scale).1, (u.play cfg.sampleRateHz p vel scale).2)
  | .sample u => (.sample (u.play vel scale), [])
  | .drum a kick snare hat =>
    let r := drumPlay cfg p vel scale ⟨kick, snare, hat⟩
    (.drum a r.1.kick r.1.snare r.1.hat, r.2)
  | .poly a voices =>
    match voices.choose p with
    | none => (.poly a voices, [.voiceDrop])
    | some k => (.poly a (voices.playAt cfg p vel scale k).1, (voices.playAt cfg p vel scale k).2)
  | .withEffect synth effect =>
    (.withEffect (synth.play cfg p vel scale).1 (effect.play vel), (synth.play cfg p vel scale).2)
/-- Play voice `k` and update its slot (R190, R191). -/
def Voices.playAt (cfg : Params) (p : Pitch) (vel scale : U44) : Nat → Voices → Voices × List Diag
  | _, .nil => (.nil, [])
  | 0, .cons _ voice rest =>
    (.cons (slotAfter p vel) (voice.play cfg p vel scale).1 rest, (voice.play cfg p vel scale).2)
  | k + 1, .cons slot voice rest =>
    (.cons slot voice (rest.playAt cfg p vel scale k).1, (rest.playAt cfg p vel scale k).2)
end

mutual
/-- `synth_attack` by kind (41_command.md R128): Sine R162, Saw R168, Sample R171, Drum R174, Poly R193, WithEffect
R199. -/
def Synth.attack (vel scale : U44) : Synth → Synth
  | .sine u => .sine (u.setAttack vel scale)
  | .saw u => .saw u.setAttack
  | .sample u => .sample u.setAttack
  | .drum a kick snare hat =>
    let r := drumAttack ⟨kick, snare, hat⟩
    .drum a r.kick r.snare r.hat
  | .poly a voices => .poly a (voices.attack vel scale)
  | .withEffect synth effect => .withEffect (synth.attack vel scale) effect
/-- Every voice receives the attack; the slots do not change (R193). -/
def Voices.attack (vel scale : U44) : Voices → Voices
  | .nil => .nil
  | .cons slot voice rest => .cons slot (voice.attack vel scale) (rest.attack vel scale)
end

mutual
/-- `next` by kind (41_command.md R129): Sine R163, Saw R167, Sample R170, Drum R173, Poly R192, WithEffect R198. -/
def Synth.next : Synth → Int × Synth
  | .sine u => (u.next.1, .sine u.next.2)
  | .saw u => (u.next.1, .saw u.next.2)
  | .sample u => (u.next.1, .sample u.next.2)
  | .drum a kick snare hat =>
    let r := drumNext ⟨kick, snare, hat⟩
    (r.1, .drum a r.2.kick r.2.snare r.2.hat)
  | .poly a voices =>
    let r := voices.next (shiftFor voices.count)
    (sat16 r.1, .poly a r.2)
  | .withEffect synth effect =>
    let r := synth.next
    ((effect.next r.1).1, .withEffect r.2 (effect.next r.1).2)
/-- Every voice advances once; the exact sum of the outputs, each shifted right by `SHIFT` (R192). -/
def Voices.next (shift : Nat) : Voices → Int × Voices
  | .nil => (0, .nil)
  | .cons slot voice rest =>
    let r := voice.next
    let t := rest.next shift
    (asr r.1 shift + t.1, .cons slot r.2 t.2)
end

/-- `mix()` (R200): every root advances once, in root order, and the exact sum is saturated once. -/
def mix (roots : List Synth) : Int × List Synth :=
  (sat16 (roots.map (fun r => r.next.1)).sum, roots.map (fun r => r.next.2))

end Sys2Proof.Machine
end

