-- ==== Sys2Proof/Machine/Router.lean ====
section
/-! DEFINITION. The dispatch router (41_command.md R125, 44_poly_and_mix.md R197, R201). -/

namespace Sys2Proof.Machine

/-- What a synth that passed the address test does with a command (R125, R127, R128). -/
def Synth.receive (cfg : Params) (c : Instr) (t : Synth) : Synth × List Diag :=
  match c with
  | .play p vel scale => t.play cfg p vel scale
  | .setAttack vel scale => (t.attack vel scale, [])

/-- `run_command` on an effect unit: its own address test, then `play` for a Play; SetAttack is ignored (R125, R149). -/
def Effect.runCommand (a : Addr) (c : Instr) (e : Effect) : Effect :=
  if addrMatch a e.addr then
    match c with
    | .play _ vel _ => e.play vel
    | .setAttack _ _ => e
  else e

/-- `run_command` on a synth unit (R125): the address test; below a WithEffect each child applies its own (R197). -/
def Synth.runCommand (cfg : Params) (a : Addr) (c : Instr) : Synth → Synth × List Diag
  | .withEffect synth effect =>
    if addrMatch a (synth.addr ||| effect.addr) then
      (.withEffect (synth.runCommand cfg a c).1 (effect.runCommand a c), (synth.runCommand cfg a c).2)
    else (.withEffect synth effect, [])
  | .sine u => if addrMatch a u.addr then (Synth.sine u).receive cfg c else (.sine u, [])
  | .saw u => if addrMatch a u.addr then (Synth.saw u).receive cfg c else (.saw u, [])
  | .sample u => if addrMatch a u.addr then (Synth.sample u).receive cfg c else (.sample u, [])
  | .drum da kick snare hat =>
    if addrMatch a da then (Synth.drum da kick snare hat).receive cfg c else (.drum da kick snare hat, [])
  | .poly pa voices => if addrMatch a pa then (Synth.poly pa voices).receive cfg c else (.poly pa voices, [])

/-- Offer a command to every root in root order; the diagnostics in the same order (44_poly_and_mix.md R201,
60_exceptions.md R261). The address is that of the beat being dispatched. -/
def State.dispatch (c : Instr) (s : State) : State :=
  { s with roots := s.roots.map (fun r : Synth => (r.runCommand s.params s.beatAddr c).1) }.emit
    (s.roots.flatMap (fun r : Synth => (r.runCommand s.params s.beatAddr c).2))

end Sys2Proof.Machine
end

