-- ==== Sys2Proof/Machine/Commands.lean ====
section
/-! DEFINITION. The meanings of the two commands, one definition each (41_command.md R127, R128). Each runs on the
state from which the sample step has popped the command's beat. -/

namespace Sys2Proof.Machine

/-- PLAY (R127): delivered to every root that the beat's address reaches. It never stops the block. -/
def execPlay (p : Pitch) (vel scale : U44) (s : State) : Host.Outcome State Fault Refusal :=
  .next (s.dispatch (.play p vel scale))

/-- SETATTACK (R128): delivered to every root that the beat's address reaches. -/
def execSetAttack (vel scale : U44) (s : State) : Host.Outcome State Fault Refusal :=
  .next (s.dispatch (.setAttack vel scale))

end Sys2Proof.Machine
end

