-- ==== Sys2Proof/Machine/Dispatch.lean ====
section
/-! DEFINITION. The meaning of each command, one arm per constructor. -/

namespace Sys2Proof.Machine

/-- Run a decoded command (41_command.md R125). -/
def exec (i : Instr) (s : State) : Host.Outcome State Fault Refusal :=
  match i with
  | .play p vel scale => Sys2Proof.Machine.execPlay p vel scale s
  | .setAttack vel scale => Sys2Proof.Machine.execSetAttack vel scale s

end Sys2Proof.Machine
end

