-- ==== Sys2Proof/Machine/Sequencing.lean ====
section
/-! DEFINITION. The sequencer (45_sequencer.md): control operations, the tick, the beats it emits, and their delivery
to the channel. -/

namespace Sys2Proof.Machine

/-- The subdivisions of a measure (R211). -/
def subdivisions : Meter → Nat
  | .fourFour => 16
  | .twelveEight => 12

/-- `play` (R212): acts only from STOPPED. -/
def Sequencer.play (q : Sequencer) : Sequencer :=
  if q.mode = .stopped then { q with mode := .playing, measure := 0, idx := 0 } else q

/-- `play_with_countoff` (R213): acts only from STOPPED. -/
def Sequencer.countoff (q : Sequencer) : Sequencer :=
  if q.mode = .stopped then { q with mode := .countoffSlow, measure := 0, idx := 0 } else q

/-- `stop` (R214): from every mode; `seqbuf` is kept. -/
def Sequencer.stop (q : Sequencer) : Sequencer := { q with mode := .stopped, measure := 0, idx := 0 }

/-- A `SEQ_CMD` write by its op field (10_state.md R46, R49). -/
def Sequencer.command (op : BitVec 2) (q : Sequencer) : Sequencer :=
  match op.toNat with
  | 1 => q.play
  | 2 => q.countoff
  | 3 => q.stop
  | _ => q

/-- `commit` (R222): the whole shadow pattern becomes the active one. -/
def Sequencer.commit (q : Sequencer) : Sequencer := { q with active := q.shadow }

/-- A beat of the sequencer: a Play serialized and addressed to `SEQ_ADDR` (R220). -/
def seqBeat (cfg : Params) (p : Pitch) (vel : U44) : Beat := ⟨cfg.seqAddr, encode (.play p vel cfg.seqScale)⟩

/-- ACCENT (R220). -/
def accentBeat (cfg : Params) : Beat := seqBeat cfg cfg.seqAccentPitch cfg.seqAccentVel

/-- CYMBAL (R220). -/
def cymbalBeat (cfg : Params) : Beat := seqBeat cfg cfg.seqCymbalPitch cfg.seqCymbalVel

/-- The beats of a tick in PLAYING, in the order of R218: cymbal, hat, snare, kick. -/
def playingBeats (cfg : Params) (q : Sequencer) : List Beat :=
  (if q.cymbal4 = true ∧ q.measure = 0 ∧ q.idx = 0 then [cymbalBeat cfg] else [])
    ++ (if q.active.hatMask.getLsbD q.idx.toNat then [seqBeat cfg cfg.seqHatPitch q.active.hatVel] else [])
    ++ (if q.active.snareMask.getLsbD q.idx.toNat then [seqBeat cfg cfg.seqSnarePitch q.active.snareVel] else [])
    ++ (if q.active.kickMask.getLsbD q.idx.toNat then [seqBeat cfg cfg.seqKickPitch q.active.kickVel] else [])

/-- `emit_beats` by mode (R216, R217, R218); none in STOPPED (R225). -/
def emitBeats (cfg : Params) (q : Sequencer) : List Beat :=
  match q.mode with
  | .stopped => []
  | .countoffSlow =>
    if q.idx.toNat = 0 ∨ q.idx.toNat = subdivisions q.meter / 2 then [accentBeat cfg] else []
  | .countoffFast => if q.idx.toNat % 4 = 0 then [accentBeat cfg] else []
  | .playing => playingBeats cfg q

/-- The position after a wrap, by mode (R219). -/
def Sequencer.wrap (q : Sequencer) : Sequencer :=
  match q.mode with
  | .stopped => { q with idx := 0 }
  | .countoffSlow => { q with idx := 0, mode := .countoffFast }
  | .countoffFast => { q with idx := 0, mode := .playing, measure := 0 }
  | .playing => { q with idx := 0, measure := q.measure + 1 }

/-- `advance` (R219): the meter is read at the tick. -/
def Sequencer.advance (q : Sequencer) : Sequencer :=
  if subdivisions q.meter ≤ q.idx.toNat + 1 then q.wrap else { q with idx := q.idx + 1 }

/-- `SeqTick` on the sequencer when its buffer is empty (R215): nothing in STOPPED (R225); otherwise the beats of the
present position, and the advance. -/
def Sequencer.tick (cfg : Params) (q : Sequencer) : Sequencer :=
  if q.mode = .stopped then q else { q.advance with seqbuf := emitBeats cfg q }

/-- `SeqTick` (R215): lost with SEQ_OVERRUN while beats of the previous tick wait (R224). -/
def State.seqTick (s : State) : State :=
  if s.seq.seqbuf = [] then { s with seq := s.seq.tick s.params } else s.emit [.seqOverrun]

/-- The effect of an enabled `SeqPush` (R223): the head of `seqbuf` enters the channel. -/
def State.seqPush (s : State) : State :=
  match s.seq.seqbuf with
  | [] => s
  | b :: rest => { s with seq := { s.seq with seqbuf := rest } }.fifoPush b

/-- `current_subdivision()` (R221). -/
def currentSubdivision (q : Sequencer) : BitVec 4 :=
  match q.mode with
  | .stopped => 0
  | .countoffSlow | .countoffFast => q.idx &&& 0xC
  | .playing => q.idx

/-- The encoding of the mode in SEQ_POS (10_state.md R44, R48). -/
def SeqMode.bits : SeqMode → BitVec 2
  | .stopped => 0 | .countoffSlow => 1 | .countoffFast => 2 | .playing => 3

/-- The meter bit of SEQ_CFG (10_state.md R46). -/
def Meter.bit : Meter → BitVec 1
  | .fourFour => 0 | .twelveEight => 1

/-- The meter of a SEQ_CFG bit (10_state.md R46). -/
def Meter.ofBit (b : Bool) : Meter := if b then .twelveEight else .fourFour

end Sys2Proof.Machine
end

