-- ==== Sys2Proof/Machine/Registers.lean ====
section
/-! DEFINITION. The register port: the map of 10_state.md R46 to R52, and the events RegWrite and RegRead
(46_engine_step.md R244, R245). -/

namespace Sys2Proof.Machine

/-- The registers of the map (10_state.md R46). -/
inductive Reg where
  | seqCmd | seqCfg | patHs | patK | patVel | patCommit | status | seqPos | fifoLevel
  | unitCfg (u : Nat)
  | bend (u : Nat)
  | unmapped
  deriving DecidableEq, Repr

/-- The register at an index, in a block of `n` units (10_state.md R46, R52). -/
def regAt (n : Nat) (i : RegIndex) : Reg :=
  match i.toNat with
  | 0x000 => .seqCmd
  | 0x001 => .seqCfg
  | 0x002 => .patHs
  | 0x003 => .patK
  | 0x004 => .patVel
  | 0x005 => .patCommit
  | 0x006 => .status
  | 0x007 => .seqPos
  | 0x008 => .fifoLevel
  | k =>
    if 0x100 ≤ k ∧ k < 0x200 ∧ k - 0x100 < n then .unitCfg (k - 0x100)
    else if 0x200 ≤ k ∧ k < 0x300 ∧ k - 0x200 < n then .bend (k - 0x200)
    else .unmapped

/-- A register write that reaches one unit: its settings record (R50) or its bend (R51). -/
inductive UnitWrite where
  | configure (d : Word)
  | bend (d : Word)
  deriving DecidableEq, Repr

/-- A write to a Sine unit (43_oscillators.md R164, R165). -/
def SineUnit.write (w : UnitWrite) (u : SineUnit) : SineUnit :=
  match w with
  | .configure d => u.configure d
  | .bend d => u.setBend d

/-- A write to a Saw unit: it has no bend (10_state.md R51). -/
def SawUnit.write (w : UnitWrite) (u : SawUnit) : SawUnit :=
  match w with
  | .configure d => u.configure d
  | .bend _ => u

/-- A write to an effect unit: it has no bend (10_state.md R51). -/
def Effect.write (w : UnitWrite) (e : Effect) : Effect :=
  match w with
  | .configure d => e.configure d
  | .bend _ => e

mutual
/-- A write to unit `k` of a tree, numbered by the pre-order walk from 0 (10_state.md R32). Sample, Drum, Poly and
WithEffect units have no writable setting (R50; 44_poly_and_mix.md R194). -/
def Synth.writeAt (w : UnitWrite) : Nat → Synth → Synth
  | k, .sine u => .sine (if k = 0 then u.write w else u)
  | k, .saw u => .saw (if k = 0 then u.write w else u)
  | _, .sample u => .sample u
  | _, .drum a kick snare hat => .drum a kick snare hat
  | k, .poly a voices => if k = 0 then .poly a voices else .poly a (voices.writeAt w (k - 1))
  | k, .withEffect synth effect =>
    if k = 0 then .withEffect synth effect
    else if k - 1 < synth.size then .withEffect (synth.writeAt w (k - 1)) effect
    else .withEffect synth (if k - 1 = synth.size then effect.write w else effect)
@[inherit_doc Synth.writeAt]
def Voices.writeAt (w : UnitWrite) : Nat → Voices → Voices
  | _, .nil => .nil
  | k, .cons slot voice rest =>
    if k < voice.size then .cons slot (voice.writeAt w k) rest
    else .cons slot voice (rest.writeAt w (k - voice.size))
end

/-- A write to unit `k` of the block, the roots numbered in list order (10_state.md R32). -/
def writeRoots (w : UnitWrite) : Nat → List Synth → List Synth
  | _, [] => []
  | k, r :: rs => if k < r.size then r.writeAt w k :: rs else r :: writeRoots w (k - r.size) rs

/-- `RegWrite(i, d)` (R244). -/
def State.regWrite (i : RegIndex) (d : Word) (s : State) : State :=
  match regAt s.numUnits i with
  | .seqCmd => { s with seq := s.seq.command (d.extractLsb' 0 2) }
  | .seqCfg => { s with seq := { s.seq with meter := Meter.ofBit (d.getLsbD 0), cymbal4 := d.getLsbD 1 } }
  | .patHs =>
    { s with seq := { s.seq with shadow :=
      { s.seq.shadow with hatMask := d.extractLsb' 0 16, snareMask := d.extractLsb' 16 16 } } }
  | .patK => { s with seq := { s.seq with shadow := { s.seq.shadow with kickMask := d.extractLsb' 0 16 } } }
  | .patVel =>
    { s with seq := { s.seq with shadow :=
      { s.seq.shadow with
        hatVel := d.extractLsb' 0 8, snareVel := d.extractLsb' 8 8, kickVel := d.extractLsb' 16 8 } } }
  | .patCommit => { s with seq := s.seq.commit }
  | .status => { s with status := statusCleared s.status d }
  | .seqPos => s
  | .fifoLevel => s
  | .unitCfg u => { s with roots := writeRoots (.configure d) u s.roots }
  | .bend u => { s with roots := writeRoots (.bend d) u s.roots }
  | .unmapped => s

/-- A settings record with its 16-bit and 15-bit fields; bit 15 reads 0 (10_state.md R50). -/
def cfgWord (every : U16) (coeff : Q015) : Word := every ++ (0 : BitVec 1) ++ coeff

/-- The value that `UNIT_CFG` of a unit reads (10_state.md R50). -/
def UnitView.config : UnitView → Word
  | .sine u => cfgWord u.every u.ratio
  | .saw u => cfgWord u.every u.ratio
  | .expDecay u => cfgWord u.every u.ratio
  | .linDecay u => cfgWord u.every u.step
  | .lpf u => cfgWord 0 u.alpha
  | .sample _ => 0
  | .drum _ => 0
  | .poly _ _ => 0
  | .withEffect => 0

/-- The value that `BEND` of a unit reads: 0 for any kind but Sine (10_state.md R51). -/
def UnitView.bend : UnitView → Word
  | .sine u => u.bend
  | .saw _ => 0
  | .expDecay _ => 0
  | .linDecay _ => 0
  | .lpf _ => 0
  | .sample _ => 0
  | .drum _ => 0
  | .poly _ _ => 0
  | .withEffect => 0

/-- SEQ_POS (10_state.md R48). -/
def seqPosWord (q : Sequencer) : Word :=
  (0 : BitVec 20) ++ q.idx ++ currentSubdivision q ++ q.measure ++ q.mode.bits

/-- FIFO_LEVEL (10_state.md R46). -/
def fifoLevelWord (s : State) : Word :=
  (0 : BitVec 21) ++ BitVec.ofNat 3 s.seq.seqbuf.length ++ BitVec.ofNat 8 s.fifo.length

/-- The value that a register read returns (R245). -/
def State.regValue (i : RegIndex) (s : State) : Word :=
  match regAt s.numUnits i with
  | .seqCmd => 0
  | .seqCfg => (0 : BitVec 30) ++ BitVec.ofBool s.seq.cymbal4 ++ s.seq.meter.bit
  | .patHs => s.seq.shadow.snareMask ++ s.seq.shadow.hatMask
  | .patK => (0 : BitVec 16) ++ s.seq.shadow.kickMask
  | .patVel => (0 : BitVec 8) ++ s.seq.shadow.kickVel ++ s.seq.shadow.snareVel ++ s.seq.shadow.hatVel
  | .patCommit => 0
  | .status => (0 : BitVec 27) ++ s.status
  | .seqPos => seqPosWord s.seq
  | .fifoLevel => fifoLevelWord s
  | .unitCfg u => (s.units[u]?.map UnitView.config).getD 0
  | .bend u => (s.units[u]?.map UnitView.bend).getD 0
  | .unmapped => 0

/-- `RegRead(i)` (R245): the value is driven in the cycle after the strobe; nothing else changes (20_memory.md R77). -/
def State.regRead (i : RegIndex) (s : State) : State := { s with regResp := some (s.regValue i) }

end Sys2Proof.Machine
end

