-- ==== Sys2Proof/Machine/Engine.lean ====
section
/-! DEFINITION. The events of the block and the clock cycle that bundles them (46_engine_step.md). The sample step is
where a command is fetched: the head of the channel is the next instruction. -/

namespace Sys2Proof.Machine

/-- The end of every sample step (R241): mix the roots, hold the sample on `sample_out`, pulse `sample_valid`. -/
def State.render (s : State) : State :=
  { s with roots := (mix s.roots).2, lastSample := toQ15 (mix s.roots).1, sampleValid := true }

/-- What follows the dispatch of a beat in its sample step: the address side-band is released, the sample computed. -/
def State.finishStep (s : State) : State := { s with beatAddr := 0 }.render

/-- The state in which a popped beat's command runs: the beat is out of the channel and its address is on the router
(20_memory.md R84, R241). -/
def State.popped (b : Beat) (rest : List Beat) (s : State) : State := { s with fifo := rest, beatAddr := b.addr }

/-- `SampleStep` (R241): apply at most one command, then compute one output sample. -/
def State.sampleStep (s : State) : Host.Outcome State Fault Refusal :=
  match s.fifo with
  | [] => .next s.render
  | b :: rest =>
    match deserialize b.word with
    | none => .next ((s.popped b rest).emit [.malformed]).finishStep
    | some c =>
      match exec c (s.popped b rest) with
      | .next t => .next t.finishStep
      | .fault f => .fault f
      | .refused r => .refused r

/-- The beat on the command port: the address has `ADDR_W` bits (10_state.md R31). -/
def State.portBeat (a : Addr) (w : Word) (s : State) : Beat := ⟨addrMask s.params a, w⟩

/-- `HostPush(a, w)` (R242): accepted when `cmd_ready` is high; otherwise the offer waits outside the block. -/
def State.hostPush (a : Addr) (w : Word) (s : State) : State :=
  if s.cmdReady then s.fifoPush (s.portBeat a w) else s

/-- `SeqPush` (45_sequencer.md R223): only when it is enabled. -/
def State.trySeqPush (s : State) : State := if s.seqPushEnabled then s.seqPush else s

/-- One atomic event (10_state.md R34). -/
def State.event (e : Event) (s : State) : Host.Outcome State Fault Refusal :=
  match e with
  | .reset => .next s.resetBlock
  | .sampleStep => s.sampleStep
  | .hostPush a w => .next (s.hostPush a w)
  | .seqTick => .next s.seqTick
  | .seqPush => .next s.trySeqPush
  | .regWrite i d => .next (s.regWrite i d)
  | .regRead i => .next (s.regRead i)
  | .presentDiag => .next s.presentDiag

/-- The events of a cycle before its sample step (R246): a presented diagnostic (assumption 7), then RegWrite, then
RegRead. -/
def State.cycleRegs (c : CycleIn) (s : State) : State :=
  let s0 := if c.diagSlot then s.presentDiag else s
  let s1 := if c.regWe then s0.regWrite c.regIndex c.regWdata else s0
  if c.regRe then s1.regRead c.regIndex else s1

/-- The events of a cycle after its sample step (R246): HostPush, SeqPush, SeqTick. `ready` and `push` are the
enabledness of the first two on the state at the start of the cycle. -/
def State.cyclePushes (c : CycleIn) (ready push : Bool) (s : State) : State :=
  let s1 := if c.cmdValid && ready then s.fifoPush (s.portBeat c.cmdAddr c.cmdWord) else s
  let s2 := if push then s1.seqPush else s1
  if c.seqTick then s2.seqTick else s2

/-- The cycles left of a sample step after this cycle (R247, assumption 8). -/
def State.busyAfter (c : CycleIn) (s : State) : Nat := if c.sampleTick then s.params.stepCycles - 1 else s.busy - 1

/-- One clock cycle: the order of R246. A `sample_tick` during a step in progress is outside the spec (R247). -/
def State.cycle (c : CycleIn) (s : State) : Host.Outcome State Fault Refusal :=
  if c.rst then .next s.resetBlock
  else if c.sampleTick && decide (0 < s.busy) then .fault .sampleTickDuringStep
  else
    match (if c.sampleTick then (s.cycleRegs c).sampleStep else .next (s.cycleRegs c)) with
    | .next t => .next { t.cyclePushes c s.cmdReady s.seqPushEnabled with busy := s.busyAfter c }
    | .fault f => .fault f
    | .refused r => .refused r

/-- One entry of the schedule. -/
def State.input (i : Input) (s : State) : Host.Outcome State Fault Refusal :=
  match i with
  | .event e => s.event e
  | .cycle c => s.cycle c

/-- What stands in the block before the next entry of the schedule acts: the pulses of the last one are over, and the
entry is taken from the schedule. -/
def State.taken (rest : List Input) (s : State) : State := { s.quiet with inputs := rest }

/-- The block with a beat at the head of its channel and a sample step as the next event. -/
def State.withBeat (b : Beat) (s : State) : State :=
  { s with fifo := b :: s.fifo.drop 1, inputs := .event .sampleStep :: s.inputs }

/-- The address that reaches every unit with a non-zero address: all `ADDR_W` bits (41_command.md R124). -/
def broadcastAddr (p : Params) : Addr := addrMask p 0xFFFF

end Sys2Proof.Machine
end

