-- ==== Sys2Proof/Machine/Ports.lean ====
section
/-! DEFINITION. The output ports of the block (10_state.md R31) as a view of the state, and the assembler's statements
(30_encoding.md R101, R102) as schedule entries. -/

namespace Sys2Proof.Machine

/-- The output pins in one clock cycle. `none` is an output to which the spec gives no value (93 I18): outputs other
than `sample_out` and `cmd_ready` while `rst` is high. -/
structure PortsOut where
  sampleOut   : Q15
  sampleValid : Option Bool
  cmdReady    : Bool
  regResp     : Option (Option Word)
  diagOut     : Option (Option Diag)
  deriving DecidableEq, Repr

/-- The output pins in a cycle that starts in state `s` with the given level of `rst`: `cmd_ready` is computed from the
state at the start of the cycle (46_engine_step.md R243) and is low while `rst` is high, where `sample_out` is 0
(70_reset_and_hazards.md R280, 93 I18). -/
def ports (rst : Bool) (s : State) : PortsOut :=
  if rst then { sampleOut := 0, sampleValid := none, cmdReady := false, regResp := none, diagOut := none }
  else
    { sampleOut := s.lastSample, sampleValid := some s.sampleValid, cmdReady := s.cmdReady, regResp := some s.regResp,
      diagOut := some s.diagOut }

/-- The statements of the assembler (30_encoding.md R101, R102). -/
inductive AsmStmt where
  | play (addr : Addr) (pitch : Pitch) (vel scale : U44)
  | setAttack (addr : Addr) (vel scale : U44)
  | word (addr : Addr) (w : Word)
  | noteOff (addr : Addr) (pitch : Pitch)
  | noteOn (addr : Addr) (pitch : Pitch)
  | attack1 (addr : Addr)
  | sample
  | tick
  | seqPush
  | regW (index : RegIndex) (data : Word)
  | regR (index : RegIndex)
  | reset
  deriving DecidableEq, Repr

/-- The event of an assembler statement (R101); each pseudo-instruction expands to one real command (R102). -/
def assemble : AsmStmt → Event
  | .play a p vel scale => .hostPush a (encode (.play p vel scale))
  | .setAttack a vel scale => .hostPush a (encode (.setAttack vel scale))
  | .word a w => .hostPush a w
  | .noteOff a p => .hostPush a (encode (Instr.noteOff p))
  | .noteOn a p => .hostPush a (encode (Instr.noteOn p))
  | .attack1 a => .hostPush a (encode Instr.attack1)
  | .sample => .sampleStep
  | .tick => .seqTick
  | .seqPush => .seqPush
  | .regW i d => .regWrite i d
  | .regR i => .regRead i
  | .reset => .reset

/-- A program of assembler statements, scheduled on a block. -/
def State.withProgram (program : List AsmStmt) (s : State) : State :=
  { s with inputs := program.map (fun a => Input.event (assemble a)) }

end Sys2Proof.Machine
end

