-- ==== Sys2Proof/Machine/Step.lean ====
section
/-! DEFINITION. One step of the machine: the next entry of the environment's schedule acts on the block. -/

namespace Sys2Proof.Machine

/-- One step: the next entry of the schedule (10_state.md R34, 46_engine_step.md R240, R246). With nothing scheduled the
block holds its state (60_exceptions.md R274). -/
def step (s : State) : Host.Outcome State Fault Refusal :=
  match s.inputs with
  | [] => .next s.quiet
  | i :: rest => (s.taken rest).input i

/-- `s` with the instruction of the low `nbits` bits of `w` as the next beat of the channel, addressed to every unit,
and a sample step as the next event (assumption 6). -/
def State.withFetchWord (s : State) (nbits w : Nat) : State :=
  s.withBeat ⟨broadcastAddr s.params, BitVec.ofNat 32 (w % 2 ^ nbits)⟩

end Sys2Proof.Machine
end

