-- ==== Sys2Proof/Safety.lean ====
section
/-! DEFINITION. The terms in which claims are made: the invariant of the block, what an entry of the schedule asks of it,
and when a run meets the deadline. -/

namespace Sys2Proof.Machine

/-- The slots of an allocator hold valid pitches, each pitch at most once (10_state.md R39, 44_poly_and_mix.md R190). -/
def slotsOk (slots : List (Option Pitch)) : Bool :=
  slots.all (fun o => o.all Pitch.wf) && decide ((slots.filterMap id).Nodup)

/-- A gain in the range of U8.8 products (00_scope.md R9). -/
def gainOk (g : U88) : Bool := decide (g.toNat ≤ 65025)

/-- A Sample unit's cursor is 0..LEN and its gain a U8.8 product (10_state.md R37). -/
def SampleUnit.ok (u : SampleUnit) : Bool := decide (u.cursor.toNat ≤ u.rom.length) && gainOk u.gain

mutual
/-- The ranges of the run-time state of a tree that the widths of its fields do not already give. -/
def Synth.ok : Synth → Bool
  | .sine u => gainOk u.gain && gainOk u.attack
  | .saw u => gainOk u.gain
  | .sample u => u.ok
  | .drum _ kick snare hat => kick.ok && snare.ok && hat.ok
  | .poly _ voices => slotsOk voices.slots && voices.ok
  | .withEffect synth _ => synth.ok
@[inherit_doc Synth.ok]
def Voices.ok : Voices → Bool
  | .nil => true
  | .cons _ voice rest => voice.ok && rest.ok
end

/-- A beat as the sequencer emits it: addressed to `SEQ_ADDR`, a Play with the sequencer's scale (45_sequencer.md
R220). -/
def fromSequencer (cfg : Params) (b : Beat) : Bool :=
  decide (b.addr = cfg.seqAddr) &&
    match deserialize b.word with
    | some (.play _ _ scale) => decide (scale = cfg.seqScale)
    | some (.setAttack _ _) => false
    | none => false

/-- The sequencer's legal states: at most 4 beats wait, each of its own making (45_sequencer.md R218, R220); the measure
counts only in PLAYING and STOPPED stands at subdivision 0 (R210). -/
def Sequencer.ok (cfg : Params) (q : Sequencer) : Bool :=
  decide (q.seqbuf.length ≤ 4) && q.seqbuf.all (fromSequencer cfg)
    && (decide (q.mode = .playing) || decide (q.measure = 0))
    && (decide (q.mode ≠ .stopped) || decide (q.idx = 0))

/-- The channel's legal contents: at most `FIFO_DEPTH` beats with `ADDR_W`-bit addresses (10_state.md R45). -/
def channelOk (cfg : Params) (fifo : List Beat) : Bool :=
  decide (fifo.length ≤ cfg.fifoDepth) && fifo.all (fun b => b.addr.fits cfg.addrW)

/-- The tree has the shape, the addresses and the sample buffers that `TOPOLOGY` gives it (10_state.md R32, R54). -/
def treeShapeOk (cfg : Params) (roots : List Synth) : Bool :=
  decide (roots.map Synth.skeleton = cfg.topology.map Synth.build)

/-- The invariant of the block. -/
abbrev State.Inv (s : State) : Prop :=
  s.params.wf = true ∧ channelOk s.params s.fifo = true ∧ s.seq.ok s.params = true
    ∧ treeShapeOk s.params s.roots = true ∧ s.roots.all Synth.ok = true

/-- Does an entry of the schedule reset the block? -/
def Input.resets : Input → Bool
  | .event .reset => true
  | .event _ => false
  | .cycle c => c.rst

/-- Does an entry of the schedule run a sample step (46_engine_step.md R241)? -/
def Input.samples : Input → Bool
  | .event .sampleStep => true
  | .event _ => false
  | .cycle c => !c.rst && c.sampleTick

/-- The register write of an entry of the schedule, if it makes one (46_engine_step.md R244). -/
def Input.writes : Input → Option (RegIndex × Word)
  | .event (.regWrite i d) => some (i, d)
  | .event _ => none
  | .cycle c => if !c.rst && c.regWe then some (c.regIndex, c.regWdata) else none

/-- Does an entry of the schedule offer a beat on the command port (46_engine_step.md R242)? -/
def Input.pushes : Input → Bool
  | .event (.hostPush _ _) => true
  | .event _ => false
  | .cycle c => !c.rst && c.cmdValid

/-- Does an entry of the schedule present the oldest waiting diagnostic (60_exceptions.md R261, assumption 7)? -/
def Input.presents : Input → Bool
  | .event .presentDiag => true
  | .event _ => false
  | .cycle c => !c.rst && c.diagSlot

/-- The unit makes no sound: an oscillator's gain is 0, and a filter holds 0 (70_reset_and_hazards.md R284). -/
def UnitView.Silent : UnitView → Prop
  | .sine u => u.gain = 0
  | .saw u => u.gain = 0
  | .sample u => u.gain = 0
  | .lpf u => u.y = 0
  | .drum _ | .poly _ _ | .withEffect | .linDecay _ | .expDecay _ => True

/-- Nothing sounds and nothing waits: the channel and `seqbuf` are empty, the sequencer is STOPPED, and every unit is
silent (70_reset_and_hazards.md R284). -/
def State.Silent (s : State) : Prop :=
  s.fifo = [] ∧ s.seq.mode = .stopped ∧ s.seq.seqbuf = [] ∧ ∀ v ∈ s.units, v.Silent

/-- The next entry asks for a sample step while one is in progress (46_engine_step.md R247). -/
def State.deadlineMissed (s : State) : Prop :=
  ∃ c rest, s.inputs = .cycle c :: rest ∧ c.rst = false ∧ c.sampleTick = true ∧ 0 < s.busy

/-- `r` stands among the roots between `before` and `after`, and the address of the beat reaches it and no other root
(41_command.md R124). -/
def State.ReachesOnly (s : State) (before : List Synth) (r : Synth) (after : List Synth) : Prop :=
  s.roots = before ++ r :: after ∧ s.beatAddr &&& r.addr ≠ 0 ∧
    (∀ q ∈ before, s.beatAddr &&& q.addr = 0) ∧ (∀ q ∈ after, s.beatAddr &&& q.addr = 0)

/-- `k` is the voice that an allocator with these slots chooses for pitch `p`: the first slot that holds `p`, or, where
none holds it, the first empty slot (44_poly_and_mix.md R190). -/
def ChosenVoice (slots : List (Option Pitch)) (p : Pitch) (k : Nat) : Prop :=
  (slots[k]? = some (some p) ∧ ∀ j < k, slots[j]? ≠ some (some p)) ∨
    (some p ∉ slots ∧ slots[k]? = some none ∧ ∀ j < k, slots[j]? ≠ some none)

/-- The unit with every field that a Play may write put at 0 (41_command.md R126, R127): two units that are equal in
this view differ at most in those fields, and an LPF, a Drum node and a WithEffect not at all. -/
def UnitView.unplayed : UnitView → UnitView
  | .sine u => .sine { u with phase := 0, inc := 0, gain := 0, amp := 0, cnt := 0 }
  | .saw u => .saw { u with phase := 0, inc := 0, gain := 0, cnt := 0 }
  | .sample u => .sample { u with cursor := 0, active := false, gain := 0 }
  | .drum a => .drum a
  | .poly a slots => .poly a (slots.map (fun _ => none))
  | .withEffect => .withEffect
  | .linDecay u => .linDecay { u with amp := 0, cnt := 0 }
  | .expDecay u => .expDecay { u with amp := 0, cnt := 0 }
  | .lpf u => .lpf u

/-- Nothing but the attack gain of a Sine differs, and that only by becoming `g` (41_command.md R128). -/
def UnitView.SameButAttack (g : U88) : UnitView → UnitView → Prop
  | .sine u, .sine v => v = u ∨ v = { u with attack := g }
  | u, v => v = u

/-- The unit after a write of its settings record: only the fields of R50 change, by kind. -/
def UnitView.configured (d : Word) : UnitView → UnitView
  | .sine u => .sine { u with ratio := d.extractLsb' 0 15, every := d.extractLsb' 16 16 }
  | .saw u => .saw { u with ratio := d.extractLsb' 0 15, every := d.extractLsb' 16 16 }
  | .expDecay u => .expDecay { u with ratio := d.extractLsb' 0 15, every := d.extractLsb' 16 16 }
  | .linDecay u => .linDecay { u with step := d.extractLsb' 0 15, every := d.extractLsb' 16 16 }
  | .lpf u => .lpf { u with alpha := d.extractLsb' 0 15 }
  | v => v

/-- The unit after a write of its bend register: only a Sine has one (10_state.md R51). -/
def UnitView.bent (d : Word) : UnitView → UnitView
  | .sine u => .sine { u with bend := d }
  | v => v

/-- The reset column of the unit's state table (10_state.md R35 to R43, 70_reset_and_hazards.md R281). -/
def UnitView.AtReset : UnitView → Prop
  | .sine u => u.ratio = 0x7FFF ∧ u.every = 0 ∧ u.phase = 0 ∧ u.inc = 0 ∧ u.bend = 0 ∧ u.gain = 0 ∧ u.attack = 0x0100
      ∧ u.amp = 0 ∧ u.cnt = 0
  | .saw u => u.ratio = 0x7FFF ∧ u.every = 0 ∧ u.phase = 0 ∧ u.inc = 0 ∧ u.gain = 0 ∧ u.cnt = 0
  | .sample u => u.cursor = 0 ∧ u.active = false ∧ u.gain = 0
  | .drum _ => True
  | .poly _ slots => ∀ o ∈ slots, o = none
  | .withEffect => True
  | .linDecay u => u.step = 0 ∧ u.every = 0 ∧ u.amp = 0 ∧ u.cnt = 0
  | .expDecay u => u.ratio = 0x7FFF ∧ u.every = 0 ∧ u.amp = 0 ∧ u.cnt = 0
  | .lpf u => u.alpha = 0x7FFF ∧ u.y = 0

/-- A tick whose beats are all delivered before the next one (45_sequencer.md R226). -/
def Sequencer.drainedTick (cfg : Params) (q : Sequencer) : Sequencer := { q.tick cfg with seqbuf := [] }

/-- The beats that the ticks from `q` on emit, tick by tick, each tick's beats delivered before the next. -/
def tickBeats (cfg : Params) (q : Sequencer) (k : Nat) : List Beat :=
  (((Sequencer.drainedTick cfg)^[k] q).tick cfg).seqbuf

/-- Atomic events one after another, stopping where one stops. -/
def State.events : List Event → State → Host.Outcome State Fault Refusal
  | [], s => .next s
  | e :: es, s =>
    match s.event e with
    | .next t => State.events es t
    | .fault f => .fault f
    | .refused r => .refused r

/-- The events of a clock cycle with `rst` low: a diagnostic presented (assumption 7), then those of 46_engine_step.md
R246 in its order, the pushes only if they are enabled at its start. -/
def cycleEvents (c : CycleIn) (s : State) : List Event :=
  (if c.diagSlot then [.presentDiag] else [])
    ++ (if c.regWe then [.regWrite c.regIndex c.regWdata] else [])
    ++ (if c.regRe then [.regRead c.regIndex] else [])
    ++ (if c.sampleTick then [.sampleStep] else [])
    ++ (if c.cmdValid && s.cmdReady then [.hostPush c.cmdAddr c.cmdWord] else [])
    ++ (if s.seqPushEnabled then [.seqPush] else [])
    ++ (if c.seqTick then [.seqTick] else [])

end Sys2Proof.Machine
end

