-- ==== Sys2Proof/Certificates/Slice0/Obligations.lean ====
section
/-! DEFINITION. The statements about the model, each formalising what a numbered rule of spec/ says the block does. An
event or a clock cycle is the head of the schedule `inputs` (assumption 2); `s.taken rest` is `s` with that head taken
and the output pulses of the entry before it over (assumption 17). -/

open Sys2Proof Sys2Proof.Machine

/-! ## Encoding (30_encoding.md, 41_command.md R120 to R123) -/

/-- Words written out from the layout of R90 decode to the commands they stand for; a sanity statement. -/
def Obligations.SpecWordsDecode : Prop :=
  deserialize 0b00000000100100100000000111111111 = some (.play ⟨.c, .natural, 2⟩ 255 1) ∧
  deserialize 0b00000011110000100001000000010000 = some (.play ⟨.c, .doubleFlat, -1⟩ 0x10 0x10) ∧
  deserialize 0b00000001111000010001000000010000 = some (.play ⟨.b, .doubleSharp, 7⟩ 0x10 0x10) ∧
  deserialize 0b00000111111111110001000000001000 = some (.setAttack 0x08 0x10) ∧
  deserialize 0b00000000000001110000000000000000 = none ∧
  deserialize 0b00001000000000000000000000000000 = none

/-- R120, R123: every word decodes by its command id; a Play word in range gives its letter, accidental,
two's-complement octave, velocity and scale, and every other word that is no SetAttack gives nothing. -/
def Obligations.DeserializeByFields : Prop :=
  ∀ w : Word,
    (w.extractLsb' 26 6 = 0 → (w.extractLsb' 16 3).toNat ≤ 6 → (w.extractLsb' 19 3).toNat ≤ 4 →
      ∃ p : Pitch, p.letter.id = w.extractLsb' 16 3 ∧ p.accidental.id = w.extractLsb' 19 3 ∧
        p.octave = (w.extractLsb' 22 4).toInt ∧
        deserialize w = some (.play p (w.extractLsb' 0 8) (w.extractLsb' 8 8))) ∧
    (w.extractLsb' 26 6 = 0 → (6 < (w.extractLsb' 16 3).toNat ∨ 4 < (w.extractLsb' 19 3).toNat) →
      deserialize w = none) ∧
    (w.extractLsb' 26 6 = 1 → deserialize w = some (.setAttack (w.extractLsb' 0 8) (w.extractLsb' 8 8))) ∧
    (w.extractLsb' 26 6 ≠ 0 → w.extractLsb' 26 6 ≠ 1 → deserialize w = none)

/-- R122: decoding an encoded command of the operand ranges gives it back, and the converse fails for a SetAttack word
with a bit set in 25:16. -/
def Obligations.SerializeRoundTrip : Prop :=
  (∀ i : Instr, i.wf = true → deserialize (encode i) = some i) ∧
  (∀ (w : Word) (i : Instr), w.extractLsb' 26 6 = 1 → w.extractLsb' 16 10 ≠ 0 → deserialize w = some i → encode i ≠ w)

/-- R97, R121: a Play word has one meaning, so encoding what it decodes to gives the word back; a SetAttack word comes
back with bits 25:16 cleared. What a word decodes to is well formed. -/
def Obligations.EncodeDecodedWord : Prop :=
  ∀ (w : Word) (i : Instr), deserialize w = some i →
    i.wf = true ∧ encode i = if w.extractLsb' 26 6 = 0 then w else w &&& 0xFC00FFFF#32

/-! ## Pitch (40_pitch.md) -/

/-- R113, R116: the codes of the valid pitches run from −86 to 109, and the pitches below the oscillators' range are
those the spec lists. -/
def Obligations.LinearCodeRange : Prop :=
  ∀ p : Pitch, p.wf = true →
    -86 ≤ code p ∧ code p ≤ 109 ∧
    (code p < 0 ↔
      (p.octave ≤ -2 ∧ p ≠ ⟨.b, .sharp, -2⟩ ∧ p ≠ ⟨.b, .doubleSharp, -2⟩)
        ∨ p = ⟨.c, .doubleFlat, -1⟩ ∨ p = ⟨.c, .flat, -1⟩)

/-- R115: every entry of the phase-increment ROM is the frequency as a fraction of the sample rate, in units of
2^−32 cycle, rounded to nearest, for every legal sample rate. -/
def Obligations.PhaseIncrementIsRoundedFrequency : Prop :=
  ∀ fs c : Nat, 25088 ≤ fs → c ≤ 127 →
    ((pinc fs c).toNat : Int) =
      ⌊(440 : ℝ) * (2 : ℝ) ^ (((c : ℝ) - 69) / 12) * (2 : ℝ) ^ (32 : ℕ) / (fs : ℝ) + 1 / 2⌋

/-! ## Oscillators (43_oscillators.md) -/

/-- R160, R72: each entry of the quarter-sine ROM is the sine of its angle in units of 1/32767, rounded to nearest; in the
first quarter cycle, its two ends included, the lookup interpolates between adjacent entries with a floor, and it is odd
under half a cycle and symmetric about the quarter cycle, which gives every other phase; it lies in −32767..32767. -/
def Obligations.SineLookupFollowsTheSine : Prop :=
  let entry := fun i : Nat => ⌊(32767 : ℝ) * Real.sin (Real.pi * (i : ℝ) / 512) + 1 / 2⌋
  (∀ i ≤ 256, qtabAt i = entry i) ∧
  (∀ phase : Word, phase.toNat ≤ 2 ^ 30 →
    let i := phase.toNat / 2 ^ 22
    sineLookup phase = entry i + (entry (i + 1) - entry i) * ((phase.toNat % 2 ^ 22 : Nat) : Int) / 2 ^ 22) ∧
  ∀ phase : Word,
    -32767 ≤ sineLookup phase ∧ sineLookup phase ≤ 32767 ∧
    sineLookup (phase + 0x80000000#32) = -sineLookup phase ∧
    sineLookup (0x80000000#32 - phase) = sineLookup phase

/-- R161: a Play that reaches a Sine root and no other: the whole next state. A note-off only clears the gain; a note-on
in range starts the note; one out of range changes nothing but the diagnostics. -/
def Obligations.PlayOnSine : Prop :=
  ∀ (s : State) (before after : List Synth) (u : SineUnit) (p : Pitch) (vel scale : U44),
    s.ReachesOnly before (.sine u) after →
    exec (.play p vel scale) s = .next (
      if vel = 0 then { s with roots := before ++ .sine { u with gain := 0 } :: after }
      else if 0 ≤ code p ∧ code p ≤ 127 then
        { s with roots := before ++ .sine { u with
            inc := pinc s.params.sampleRateHz (code p).toNat, phase := 0,
            gain := BitVec.ofNat 16 (vel.toNat * scale.toNat), amp := 0x7FFF, cnt := 0 } :: after }
      else { s with status := s.status ||| 8, trace := s.trace ++ [.pitchRange] })

/-- R166: the same for a Saw root, which has no envelope amplitude. -/
def Obligations.PlayOnSaw : Prop :=
  ∀ (s : State) (before after : List Synth) (u : SawUnit) (p : Pitch) (vel scale : U44),
    s.ReachesOnly before (.saw u) after →
    exec (.play p vel scale) s = .next (
      if vel = 0 then { s with roots := before ++ .saw { u with gain := 0 } :: after }
      else if 0 ≤ code p ∧ code p ≤ 127 then
        { s with roots := before ++ .saw { u with
            inc := pinc s.params.sampleRateHz (code p).toNat, phase := 0,
            gain := BitVec.ofNat 16 (vel.toNat * scale.toNat), cnt := 0 } :: after }
      else { s with status := s.status ||| 8, trace := s.trace ++ [.pitchRange] })

/-- R169: a Play that reaches a Sample root: a note-off stops playback and keeps the cursor, a note-on restarts it. -/
def Obligations.PlayOnSample : Prop :=
  ∀ (s : State) (before after : List Synth) (u : SampleUnit) (p : Pitch) (vel scale : U44),
    s.ReachesOnly before (.sample u) after →
    exec (.play p vel scale) s = .next
      { s with roots := before ++ .sample (
          if vel = 0 then { u with active := false }
          else { u with cursor := 0, active := true, gain := BitVec.ofNat 16 (vel.toNat * scale.toNat) }) :: after }

/-- R172, R264: a Play that reaches a Drum root plays the one voice whose parameter is the linear code, and any other
code, with a note-off too, changes nothing but the diagnostics. -/
def Obligations.PlayOnDrum : Prop :=
  ∀ (s : State) (before after : List Synth) (a : Addr) (kick snare hat : SampleUnit) (p : Pitch) (vel scale : U44),
    s.ReachesOnly before (.drum a kick snare hat) after →
    s.params.drumKickCode ≠ s.params.drumSnareCode → s.params.drumKickCode ≠ s.params.drumHatCode →
    s.params.drumSnareCode ≠ s.params.drumHatCode →
    ∃ t, exec (.play p vel scale) s = .next t ∧
      (code p = s.params.drumKickCode →
        t = { s with roots := before ++ .drum a (kick.play vel scale) snare hat :: after }) ∧
      (code p = s.params.drumSnareCode →
        t = { s with roots := before ++ .drum a kick (snare.play vel scale) hat :: after }) ∧
      (code p = s.params.drumHatCode →
        t = { s with roots := before ++ .drum a kick snare (hat.play vel scale) :: after }) ∧
      (code p ≠ s.params.drumKickCode → code p ≠ s.params.drumSnareCode → code p ≠ s.params.drumHatCode →
        t = { s with status := s.status ||| 4, trace := s.trace ++ [.drumUnmapped] })

/-- R162: a SetAttack that reaches a Sine root and no other sets its attack gain to `velocity × scale` and changes
nothing else. -/
def Obligations.SetAttackOnSine : Prop :=
  ∀ (s : State) (before after : List Synth) (u : SineUnit) (vel scale : U44),
    s.ReachesOnly before (.sine u) after →
    exec (.setAttack vel scale) s = .next
      { s with roots := before ++ .sine { u with attack := BitVec.ofNat 16 (vel.toNat * scale.toNat) } :: after }

/-- R163, R165: over `n` samples a Sine's phase advances by `n · (inc + bend)` modulo 2^32, a negative net increment
backwards; increment, bend, gain and attack gain stay. -/
def Obligations.SinePhaseAdvance : Prop :=
  ∀ (u : SineUnit) (n : Nat),
    let v := (fun x : SineUnit => x.next.2)^[n] u
    v.phase = u.phase + BitVec.ofNat 32 n * (u.inc + u.bend) ∧
    v.inc = u.inc ∧ v.bend = u.bend ∧ v.gain = u.gain ∧ v.attack = u.attack ∧ v.ratio = u.ratio ∧ v.every = u.every

/-- R163: the sample step of a block whose one root is a Sine, with nothing to pop: the whole next state. -/
def Obligations.SineSampleStep : Prop :=
  ∀ (s : State) (u : SineUnit) (rest : List Input),
    s.inputs = .event .sampleStep :: rest → s.fifo = [] → s.roots = [.sine u] →
    ∃ t v, step s = .next t ∧
      t = { s.taken rest with roots := [.sine v], lastSample := t.lastSample, sampleValid := true } ∧
      (∃ s1 s2 : Int,
        s1 = max (-32768) (min 32767 (sineLookup u.phase * (u.gain.toNat : Int) / 2 ^ 8)) ∧
        s2 = max (-32768) (min 32767 (s1 * (u.attack.toNat : Int) / 2 ^ 8)) ∧
        t.lastSample.toInt = s2 * (u.amp.toNat : Int) / 2 ^ 15) ∧
      v = { u with phase := u.phase + u.inc + u.bend, amp := v.amp, cnt := v.cnt } ∧
      (u.every = 0 → v.cnt = u.cnt ∧ v.amp = u.amp) ∧
      (u.every ≠ 0 → u.cnt.toNat + 1 < u.every.toNat → v.cnt.toNat = u.cnt.toNat + 1 ∧ v.amp = u.amp) ∧
      (u.every ≠ 0 → u.every.toNat ≤ u.cnt.toNat + 1 →
        v.cnt = 0 ∧ v.amp.toNat = u.amp.toNat * u.ratio.toNat / 2 ^ 15)

/-- R167: the sample step of a block whose one root is a Saw, with nothing to pop: the whole next state. -/
def Obligations.SawSampleStep : Prop :=
  ∀ (s : State) (u : SawUnit) (rest : List Input),
    s.inputs = .event .sampleStep :: rest → s.fifo = [] → s.roots = [.saw u] →
    ∃ t v, step s = .next t ∧
      t = { s.taken rest with roots := [.saw v], lastSample := t.lastSample, sampleValid := true } ∧
      t.lastSample.toInt = max (-32768) (min 32767 (u.phase.toInt / 2 ^ 16 * (u.gain.toNat : Int) / 2 ^ 8)) ∧
      v = { u with phase := u.phase + u.inc, gain := v.gain, cnt := v.cnt } ∧
      (u.every = 0 → v.cnt = u.cnt ∧ v.gain = u.gain) ∧
      (u.every ≠ 0 → u.cnt.toNat + 1 < u.every.toNat → v.cnt.toNat = u.cnt.toNat + 1 ∧ v.gain = u.gain) ∧
      (u.every ≠ 0 → u.every.toNat ≤ u.cnt.toNat + 1 →
        v.cnt = 0 ∧ v.gain.toNat = u.gain.toNat * u.ratio.toNat / 2 ^ 15)

/-- R142, R144, R146, R198: the sample step of a block whose one root is a synth under an effect, with nothing to pop: for
both decay envelopes the synth's output times the amplitude before the call, and the amplitude afterwards; for the filter
the floored mix of the synth's output and the held value, which it then holds. The synth advances once. -/
def Obligations.EffectSampleStep : Prop :=
  ∀ (s : State) (synth : Synth) (rest : List Input), s.inputs = .event .sampleStep :: rest → s.fifo = [] →
    (∀ e : LinDecayUnit, s.roots = [.withEffect synth (.linDecay e)] →
      ∃ t f, step s = .next t ∧
        t = { s.taken rest with
          roots := [.withEffect synth.next.2 (.linDecay f)], lastSample := t.lastSample, sampleValid := true } ∧
        t.lastSample.toInt = synth.next.1 * (e.amp.toNat : Int) / 2 ^ 15 ∧
        f = { e with amp := f.amp, cnt := f.cnt } ∧
        (e.every = 0 → f = e) ∧
        (e.every ≠ 0 → e.cnt.toNat + 1 < e.every.toNat → f.cnt.toNat = e.cnt.toNat + 1 ∧ f.amp = e.amp) ∧
        (e.every ≠ 0 → e.every.toNat ≤ e.cnt.toNat + 1 →
          f.cnt = 0 ∧ (f.amp.toNat : Int) = max 0 ((e.amp.toNat : Int) - (e.step.toNat : Int)))) ∧
    (∀ e : ExpDecayUnit, s.roots = [.withEffect synth (.expDecay e)] →
      ∃ t f, step s = .next t ∧
        t = { s.taken rest with
          roots := [.withEffect synth.next.2 (.expDecay f)], lastSample := t.lastSample, sampleValid := true } ∧
        t.lastSample.toInt = synth.next.1 * (e.amp.toNat : Int) / 2 ^ 15 ∧
        f = { e with amp := f.amp, cnt := f.cnt } ∧
        (e.every = 0 → f = e) ∧
        (e.every ≠ 0 → e.cnt.toNat + 1 < e.every.toNat → f.cnt.toNat = e.cnt.toNat + 1 ∧ f.amp = e.amp) ∧
        (e.every ≠ 0 → e.every.toNat ≤ e.cnt.toNat + 1 →
          f.cnt = 0 ∧ f.amp.toNat = e.amp.toNat * e.ratio.toNat / 2 ^ 15)) ∧
    (∀ e : LpfUnit, s.roots = [.withEffect synth (.lpf e)] →
      ∃ t f, step s = .next t ∧
        t = { s.taken rest with
          roots := [.withEffect synth.next.2 (.lpf f)], lastSample := t.lastSample, sampleValid := true } ∧
        t.lastSample.toInt =
          ((e.alpha.toNat : Int) * synth.next.1 + (32768 - (e.alpha.toNat : Int)) * e.y.toInt) / 2 ^ 15 ∧
        f = { e with y := t.lastSample })

/-- R169, R170: after a note-on a Sample unit plays each entry of its buffer once, scaled by its gain and saturated, and
is then silent and inactive with the cursor at the end. -/
def Obligations.SamplePlaysItsBuffer : Prop :=
  ∀ (u : SampleUnit) (vel scale : U44), vel ≠ 0 → u.rom.length ≤ 2 ^ 20 →
    let after := fun n => (fun x : SampleUnit => x.next.2)^[n] (u.play vel scale)
    (∀ (n : Nat) (h : n < u.rom.length),
      (after n).next.1 =
        max (-32768) (min 32767 (u.rom[n].toInt * ((vel.toNat * scale.toNat : Nat) : Int) / 2 ^ 8))) ∧
    (∀ n, u.rom.length ≤ n → (after n).next.1 = 0) ∧
    (∀ n, u.rom.length < n → (after n).active = false ∧ (after n).cursor.toNat = u.rom.length)

/-! ## Effects (42_effects.md) -/

/-- R147: an interval of 0 never decays and keeps the counter; otherwise each call counts up, and a decay is due, and
the counter cleared, when the count reaches the interval or already stands above it. So after a note-on (`cnt = 0`) no
decay is due before the `every`-th call, and one is due on it. -/
def Obligations.DecayDueOnTheEveryThCall : Prop :=
  (∀ cnt : U16, decayDue 0 cnt = (false, cnt)) ∧
  (∀ every cnt : U16, every ≠ 0 → cnt.toNat + 1 < every.toNat →
    (decayDue every cnt).1 = false ∧ (decayDue every cnt).2.toNat = cnt.toNat + 1) ∧
  (∀ every cnt : U16, every ≠ 0 → every.toNat ≤ cnt.toNat + 1 → decayDue every cnt = (true, 0)) ∧
  ∀ every : U16, every ≠ 0 →
    (∀ n, n < every.toNat → ((fun c : U16 => (decayDue every c).2)^[n] 0).toNat = n) ∧
    (∀ n, n + 1 < every.toNat → (decayDue every (BitVec.ofNat 16 n)).1 = false) ∧
    decayDue every (BitVec.ofNat 16 (every.toNat - 1)) = (true, 0)

/-- R150: the amplitude of a LinDecay or ExpDecay never rises, so its output for a constant input never grows in
magnitude, and with `every` not 0 (and for LinDecay `step` not 0) it reaches 0 after finitely many calls and stays
there, whatever the inputs. It holds from every state, so after a note-on too. -/
def Obligations.EnvelopesFallToZero : Prop :=
  (∀ (u : LinDecayUnit) (x : Int), (u.next x).2.amp.toNat ≤ u.amp.toNat ∧
    |((u.next x).2.next x).1| ≤ |(u.next x).1|) ∧
  (∀ u : LinDecayUnit, u.every ≠ 0 → u.step ≠ 0 →
    ∃ n, ∀ xs : List Int, n ≤ xs.length → (xs.foldl (fun v x => (LinDecayUnit.next x v).2) u).amp = 0) ∧
  (∀ (u : ExpDecayUnit) (x : Int), (u.next x).2.amp.toNat ≤ u.amp.toNat ∧
    |((u.next x).2.next x).1| ≤ |(u.next x).1|) ∧
  (∀ u : ExpDecayUnit, u.every ≠ 0 →
    ∃ n, ∀ xs : List Int, n ≤ xs.length → (xs.foldl (fun v x => (ExpDecayUnit.next x v).2) u).amp = 0)

/-- R146: for a Q1.15 input the filter's output and its stored `y` are the exact floored convex combination, which needs
no saturation, and nothing else changes. -/
def Obligations.LowPassIsExact : Prop :=
  ∀ (u : LpfUnit) (x : Int), -32768 ≤ x → x ≤ 32767 →
    (u.next x).1 = (u.alpha.toNat * x + (32768 - u.alpha.toNat) * u.y.toInt) / 2 ^ 15 ∧
    -32768 ≤ (u.next x).1 ∧ (u.next x).1 ≤ 32767 ∧
    (u.next x).2.y.toInt = (u.next x).1 ∧ (u.next x).2.alpha = u.alpha ∧ (u.next x).2.addr = u.addr

/-! ## Allocator, composition, mixer (44_poly_and_mix.md) -/

/-- R190, R191: a Play that reaches a Poly root and no other goes to the chosen voice, whose slot then holds the pitch
(or is free after a note-off); no other voice or slot changes. What a voice does when it is played is what it does as a
root that the address reaches (R127), but for a WithEffect (R196, R197). -/
def Obligations.PolyPlaysTheChosenVoice : Prop :=
  (∀ (s : State) (before after : List Synth) (a : Addr) (voices : Voices) (p : Pitch) (vel scale : U44)
    (k : Nat) (slot : Option Pitch) (voice : Synth),
    s.ReachesOnly before (.poly a voices) after → ChosenVoice voices.slots p k →
    voices.toList[k]? = some (slot, voice) →
    ∃ voices' : Voices,
      exec (.play p vel scale) s = .next
        { s with roots := before ++ .poly a voices' :: after,
                 status := statusAfter s.status (voice.play s.params p vel scale).2,
                 trace := s.trace ++ (voice.play s.params p vel scale).2 } ∧
      voices'.toList = voices.toList.set k
        (if vel = 0 then none else some p, (voice.play s.params p vel scale).1)) ∧
  ∀ (s : State) (before after : List Synth) (voice : Synth) (p : Pitch) (vel scale : U44),
    s.ReachesOnly before voice after → (∀ synth effect, voice ≠ .withEffect synth effect) →
    exec (.play p vel scale) s = .next
      { s with roots := before ++ (voice.play s.params p vel scale).1 :: after,
               status := statusAfter s.status (voice.play s.params p vel scale).2,
               trace := s.trace ++ (voice.play s.params p vel scale).2 }

/-- R190, R263: a Play whose pitch no slot holds, on a Poly with no empty slot, is dropped: no voice and no slot changes,
and VOICE_DROP is reported. -/
def Obligations.PolyDropsWhenFull : Prop :=
  ∀ (s : State) (before after : List Synth) (a : Addr) (voices : Voices) (p : Pitch) (vel scale : U44),
    s.ReachesOnly before (.poly a voices) after → some p ∉ voices.slots → none ∉ voices.slots →
    exec (.play p vel scale) s = .next { s with status := s.status ||| 2, trace := s.trace ++ [.voiceDrop] }

/-- R193: a SetAttack that reaches a Poly root and no other is received by every voice, whatever its slot holds; the
slots do not change. -/
def Obligations.PolyAttackReachesEveryVoice : Prop :=
  ∀ (s : State) (before after : List Synth) (a : Addr) (voices : Voices) (vel scale : U44),
    s.ReachesOnly before (.poly a voices) after →
    ∃ voices' : Voices,
      exec (.setAttack vel scale) s = .next { s with roots := before ++ .poly a voices' :: after } ∧
      voices'.toList = voices.toList.map (fun e => (e.1, e.2.attack vel scale))

/-- R39, R192: an allocator's output is the sum of its voices' outputs, each shifted right by SHIFT = ceil(log2 P); the sum
lies in the sample range, so its saturation never clamps, for every legal number of voices (10_state.md R32). Every voice
advances exactly once, in place, and the slots stay. SHIFT for P = 1..16 is 0, 1, 2, 2, 3, 3, 3, 3, 4, and 4 from there
on. -/
def Obligations.PolySumNeverClamps : Prop :=
  (∀ (a : Addr) (voices : Voices), 1 ≤ voices.count → voices.count ≤ 16 →
    (Synth.poly a voices).next.1 = (voices.toList.map (fun e => e.2.next.1 / 2 ^ shiftFor voices.count)).sum ∧
    -32768 ≤ (Synth.poly a voices).next.1 ∧ (Synth.poly a voices).next.1 ≤ 32767) ∧
  (∀ (a : Addr) (voices : Voices), ∃ voices' : Voices,
    (Synth.poly a voices).next.2 = .poly a voices' ∧
    voices'.toList = voices.toList.map (fun e => (e.1, e.2.next.2))) ∧
  ((List.range 16).map (fun k => shiftFor (k + 1)) = [0, 1, 2, 2, 3, 3, 3, 3, 4, 4, 4, 4, 4, 4, 4, 4]) ∧
  ∀ p, 1 ≤ p → p ≤ 2 ^ shiftFor p ∧ ∀ n, p ≤ 2 ^ n → shiftFor p ≤ n

/-- R197, R126, R141, R143, R149, R196: a beat for a WithEffect root reaches each child by the child's own address. Over
any synth and effect, the synth does what it does as a root of its own, and a Play with a velocity that reaches the
effect's address restarts a LinDecay or an ExpDecay and leaves an LPF alone; SetAttack reaches only the synth. Over a Sine
the values are given. Where an allocator plays a WithEffect voice no address is tested: the synth is played and the
effect restarted. -/
def Obligations.WithEffectRoutesByOwnAddress : Prop :=
  let restarted := fun (vel : U44) (e : Effect) =>
    if vel = 0 then e
    else
      match e with
      | .linDecay u => .linDecay { u with amp := 0x7FFF, cnt := 0 }
      | .expDecay u => .expDecay { u with amp := 0x7FFF, cnt := 0 }
      | .lpf u => .lpf u
  (∀ (s : State) (before after : List Synth) (synth : Synth) (effect : Effect) (p : Pitch) (vel scale : U44),
    s.ReachesOnly before (.withEffect synth effect) after →
    ∃ synth' codes,
      exec (.play p vel scale) { s with roots := [synth] } = .next
        { s with roots := [synth'], status := statusAfter s.status codes, trace := s.trace ++ codes } ∧
      exec (.play p vel scale) s = .next
        { s with
          roots := before ++ .withEffect synth' (if s.beatAddr &&& effect.addr = 0 then effect else restarted vel effect)
            :: after,
          status := statusAfter s.status codes, trace := s.trace ++ codes }) ∧
  (∀ (s : State) (before after : List Synth) (synth : Synth) (effect : Effect) (vel scale : U44),
    s.ReachesOnly before (.withEffect synth effect) after →
    ∃ synth',
      exec (.setAttack vel scale) { s with roots := [synth] } = .next { s with roots := [synth'] } ∧
      exec (.setAttack vel scale) s = .next { s with roots := before ++ .withEffect synth' effect :: after }) ∧
  (∀ (s : State) (before after : List Synth) (u : SineUnit) (effect : Effect) (p : Pitch) (vel scale : U44),
    s.ReachesOnly before (.withEffect (.sine u) effect) after →
    let reach := fun a : Addr => decide (s.beatAddr &&& a ≠ 0)
    let played := if reach u.addr then u.play s.params.sampleRateHz p vel scale else (u, [])
    let attacked := if reach u.addr then { u with attack := BitVec.ofNat 16 (vel.toNat * scale.toNat) } else u
    exec (.play p vel scale) s = .next
      { s with roots := before ++ .withEffect (.sine played.1)
                 (if reach effect.addr then restarted vel effect else effect) :: after,
               status := statusAfter s.status played.2, trace := s.trace ++ played.2 } ∧
    exec (.setAttack vel scale) s = .next
      { s with roots := before ++ .withEffect (.sine attacked) effect :: after }) ∧
  ∀ (s : State) (before after : List Synth) (a : Addr) (voices : Voices) (p : Pitch) (vel scale : U44)
    (k : Nat) (slot : Option Pitch) (synth : Synth) (effect : Effect),
    s.ReachesOnly before (.poly a voices) after → ChosenVoice voices.slots p k →
    voices.toList[k]? = some (slot, .withEffect synth effect) →
    ∃ voices' : Voices,
      exec (.play p vel scale) s = .next
        { s with roots := before ++ .poly a voices' :: after,
                 status := statusAfter s.status (synth.play s.params p vel scale).2,
                 trace := s.trace ++ (synth.play s.params p vel scale).2 } ∧
      voices'.toList = voices.toList.set k
        (if vel = 0 then none else some p,
          .withEffect (synth.play s.params p vel scale).1 (restarted vel effect))

/-- R9, R200: every unit's output is a Q1.15 sample, so the value that a sample step with nothing to pop drives is the
exact sum of the roots' outputs saturated once, and every root has advanced exactly once, in place. R170, R173: what a
Sample adds and how it advances, and that a Drum adds the exact sum of its three voices, saturated once, each advancing
once. -/
def Obligations.SampleStepMixesEveryRoot : Prop :=
  (∀ (s : State) (rest : List Input), s.inputs = .event .sampleStep :: rest → s.fifo = [] →
    ∃ t, step s = .next t ∧
      t = { s.taken rest with roots := s.roots.map (fun r => r.next.2), lastSample := t.lastSample, sampleValid := true } ∧
      t.lastSample.toInt = max (-32768) (min 32767 (s.roots.map (fun r => r.next.1)).sum) ∧
      ∀ r ∈ s.roots, -32768 ≤ r.next.1 ∧ r.next.1 ≤ 32767) ∧
  let out := fun u : SampleUnit =>
    if u.active = false then 0
    else
      match u.rom[u.cursor.toNat]? with
      | some x => max (-32768) (min 32767 (x.toInt * (u.gain.toNat : Int) / 2 ^ 8))
      | none => 0
  let advanced := fun u : SampleUnit =>
    if u.active = false then u
    else if u.cursor.toNat < u.rom.length then { u with cursor := u.cursor + 1 }
    else { u with active := false }
  (∀ u : SampleUnit, (Synth.sample u).next = (out u, .sample (advanced u))) ∧
  ∀ (a : Addr) (kick snare hat : SampleUnit),
    (Synth.drum a kick snare hat).next =
      (max (-32768) (min 32767 (out kick + out snare + out hat)),
        .drum a (advanced kick) (advanced snare) (advanced hat))

/-! ## Frames of the commands (41_command.md) -/

/-- R125: a command whose address reaches no root changes nothing at all, and is not reported. -/
def Obligations.UnmatchedAddressChangesNothing : Prop :=
  ∀ (i : Instr) (s : State), (∀ r : Synth, r ∈ s.roots → s.beatAddr &&& r.addr = 0) → exec i s = .next s

/-- The frame of PLAY and SETATTACK, and their completion from every state: every field but the tree, STATUS and the
trace is unchanged. R201, R261, R267: each root becomes what it becomes when it is the one root of the block, whichever
others the address reaches too; the codes are those of the roots, in root order, at most one a root, and STATUS bits are
only set; a root that the address does not reach is unchanged and reports nothing. -/
def Obligations.CommandFrame : Prop :=
  ∀ (i : Instr) (s : State),
    ∃ (becomes : Synth → Synth) (codes : Synth → List Diag),
      exec i s = .next
        { s with roots := s.roots.map becomes, status := statusAfter s.status (s.roots.flatMap codes),
                 trace := s.trace ++ s.roots.flatMap codes } ∧
      statusAfter s.status (s.roots.flatMap codes) &&& s.status = s.status ∧
      ∀ r ∈ s.roots,
        exec i { s with roots := [r] } = .next
          { s with roots := [becomes r], status := statusAfter s.status (codes r), trace := s.trace ++ codes r } ∧
        (codes r).length ≤ 1 ∧
        (s.beatAddr &&& r.addr = 0 → becomes r = r ∧ codes r = [])

/-- The frame of PLAY within the tree: no unit's address, sample buffer, settings, bend, attack gain or number of slots
changes, and an LPF does not change at all: only the fields that the `play` rules write may differ. -/
def Obligations.PlayKeepsSettings : Prop :=
  ∀ (p : Pitch) (vel scale : U44) (s : State),
    ∃ t, exec (.play p vel scale) s = .next t ∧ t.units.map UnitView.unplayed = s.units.map UnitView.unplayed

/-- The frame of SETATTACK within the tree: no unit changes in anything but a Sine's attack gain, which becomes
`velocity × scale` or stays. -/
def Obligations.SetAttackKeepsAllElse : Prop :=
  ∀ (vel scale : U44) (s : State),
    ∃ t, exec (.setAttack vel scale) s = .next t ∧ t.status = s.status ∧ t.trace = s.trace ∧
      List.Forall₂ (UnitView.SameButAttack (BitVec.ofNat 16 (vel.toNat * scale.toNat))) s.units t.units

/-! ## Sequencer (45_sequencer.md) -/

/-- R212, R213, R214: a SEQ_CMD write acts by its two low bits: play and count-off only from STOPPED, stop from every
mode; the buffer, the pattern and the rest of the block are untouched, and op 0 does nothing. -/
def Obligations.SequencerControl : Prop :=
  ∀ (s : State) (d : Word) (rest : List Input), s.inputs = .event (.regWrite 0x000 d) :: rest →
    step s = .next { s.taken rest with
      seq :=
        if d.extractLsb' 0 2 = 1 ∧ s.seq.mode = .stopped then { s.seq with mode := .playing, measure := 0, idx := 0 }
        else if d.extractLsb' 0 2 = 2 ∧ s.seq.mode = .stopped then
          { s.seq with mode := .countoffSlow, measure := 0, idx := 0 }
        else if d.extractLsb' 0 2 = 3 then { s.seq with mode := .stopped, measure := 0, idx := 0 }
        else s.seq }

/-- R210, R219: what a tick that finds the buffer empty does to the position, in each mode, with and without the wrap;
pattern, meter and cymbal flag stay, and nothing outside the sequencer changes. -/
def Obligations.TickAdvancesPosition : Prop :=
  ∀ (s : State) (rest : List Input), s.inputs = .event .seqTick :: rest → s.seq.seqbuf = [] → s.seq.mode ≠ .stopped →
    ∃ t q, step s = .next t ∧ t = { s.taken rest with seq := q } ∧
      q = { s.seq with mode := q.mode, measure := q.measure, idx := q.idx, seqbuf := q.seqbuf } ∧
      (s.seq.idx.toNat + 1 < (if s.seq.meter = .fourFour then 16 else 12) →
        q.idx.toNat = s.seq.idx.toNat + 1 ∧ q.mode = s.seq.mode ∧ q.measure = s.seq.measure) ∧
      ((if s.seq.meter = .fourFour then 16 else 12) ≤ s.seq.idx.toNat + 1 →
        q.idx = 0 ∧
        (s.seq.mode = .countoffSlow → q.mode = .countoffFast ∧ q.measure = s.seq.measure) ∧
        (s.seq.mode = .countoffFast → q.mode = .playing ∧ q.measure = 0) ∧
        (s.seq.mode = .playing → q.mode = .playing ∧ q.measure.toNat = (s.seq.measure.toNat + 1) % 4))

/-- R216, R217, R218, R220: the beats that a tick which finds the buffer empty puts into it, in each mode, each a
serialized Play at `SEQ_ADDR`. -/
def Obligations.TickEmitsBeats : Prop :=
  ∀ (s t : State) (rest : List Input), s.inputs = .event .seqTick :: rest → s.seq.seqbuf = [] → step s = .next t →
    let beat := fun (p : Pitch) (v : U44) => (⟨s.params.seqAddr, encode (.play p v s.params.seqScale)⟩ : Beat)
    let accent := beat s.params.seqAccentPitch s.params.seqAccentVel
    (s.seq.mode = .countoffSlow →
      t.seq.seqbuf =
        if s.seq.idx = 0 ∨ (s.seq.meter = .fourFour ∧ s.seq.idx = 8) ∨ (s.seq.meter = .twelveEight ∧ s.seq.idx = 6)
        then [accent] else []) ∧
    (s.seq.mode = .countoffFast →
      t.seq.seqbuf = if s.seq.idx = 0 ∨ s.seq.idx = 4 ∨ s.seq.idx = 8 ∨ s.seq.idx = 12 then [accent] else []) ∧
    (s.seq.mode = .playing →
      t.seq.seqbuf =
        (if s.seq.cymbal4 ∧ s.seq.measure = 0 ∧ s.seq.idx = 0 then
          [beat s.params.seqCymbalPitch s.params.seqCymbalVel] else [])
        ++ (if s.seq.active.hatMask.getLsbD s.seq.idx.toNat then
          [beat s.params.seqHatPitch s.seq.active.hatVel] else [])
        ++ (if s.seq.active.snareMask.getLsbD s.seq.idx.toNat then
          [beat s.params.seqSnarePitch s.seq.active.snareVel] else [])
        ++ (if s.seq.active.kickMask.getLsbD s.seq.idx.toNat then
          [beat s.params.seqKickPitch s.seq.active.kickVel] else []))

/-- R225: a tick in STOPPED with an empty buffer changes nothing. -/
def Obligations.StoppedTickChangesNothing : Prop :=
  ∀ (s : State) (rest : List Input), s.inputs = .event .seqTick :: rest → s.seq.mode = .stopped → s.seq.seqbuf = [] →
    step s = .next (s.taken rest)

/-- R224, R266: a tick that finds beats waiting is lost whole: no beat, no advance, only SEQ_OVERRUN. -/
def Obligations.OverrunLosesTheTick : Prop :=
  ∀ (s : State) (rest : List Input), s.inputs = .event .seqTick :: rest → s.seq.seqbuf ≠ [] →
    step s = .next { s.taken rest with status := s.status ||| 16, trace := s.trace ++ [.seqOverrun] }

/-- R226: the laws of the sequencer when every tick's beats are delivered before the next tick: the measure wraps after
16 or 12 ticks; with `cymbal4` the cymbal comes on the first of 64 ticks in 4/4 and on no other; a tick emits at most 4
beats; a count-off lasts exactly two measures, with 2 accents in the slow one and a quarter of N in the fast one. -/
def Obligations.SequencerLaws : Prop :=
  ∀ (cfg : Params) (q : Sequencer), q.seqbuf = [] →
    (q.mode = .playing → q.idx = 0 →
      (Sequencer.drainedTick cfg)^[if q.meter = .fourFour then 16 else 12] q = { q with measure := q.measure + 1 }) ∧
    (q.mode = .playing → q.idx = 0 → q.measure = 0 → q.meter = .fourFour → q.cymbal4 = true →
      ∀ k < 64, tickBeats cfg q k =
        (if k = 0 then [(⟨cfg.seqAddr, encode (.play cfg.seqCymbalPitch cfg.seqCymbalVel cfg.seqScale)⟩ : Beat)] else [])
          ++ tickBeats cfg { q with cymbal4 := false } k) ∧
    (∀ k, (tickBeats cfg q k).length ≤ 4) ∧
    (q.mode = .countoffSlow → q.idx = 0 → q.measure = 0 →
      let n := if q.meter = .fourFour then 16 else 12
      (Sequencer.drainedTick cfg)^[2 * n] q = { q with mode := .playing } ∧
      (∀ k < 2 * n, ((Sequencer.drainedTick cfg)^[k] q).mode ≠ .playing) ∧
      (((List.range n).map (fun k => (tickBeats cfg q k).length)).sum = 2) ∧
      (((List.range n).map (fun k => (tickBeats cfg q (n + k)).length)).sum = n / 4))

/-- R222: any write to PAT_COMMIT copies the whole shadow pattern into the active one in one event and changes nothing
else; writes to the pattern registers leave the active pattern alone. -/
def Obligations.CommitCopiesTheShadow : Prop :=
  (∀ (s : State) (d : Word) (rest : List Input), s.inputs = .event (.regWrite 0x005 d) :: rest →
    step s = .next { s.taken rest with seq := { s.seq with active := s.seq.shadow } }) ∧
  (∀ (s t : State) (i : RegIndex) (d : Word) (rest : List Input), s.inputs = .event (.regWrite i d) :: rest →
    (i = 0x002 ∨ i = 0x003 ∨ i = 0x004) → step s = .next t →
    t = { s.taken rest with seq := { s.seq with shadow := t.seq.shadow } })

/-! ## Channel and host (20_memory.md, 46_engine_step.md) -/

/-- R223: an enabled SeqPush moves the head of `seqbuf` to the tail of the channel and changes nothing else. -/
def Obligations.SeqPushMovesTheHead : Prop :=
  ∀ (s : State) (b : Beat) (beats : List Beat) (rest : List Input), s.inputs = .event .seqPush :: rest →
    s.seq.seqbuf = b :: beats → s.fifo.length < s.params.fifoDepth →
    step s = .next { s.taken rest with fifo := s.fifo ++ [b], seq := { s.seq with seqbuf := beats } }

/-- R242, R243: a host's beat, with an address of `ADDR_W` bits, is appended to the channel exactly when `cmd_ready` is
high, that is when the channel has room and no sequencer beat waits; otherwise the block does not change (assumption 5,
read from the spec by inference). -/
def Obligations.HostPushWaitsForReady : Prop :=
  ∀ (s : State) (a : Addr) (w : Word) (rest : List Input), s.inputs = .event (.hostPush a w) :: rest →
    (ports false s).cmdReady = (decide (s.fifo.length < s.params.fifoDepth) && decide (s.seq.seqbuf = [])) ∧
    (a.toNat < 2 ^ s.params.addrW →
      step s = .next (if (ports false s).cmdReady then { s.taken rest with fifo := s.fifo ++ [⟨a, w⟩] }
        else s.taken rest))

/-- R79, R84, R240: whatever the next entry of the schedule is, but a reset, what it takes from the channel is at most
its head, and only in a sample step that finds a beat; what it adds goes to the tail. -/
def Obligations.ChannelKeepsOrder : Prop :=
  ∀ (s t : State) (i : Input) (rest : List Input), s.inputs = i :: rest → i.resets = false → step s = .next t →
    ∃ added : List Beat,
      t.fifo = (if i.samples then s.fifo.drop 1 else s.fifo) ++ added ∧ added.length ≤ 1

/-- R248: a beat with `k` beats ahead of it is at the head of the channel after `k` sample steps: nothing overtakes it. -/
def Obligations.LatencyInSampleSteps : Prop :=
  ∀ (k : Nat) (s : State) (b : Beat) (rest : List Input),
    s.inputs = List.replicate k (.event .sampleStep) ++ rest → s.fifo[k]? = some b →
    ∃ t, Sys2Proof.core.run k s = .next t ∧ t.inputs = rest ∧ t.fifo.head? = some b ∧ t.fifo = s.fifo.drop k

/-! ## The sample step as fetch and execute (46_engine_step.md R241) -/

/-- A step runs the decoded command: a sample step that finds a beat whose word decodes to `i` is `exec i` on the state
in which the beat has left the channel and its address is on the router, and then the mix; the other outcomes of `exec`
are the step's. -/
def Obligations.StepRunsDecodedCommand : Prop :=
  ∀ (s : State) (b : Beat) (beats : List Beat) (rest : List Input) (i : Instr),
    s.inputs = .event .sampleStep :: rest → s.fifo = b :: beats → deserialize b.word = some i →
    let s0 := { s with inputs := rest, fifo := beats, beatAddr := b.addr, sampleValid := false, regResp := none,
                       diagOut := none }
    (∀ t, exec i s0 = .next t → step s = .next { t with
      beatAddr := 0, roots := (mix t.roots).2, lastSample := toQ15 (mix t.roots).1, sampleValid := true }) ∧
    (∀ f, exec i s0 = .fault f → step s = .fault f) ∧ (∀ r, exec i s0 = .refused r → step s = .refused r)

/-- R262, R241: a word that decodes to no command is consumed and reported, reaches no unit, and the sample of the same
step is still computed. The clause on `beatAddr`, 0 between steps, is the model's choice (assumption 4). -/
def Obligations.MalformedWordIsConsumed : Prop :=
  ∀ (s : State) (b : Beat) (beats : List Beat) (rest : List Input),
    s.inputs = .event .sampleStep :: rest → s.fifo = b :: beats → deserialize b.word = none →
    step s = .next { s.taken rest with
      fifo := beats, beatAddr := 0, status := s.status ||| 1, trace := s.trace ++ [.malformed],
      roots := (mix s.roots).2, lastSample := toQ15 (mix s.roots).1, sampleValid := true }

/-- R246: a clock cycle with `rst` low is its events in the listed order, after a diagnostic that it presents, the pushes
enabled by the state at its start: an accepted push always has room when its turn comes. R261: whatever the entry, but a
reset, what it presents on `diag_valid` and `diag_code` is the oldest waiting code, one a pulse, in trace order, and new
codes wait behind. That a cycle's presentation comes first and has its own flag is the model's choice (assumption 7), and
so are the premise and the clause on `busy` (assumption 8). -/
def Obligations.CycleIsItsEventSequence : Prop :=
  (∀ (s : State) (c : CycleIn) (rest : List Input), s.inputs = .cycle c :: rest → c.rst = false →
    (c.sampleTick = true → s.busy = 0) →
    ∃ t, State.events (cycleEvents c (s.taken rest)) (s.taken rest) = .next t ∧
      step s = .next { t with busy := if c.sampleTick then s.params.stepCycles - 1 else s.busy - 1 }) ∧
  ∀ (s t : State) (i : Input) (rest : List Input), s.inputs = i :: rest → i.resets = false → step s = .next t →
    (ports false t).diagOut = some (if i.presents then s.trace.head? else none) ∧
    ∃ added : List Diag, t.trace = (if i.presents then s.trace.drop 1 else s.trace) ++ added

/-- R247, R269: the block stops on one thing only, a `sample_tick` while a step is in progress, which is outside the
spec; it refuses nothing. -/
def Obligations.OnlyAMissedDeadlineStops : Prop :=
  ∀ s : State,
    (¬ s.deadlineMissed ↔ ∃ t, step s = .next t) ∧
    (s.deadlineMissed ↔ step s = .fault .sampleTickDuringStep) ∧
    (∀ r, step s ≠ .refused r)

/-! ## Register port (10_state.md R46 to R52) -/

/-- R47: a write to STATUS clears the bits written as 1, leaves the others, and changes nothing else. -/
def Obligations.StatusWriteOneToClear : Prop :=
  ∀ (s : State) (d : Word) (rest : List Input), s.inputs = .event (.regWrite 0x006 d) :: rest →
    ∃ t, step s = .next t ∧ t = { s.taken rest with status := t.status } ∧
      ∀ b < 5, t.status.getLsbD b = (s.status.getLsbD b && !d.getLsbD b)

/-- A sticky bit stays until it is cleared: no step lowers a STATUS bit but a reset or a write of 1 to it. R260, R261:
diagnostic `k` sets bit `k − 1` and no other, and the five codes are 1 to 5. -/
def Obligations.StickyBitsStay : Prop :=
  (∀ (s t : State) (b : Nat), step s = .next t → s.status.getLsbD b = true → t.status.getLsbD b = false →
    ∃ i rest, s.inputs = i :: rest ∧ (i.resets = true ∨ ∃ d, i.writes = some (0x006, d) ∧ d.getLsbD b = true)) ∧
  (∀ (st : BitVec 5) (ks : List Diag) (b : Nat),
    (statusAfter st ks).getLsbD b = (st.getLsbD b || ks.any (fun k => decide (k.code.toNat = b + 1)))) ∧
  [Diag.malformed, .voiceDrop, .drumUnmapped, .pitchRange, .seqOverrun].map Diag.code = [1, 2, 3, 4, 5]

/-- R50: a UNIT_CFG write replaces the settings record of that one unit, by its kind, and changes no run-time state and
no other unit; the register then reads the record back with the unused bits 0. -/
def Obligations.UnitCfgWriteReplacesTheRecord : Prop :=
  ∀ (s : State) (u : Nat) (d : Word) (rest : List Input), u < s.numUnits → u < 256 →
    s.inputs = .event (.regWrite (BitVec.ofNat 12 (0x100 + u)) d) :: rest →
    ∃ t, step s = .next t ∧ t = { s.taken rest with roots := t.roots } ∧
      t.units = s.units.modify u (UnitView.configured d) ∧
      ∀ v, s.units[u]? = some v →
        t.regValue (BitVec.ofNat 12 (0x100 + u)) =
          match v with
          | .sine _ | .saw _ | .expDecay _ | .linDecay _ => d &&& 0xFFFF7FFF#32
          | .lpf _ => d &&& 0x00007FFF#32
          | .sample _ | .drum _ | .poly _ _ | .withEffect => 0

/-- R51: a BEND write changes the bend of that one unit if it is a Sine and nothing otherwise; the register reads the
value back for a Sine and 0 for any other kind. -/
def Obligations.BendWriteReachesOnlySines : Prop :=
  ∀ (s : State) (u : Nat) (d : Word) (rest : List Input), u < s.numUnits → u < 256 →
    s.inputs = .event (.regWrite (BitVec.ofNat 12 (0x200 + u)) d) :: rest →
    ∃ t, step s = .next t ∧ t = { s.taken rest with roots := t.roots } ∧
      t.units = s.units.modify u (UnitView.bent d) ∧
      ∀ v, s.units[u]? = some v →
        t.regValue (BitVec.ofNat 12 (0x200 + u)) = match v with | .sine _ => d | _ => 0

/-- R52: an index that the map does not list reads 0 and its write changes nothing, UNIT_CFG and BEND of a unit that
does not exist included. -/
def Obligations.UnmappedIndexIsInert : Prop :=
  ∀ (s : State) (i : RegIndex) (d : Word), 8 < i.toNat →
    ¬ (0x100 ≤ i.toNat ∧ i.toNat < 0x200 ∧ i.toNat - 0x100 < s.numUnits) →
    ¬ (0x200 ≤ i.toNat ∧ i.toNat < 0x300 ∧ i.toNat - 0x200 < s.numUnits) →
    s.regValue i = 0 ∧
    ∀ rest, s.inputs = .event (.regWrite i d) :: rest → step s = .next (s.taken rest)

/-- R46, R77, R245: a register read answers the register's value and changes nothing else. SEQ_CFG and the pattern
registers read back what was written, the ignored bits 0; SEQ_CMD and PAT_COMMIT read 0; STATUS reads
its five bits, the others 0; writes to SEQ_POS and
FIFO_LEVEL are ignored. -/
def Obligations.RegistersReadBack : Prop :=
  (∀ (s : State) (i : RegIndex) (rest : List Input), s.inputs = .event (.regRead i) :: rest →
    step s = .next { s.taken rest with regResp := some (s.regValue i) }) ∧
  ∀ (s : State) (d : Word),
    (s.regWrite 0x001 d).regValue 0x001 = d &&& 0x3#32 ∧
    (s.regWrite 0x002 d).regValue 0x002 = d ∧
    (s.regWrite 0x003 d).regValue 0x003 = d &&& 0xFFFF#32 ∧
    (s.regWrite 0x004 d).regValue 0x004 = d &&& 0xFFFFFF#32 ∧
    s.regValue 0x006 = s.status.setWidth 32 ∧
    s.regValue 0x000 = 0 ∧ s.regValue 0x005 = 0 ∧
    s.regWrite 0x007 d = s ∧ s.regWrite 0x008 d = s

/-- R48, R221: the fields of SEQ_POS, with the reported subdivision 0 in STOPPED, rounded down to its beat in a count-off
and exact in PLAYING; a write is ignored. -/
def Obligations.SeqPosFields : Prop :=
  ∀ s : State,
    let r := s.regValue 0x007
    (r.extractLsb' 0 2).toNat =
      (match s.seq.mode with | .stopped => 0 | .countoffSlow => 1 | .countoffFast => 2 | .playing => 3) ∧
    r.extractLsb' 2 2 = s.seq.measure ∧
    (r.extractLsb' 4 4).toNat =
      (match s.seq.mode with
        | .stopped => 0 | .countoffSlow | .countoffFast => s.seq.idx.toNat / 4 * 4 | .playing => s.seq.idx.toNat) ∧
    r.extractLsb' 8 4 = s.seq.idx ∧ r.extractLsb' 12 20 = 0 ∧ ∀ d, s.regWrite 0x007 d = s

/-- R46, R245: in every state that meets the invariant FIFO_LEVEL holds both counts without loss. -/
def Obligations.FifoLevelHoldsBothCounts : Prop :=
  ∀ s : State, s.Inv →
    let r := s.regValue 0x008
    (r.extractLsb' 0 8).toNat = s.fifo.length ∧ (r.extractLsb' 8 3).toNat = s.seq.seqbuf.length ∧
    r.extractLsb' 11 21 = 0

/-! ## Reset (70_reset_and_hazards.md) -/

/-- R280, R282: a reset event, and a clock cycle with `rst` high whatever else it asks, puts every state element at its
reset value, keeps the parameters, and raises no diagnostic; while `rst` is high `cmd_ready` is low and `sample_out` is 0.
The schedule is the environment's and stays (assumption 2); that the output pulses are low afterwards is the model's
choice (assumption 10). -/
def Obligations.ResetRestoresTheResetState : Prop :=
  (∀ (s : State) (i : Input) (rest : List Input), s.inputs = i :: rest → i.resets = true →
    step s = .next { State.ofParams s.params with inputs := rest }) ∧
  ∀ s : State, (ports true s).cmdReady = false ∧ (ports true s).sampleOut = 0

/-- R281: the reset value of every state element, for every topology, and what UNIT_CFG, SEQ_POS, FIFO_LEVEL and STATUS
then read. -/
def Obligations.ResetValues : Prop :=
  ∀ p : Params,
    let s := State.ofParams p
    (∀ v ∈ s.units, v.AtReset) ∧
    s.seq.mode = .stopped ∧ s.seq.measure = 0 ∧ s.seq.idx = 0 ∧ s.seq.meter = .fourFour ∧ s.seq.cymbal4 = false ∧
    s.seq.active = ⟨0, 0, 0, 0x10, 0x10, 0x10⟩ ∧ s.seq.shadow = ⟨0, 0, 0, 0x10, 0x10, 0x10⟩ ∧
    s.seq.seqbuf = [] ∧ s.fifo = [] ∧ s.status = 0 ∧ s.lastSample = 0 ∧
    (∀ u v, u < 256 → s.units[u]? = some v →
      s.regValue (BitVec.ofNat 12 (0x100 + u)) =
        match v with
        | .sine _ | .saw _ | .expDecay _ | .lpf _ => 0x00007FFF#32
        | .linDecay _ | .sample _ | .drum _ | .poly _ _ | .withEffect => 0) ∧
    s.regValue 0x007 = 0 ∧ s.regValue 0x008 = 0 ∧ s.regValue 0x006 = 0

/-- R284: a block in which nothing sounds and nothing waits, as right after reset for every topology, stays so under every
entry of the schedule that offers no beat and writes no register, ticks, reads and whole clock cycles among them: every
sample step drives 0, a `sample_out` of 0 stays 0, and nothing is reported. -/
def Obligations.SilentBlockStaysSilent : Prop :=
  (∀ p : Params, (State.ofParams p).Silent ∧ (State.ofParams p).lastSample = 0) ∧
  ∀ s : State, s.Silent → ¬ s.deadlineMissed →
    (∀ i rest, s.inputs = i :: rest → i.pushes = false ∧ i.writes = none) →
    ∃ t, step s = .next t ∧ t.Silent ∧
      (∀ i rest, s.inputs = i :: rest → i.samples = true → t.lastSample = 0 ∧ t.sampleValid = true) ∧
      (s.lastSample = 0 → t.lastSample = 0) ∧
      (∀ b, t.status.getLsbD b = true → s.status.getLsbD b = true) ∧ ∀ k ∈ t.trace, k ∈ s.trace

/-! ## Invariants and whole-machine rules -/

/-- The invariant holds right after reset. -/
def Obligations.ResetMeetsTheInvariant : Prop := State.reset.Inv

/-- Every step keeps the invariant: legal parameters, a channel within its depth and address width, a sequencer in a
legal position with at most 4 beats of its own making, a tree of the shape that `TOPOLOGY` gives it, allocators in which
no pitch is held twice, cursors and gains in range. -/
def Obligations.StepKeepsTheInvariant : Prop :=
  ∀ s t : State, s.Inv → step s = .next t → t.Inv

/-- R5, R54, R282: no step changes a parameter, and none changes anything structural of the tree, shape, addresses and
sample buffers, a reset included where the tree has the shape of `TOPOLOGY`, as the invariant says it has. -/
def Obligations.StructureNeverChanges : Prop :=
  ∀ s t : State, step s = .next t →
    t.params = s.params ∧
    ((treeShapeOk s.params s.roots = true ∨ ∀ i rest, s.inputs = i :: rest → i.resets = false) →
      t.roots.map Synth.skeleton = s.roots.map Synth.skeleton)

/-- 10_state.md section 5: the setting fields are written only by `configure`: a step that changes the record some
UNIT_CFG reads is a reset or a register write to a UNIT_CFG index. -/
def Obligations.SettingsChangeOnlyByConfigure : Prop :=
  ∀ s t : State, step s = .next t → t.units.map UnitView.config ≠ s.units.map UnitView.config →
    ∃ i rest, s.inputs = i :: rest ∧
      (i.resets = true ∨ ∃ x d, i.writes = some (x, d) ∧ 0x100 ≤ x.toNat ∧ x.toNat < 0x200)
end

