-- ==== Sys2Proof/Laws/Arithmetic.lean ====
section
/-! SUPPORT. What the arithmetic of the block does: saturation, gains, decay, the envelope and filter products, and the
ranges of their results (00_scope.md R7 to R9, 42_effects.md, 43_oscillators.md R160). -/

namespace Sys2Proof.Machine

/-- A Q1.15 value (00_scope.md R9). -/
abbrev InQ15 (v : Int) : Prop := -32768 ≤ v ∧ v ≤ 32767

theorem sat16_inQ15 (v : Int) : InQ15 (sat16 v) := by unfold sat16; omega

theorem sat16_of_inQ15 {v : Int} (h : InQ15 v) : sat16 v = v := by unfold sat16; omega

theorem toInt_toQ15 {v : Int} (h : InQ15 v) : (toQ15 v).toInt = v := by
  unfold toQ15; rw [BitVec.toInt_ofInt]; exact Int.bmod_eq_of_le (by omega) (by omega)

theorem toInt_inQ15 (y : Q15) : InQ15 y.toInt := by
  have := BitVec.toInt_lt (x := y); have := BitVec.le_toInt (x := y); constructor <;> omega

theorem gainOf_toNat (vel scale : U44) : (gainOf vel scale).toNat = vel.toNat * scale.toNat := by
  have hv := vel.isLt; have hs := scale.isLt
  have : vel.toNat * scale.toNat ≤ 255 * 255 := Nat.mul_le_mul (by omega) (by omega)
  simp only [gainOf, BitVec.toNat_ofNat]; omega

/-- A U8.8 product is at most 65025 (00_scope.md R9). -/
theorem gainOf_le (vel scale : U44) : (gainOf vel scale).toNat ≤ 65025 := by
  rw [gainOf_toNat]
  have hv := vel.isLt; have hs := scale.isLt
  exact Nat.mul_le_mul (show vel.toNat ≤ 255 by omega) (show scale.toNat ≤ 255 by omega)

/-- A floored product by a Q0.15 ratio does not exceed what it scales. -/
theorem scaled_le (a r : Nat) (hr : r < 2 ^ 15) : a * r / 2 ^ 15 ≤ a :=
  Nat.div_le_of_le_mul (by rw [Nat.mul_comm (2 ^ 15)]; exact Nat.mul_le_mul_left a hr.le)

/-- It is strictly lower than what it scales, unless that is 0 (42_effects.md R144). -/
theorem scaled_lt {a r : Nat} (ha : 0 < a) (hr : r < 2 ^ 15) : a * r / 2 ^ 15 < a :=
  Nat.div_lt_of_lt_mul (by rw [Nat.mul_comm (2 ^ 15)]; exact Nat.mul_lt_mul_of_pos_left hr ha)

theorem scaleBy_toNat {n : Nat} (a : BitVec n) (ratio : Q015) :
    (scaleBy n a ratio).toNat = a.toNat * ratio.toNat / 2 ^ 15 := by
  have := scaled_le a.toNat ratio.toNat ratio.isLt
  have := a.isLt
  rw [scaleBy, BitVec.toNat_ofNat, Nat.mod_eq_of_lt (by omega)]

theorem scaleBy_le {n : Nat} (a : BitVec n) (ratio : Q015) : (scaleBy n a ratio).toNat ≤ a.toNat := by
  rw [scaleBy_toNat]; exact scaled_le _ _ ratio.isLt

/-! `decay_due` (42_effects.md R147), by its three cases. -/

theorem decayDue_never (cnt : U16) : decayDue 0 cnt = (false, cnt) := rfl

theorem decayDue_due {every cnt : U16} (h : every ≠ 0) (h' : every.toNat ≤ cnt.toNat + 1) :
    decayDue every cnt = (true, 0) := by rw [decayDue, if_neg h, if_pos h']

theorem decayDue_wait {every cnt : U16} (h : every ≠ 0) (h' : cnt.toNat + 1 < every.toNat) :
    decayDue every cnt = (false, cnt + 1) := by
  rw [decayDue, if_neg h, if_neg (Nat.not_le.mpr h')]

/-- The counter after a call that is not due has gone up by one, exactly. -/
theorem cnt_add_one_toNat {every cnt : U16} (h : cnt.toNat + 1 < every.toNat) : (cnt + 1).toNat = cnt.toNat + 1 := by
  have := every.isLt
  rw [BitVec.toNat_add, show (1 : U16).toNat = 1 from rfl]; omega

/-- The envelope product of a Q1.15 sample by a Q0.15 amplitude is a Q1.15 sample (42_effects.md R142). -/
theorem envelope_inQ15 {x : Int} (hx : InQ15 x) (amp : Q015) : InQ15 (asr (x * amp.toNat) 15) := by
  have ha : amp.toNat < 32768 := amp.isLt
  unfold asr
  constructor
  · have : (-32768 : Int) * 32768 ≤ x * amp.toNat := by nlinarith [hx.1]
    omega
  · have : x * (amp.toNat : Int) ≤ 32767 * 32767 := by nlinarith [hx.2]
    omega

/-- The filter's exact new value lies between its two Q1.15 operands, so it is a Q1.15 sample (42_effects.md R146). -/
theorem lpfMix_inQ15 (alpha : Q015) {x y : Int} (hx : InQ15 x) (hy : InQ15 y) : InQ15 (lpfMix alpha x y) := by
  have ha : (alpha.toNat : Int) ≤ 32767 := by have := alpha.isLt; omega
  have h0 : (0 : Int) ≤ alpha.toNat := by omega
  unfold lpfMix asr
  constructor
  · have : (-32768 : Int) * 32768 ≤ alpha.toNat * x + (32768 - alpha.toNat) * y := by nlinarith [hx.1, hy.1]
    omega
  · have : alpha.toNat * x + (32768 - alpha.toNat) * y ≤ 32767 * 32768 := by nlinarith [hx.2, hy.2]
    omega

/-! The quarter-sine ROM and its lookup (43_oscillators.md R160). -/

/-- `QTAB` rises from 0 to 32767. -/
theorem qtab_step : ∀ i < 256, 0 ≤ qtabAt i ∧ qtabAt i ≤ qtabAt (i + 1) ∧ qtabAt (i + 1) ≤ 32767 := by
  decide +kernel

theorem quarterSine_range {p : Nat} (h : p ≤ 2 ^ 30) : 0 ≤ quarterSine p ∧ quarterSine p ≤ 32767 := by
  simp only [quarterSine, asr]
  split
  · next h256 => rw [show qtabAt 256 = 32767 by decide +kernel]; omega
  · next h256 =>
    obtain ⟨h0, h1, h2⟩ := qtab_step (p / 2 ^ 22) (by omega)
    have hf : p % 2 ^ 22 < 2 ^ 22 := Nat.mod_lt _ (by norm_num)
    have lower := mul_nonneg (sub_nonneg.mpr h1) (Int.natCast_nonneg (p % 2 ^ 22))
    have upper : (qtabAt (p / 2 ^ 22 + 1) - qtabAt (p / 2 ^ 22)) * ((p % 2 ^ 22 : Nat) : Int)
        ≤ (qtabAt (p / 2 ^ 22 + 1) - qtabAt (p / 2 ^ 22)) * 2 ^ 22 :=
      mul_le_mul_of_nonneg_left (by exact_mod_cast hf.le) (sub_nonneg.mpr h1)
    constructor <;> omega

theorem quadrantPos_le (phase : Word) : quadrantPos phase ≤ 2 ^ 30 := by
  have := (phase.extractLsb' 0 30).isLt
  simp only [quadrantPos]; split <;> omega

/-- The lookup lies in −32767..32767 (R160). -/
theorem sineLookup_range (phase : Word) : -32767 ≤ sineLookup phase ∧ sineLookup phase ≤ 32767 := by
  have := quarterSine_range (quadrantPos_le phase)
  simp only [sineLookup]; split <;> omega

/-- The lookup on the phase as a number: sign, quadrant and position (R160). -/
theorem sineLookup_eq (w : Word) : sineLookup w =
   (if w.toNat / 2^31 = 1 then -1 else 1) *
     quarterSine (if w.toNat / 2^30 % 2 = 1 then 2^30 - w.toNat % 2^30 else w.toNat % 2^30) := by
  have h := w.isLt
  have e1 : w.getLsbD 31 = decide (w.toNat / 2^31 = 1) := by
    rw [BitVec.getLsbD, Nat.testBit_eq_decide_div_mod_eq]; congr 1; rw [eq_iff_iff]; omega
  have e2 : w.getLsbD 30 = decide (w.toNat / 2^30 % 2 = 1) := by
    rw [BitVec.getLsbD, Nat.testBit_eq_decide_div_mod_eq]
  have e3 : (w.extractLsb' 0 30).toNat = w.toNat % 2^30 := by simp
  simp only [sineLookup, quadrantPos, e1, e2, e3, decide_eq_true_eq]
  generalize quarterSine _ = q
  split <;> simp

@[simp] theorem quarterSine_zero : quarterSine 0 = 0 := by decide +kernel

end Sys2Proof.Machine
end

