-- ==== Sys2Proof/Laws/Tree.lean ====
section
/-! SUPPORT. What each operation on the synth tree does to the whole tree: the outputs are Q1.15 samples, the structure
never changes, the run-time ranges are kept, and the units of the register map. One lemma per operation, by induction
over the tree. -/

namespace Sys2Proof.Machine

/-! ## Outputs -/

theorem SineUnit.output_inQ15 (u : SineUnit) : InQ15 u.output := envelope_inQ15 (sat16_inQ15 _) _

theorem SampleUnit.next_inQ15 (u : SampleUnit) : InQ15 u.next.1 := by
  simp only [SampleUnit.next]
  split
  · exact ⟨by simp, by simp⟩
  · split
    · exact ⟨by simp, by simp⟩
    · exact sat16_inQ15 _

theorem Effect.next_inQ15 (e : Effect) {x : Int} (hx : InQ15 x) : InQ15 (e.next x).1 := by
  cases e with
  | linDecay u => exact envelope_inQ15 hx _
  | expDecay u => exact envelope_inQ15 hx _
  | lpf u => exact toInt_inQ15 _

/-- Every unit's output is a Q1.15 sample (00_scope.md R9). -/
theorem Synth.next_inQ15 : ∀ t : Synth, InQ15 t.next.1
  | .sine u => u.output_inQ15
  | .saw _ => sat16_inQ15 _
  | .sample u => u.next_inQ15
  | .drum _ _ _ _ => sat16_inQ15 _
  | .poly _ _ => sat16_inQ15 _
  | .withEffect synth effect => effect.next_inQ15 synth.next_inQ15

/-- The sum of a Poly before saturation, as a sum over its voices (44_poly_and_mix.md R192). -/
theorem Voices.next_fst (k : Nat) : ∀ vs : Voices, (vs.next k).1 = (vs.toList.map (fun e => asr e.2.next.1 k)).sum
  | .nil => rfl
  | .cons _ _ rest => by simp [Voices.next, Voices.toList, rest.next_fst k]

/-- Every voice of a Poly advances once, in place; the slots stay (R192). -/
theorem Voices.next_toList (k : Nat) :
    ∀ vs : Voices, (vs.next k).2.toList = vs.toList.map (fun e => (e.1, e.2.next.2))
  | .nil => rfl
  | .cons _ _ rest => by simp [Voices.next, Voices.toList, rest.next_toList k]

theorem Voices.length_toList : ∀ vs : Voices, vs.toList.length = vs.count
  | .nil => rfl
  | .cons _ _ rest => by simp [Voices.toList, Voices.count, rest.length_toList]

theorem Voices.slots_eq : ∀ vs : Voices, vs.slots = vs.toList.map Prod.fst
  | .nil => rfl
  | .cons _ _ rest => by simp [Voices.slots, Voices.toList, rest.slots_eq]

theorem Voices.length_slots (vs : Voices) : vs.slots.length = vs.count := by
  rw [vs.slots_eq, List.length_map, vs.length_toList]

/-- `P ≤ 2 ^ SHIFT` (R192). -/
theorem le_two_pow_shiftFor (p : Nat) : p ≤ 2 ^ shiftFor p := by
  unfold shiftFor
  split
  · simpa using ‹p ≤ 1›
  · have := Nat.lt_log2_self (n := p - 1)
    omega

/-! ## Voices one by one -/

/-- Playing voice `k` changes that voice and its slot only (R190, R191). -/
theorem Voices.playAt_toList (cfg : Params) (p : Pitch) (vel scale : U44) :
    ∀ (k : Nat) (vs : Voices), (vs.playAt cfg p vel scale k).1.toList =
      vs.toList.modify k (fun e => (slotAfter p vel, (e.2.play cfg p vel scale).1))
  | _, .nil => by simp [Voices.playAt, Voices.toList]
  | 0, .cons _ _ _ => by simp [Voices.playAt, Voices.toList]
  | k + 1, .cons _ _ rest => by simp [Voices.playAt, Voices.toList, rest.playAt_toList cfg p vel scale k]

/-- The diagnostics of playing voice `k` are that voice's (R190). -/
theorem Voices.playAt_snd (cfg : Params) (p : Pitch) (vel scale : U44) :
    ∀ (k : Nat) (vs : Voices), (vs.playAt cfg p vel scale k).2 =
      match vs.toList[k]? with
      | some e => (e.2.play cfg p vel scale).2
      | none => []
  | _, .nil => by simp [Voices.playAt, Voices.toList]
  | 0, .cons _ _ _ => by simp [Voices.playAt, Voices.toList]
  | k + 1, .cons _ _ rest => by simp [Voices.playAt, Voices.toList, rest.playAt_snd cfg p vel scale k]

/-- Every voice receives an attack, in place; the slots stay (R193). -/
theorem Voices.attack_toList (vel scale : U44) :
    ∀ vs : Voices, (vs.attack vel scale).toList = vs.toList.map (fun e => (e.1, e.2.attack vel scale))
  | .nil => rfl
  | .cons _ _ rest => by simp [Voices.attack, Voices.toList, rest.attack_toList vel scale]

/-! ## Structure -/

@[simp] theorem Effect.skeleton_play (e : Effect) (vel : U44) : (e.play vel).skeleton = e.skeleton := by
  cases e <;> simp only [Effect.play, Effect.skeleton, LinDecayUnit.play, ExpDecayUnit.play, LpfUnit.play] <;>
    split <;> rfl

@[simp] theorem Effect.skeleton_next (e : Effect) (x : Int) : (e.next x).2.skeleton = e.skeleton := by cases e <;> rfl

@[simp] theorem Effect.skeleton_write (e : Effect) (w : UnitWrite) : (e.write w).skeleton = e.skeleton := by
  cases w <;> cases e <;> rfl

@[simp] theorem Effect.addr_skeleton (e : Effect) : e.skeleton.addr = e.addr := by cases e <;> rfl

/-- The skeleton keeps the address (R54, R195). -/
@[simp] theorem Synth.addr_skeleton : ∀ t : Synth, t.skeleton.addr = t.addr
  | .sine _ => rfl
  | .saw _ => rfl
  | .sample _ => rfl
  | .drum _ _ _ _ => rfl
  | .poly _ _ => rfl
  | .withEffect synth effect => by simp [Synth.skeleton, Synth.addr, synth.addr_skeleton]

@[simp] theorem SineUnit.play_addr (fs : Nat) (p : Pitch) (vel scale : U44) (u : SineUnit) :
    (u.play fs p vel scale).1.addr = u.addr := by
  unfold SineUnit.play; split; · rfl
  split <;> rfl

@[simp] theorem SawUnit.play_addr (fs : Nat) (p : Pitch) (vel scale : U44) (u : SawUnit) :
    (u.play fs p vel scale).1.addr = u.addr := by
  unfold SawUnit.play; split; · rfl
  split <;> rfl

@[simp] theorem SampleUnit.topo_play (vel scale : U44) (u : SampleUnit) : (u.play vel scale).topo = u.topo := by
  unfold SampleUnit.play; split <;> rfl

@[simp] theorem SampleUnit.topo_next (u : SampleUnit) : u.next.2.topo = u.topo := by
  unfold SampleUnit.next; split; · rfl
  split <;> rfl

/-- A Drum's voices keep their structure (R172). -/
theorem drumPlay_topo (cfg : Params) (p : Pitch) (vel scale : U44) (d : DrumVoices) :
    (drumPlay cfg p vel scale d).1.kick.topo = d.kick.topo ∧ (drumPlay cfg p vel scale d).1.snare.topo = d.snare.topo ∧
      (drumPlay cfg p vel scale d).1.hat.topo = d.hat.topo := by
  unfold drumPlay; split; · simp
  split; · simp
  split <;> simp

mutual
/-- A Play changes nothing structural. -/
@[simp] theorem Synth.skeleton_play (cfg : Params) (p : Pitch) (vel scale : U44) :
    ∀ t : Synth, (t.play cfg p vel scale).1.skeleton = t.skeleton
  | .sine u => by simp [Synth.play, Synth.skeleton]
  | .saw u => by simp [Synth.play, Synth.skeleton]
  | .sample u => by simp [Synth.play, Synth.skeleton]
  | .drum a kick snare hat => by
    obtain ⟨h1, h2, h3⟩ := drumPlay_topo cfg p vel scale ⟨kick, snare, hat⟩
    simp [Synth.play, Synth.skeleton, h1, h2, h3]
  | .poly a voices => by
    simp only [Synth.play]
    split
    · rfl
    · simp [Synth.skeleton, Voices.skeleton_playAt cfg p vel scale _ voices]
  | .withEffect synth effect => by simp [Synth.play, Synth.skeleton, Synth.skeleton_play cfg p vel scale synth]
@[inherit_doc Synth.skeleton_play]
theorem Voices.skeleton_playAt (cfg : Params) (p : Pitch) (vel scale : U44) :
    ∀ (k : Nat) (vs : Voices), (vs.playAt cfg p vel scale k).1.skeleton = vs.skeleton
  | _, .nil => by simp [Voices.playAt]
  | 0, .cons _ voice _ => by simp [Voices.playAt, Voices.skeleton, Synth.skeleton_play cfg p vel scale voice]
  | k + 1, .cons _ _ rest => by simp [Voices.playAt, Voices.skeleton, Voices.skeleton_playAt cfg p vel scale k rest]
end

mutual
/-- A SetAttack changes nothing structural. -/
@[simp] theorem Synth.skeleton_attack (vel scale : U44) : ∀ t : Synth, (t.attack vel scale).skeleton = t.skeleton
  | .sine _ => rfl
  | .saw _ => rfl
  | .sample _ => rfl
  | .drum _ _ _ _ => rfl
  | .poly _ voices => by simp [Synth.attack, Synth.skeleton, Voices.skeleton_attack vel scale voices]
  | .withEffect synth _ => by simp [Synth.attack, Synth.skeleton, Synth.skeleton_attack vel scale synth]
@[inherit_doc Synth.skeleton_attack]
theorem Voices.skeleton_attack (vel scale : U44) : ∀ vs : Voices, (vs.attack vel scale).skeleton = vs.skeleton
  | .nil => rfl
  | .cons _ voice rest => by
    simp [Voices.attack, Voices.skeleton, Synth.skeleton_attack vel scale voice, Voices.skeleton_attack vel scale rest]
end

mutual
/-- A sample changes nothing structural. -/
@[simp] theorem Synth.skeleton_next : ∀ t : Synth, t.next.2.skeleton = t.skeleton
  | .sine _ => rfl
  | .saw _ => rfl
  | .sample u => by simp [Synth.next, Synth.skeleton]
  | .drum _ _ _ _ => by simp [Synth.next, Synth.skeleton, drumNext]
  | .poly _ voices => by simp [Synth.next, Synth.skeleton, Voices.skeleton_next _ voices]
  | .withEffect synth _ => by simp [Synth.next, Synth.skeleton, Synth.skeleton_next synth]
@[inherit_doc Synth.skeleton_next]
theorem Voices.skeleton_next (k : Nat) : ∀ vs : Voices, (vs.next k).2.skeleton = vs.skeleton
  | .nil => rfl
  | .cons _ voice rest => by
    simp [Voices.next, Voices.skeleton, Synth.skeleton_next voice, Voices.skeleton_next k rest]
end

/-- A delivered command changes nothing structural. -/
@[simp] theorem Synth.skeleton_receive (cfg : Params) (c : Instr) (t : Synth) :
    (t.receive cfg c).1.skeleton = t.skeleton := by cases c <;> simp [Synth.receive]

@[simp] theorem Effect.skeleton_runCommand (a : Addr) (c : Instr) (e : Effect) :
    (e.runCommand a c).skeleton = e.skeleton := by
  unfold Effect.runCommand; split
  · cases c <;> simp
  · rfl

/-- A routed command changes nothing structural (R54). -/
@[simp] theorem Synth.skeleton_runCommand (cfg : Params) (a : Addr) (c : Instr) :
    ∀ t : Synth, (t.runCommand cfg a c).1.skeleton = t.skeleton
  | .sine u => by unfold Synth.runCommand; split <;> simp
  | .saw u => by unfold Synth.runCommand; split <;> simp
  | .sample u => by unfold Synth.runCommand; split <;> simp
  | .drum _ _ _ _ => by unfold Synth.runCommand; split <;> simp
  | .poly _ _ => by unfold Synth.runCommand; split <;> simp
  | .withEffect synth effect => by
    unfold Synth.runCommand; split
    · simp [Synth.skeleton, Synth.skeleton_runCommand cfg a c synth]
    · rfl

mutual
/-- A register write to a unit changes nothing structural. -/
@[simp] theorem Synth.skeleton_writeAt (w : UnitWrite) :
    ∀ (k : Nat) (t : Synth), (t.writeAt w k).skeleton = t.skeleton
  | k, .sine u => by unfold Synth.writeAt; split <;> cases w <;> rfl
  | k, .saw u => by unfold Synth.writeAt; split <;> cases w <;> rfl
  | _, .sample _ => rfl
  | _, .drum _ _ _ _ => rfl
  | k, .poly _ voices => by
    unfold Synth.writeAt; split
    · rfl
    · simp [Synth.skeleton, Voices.skeleton_writeAt w (k - 1) voices]
  | k, .withEffect synth effect => by
    unfold Synth.writeAt; split
    · rfl
    · split
      · simp [Synth.skeleton, Synth.skeleton_writeAt w (k - 1) synth]
      · split <;> simp [Synth.skeleton]
@[inherit_doc Synth.skeleton_writeAt]
theorem Voices.skeleton_writeAt (w : UnitWrite) :
    ∀ (k : Nat) (vs : Voices), (vs.writeAt w k).skeleton = vs.skeleton
  | _, .nil => by simp [Voices.writeAt]
  | k, .cons _ voice rest => by
    unfold Voices.writeAt; split
    · simp [Voices.skeleton, Synth.skeleton_writeAt w k voice]
    · simp [Voices.skeleton, Voices.skeleton_writeAt w (k - voice.size) rest]
end

/-- A register write leaves the slots alone. -/
theorem Voices.slots_writeAt (w : UnitWrite) : ∀ (k : Nat) (vs : Voices), (vs.writeAt w k).slots = vs.slots
  | _, .nil => by simp [Voices.writeAt]
  | k, .cons _ voice rest => by
    unfold Voices.writeAt; split
    · rfl
    · simp [Voices.slots, Voices.slots_writeAt w (k - voice.size) rest]

theorem writeRoots_skeleton (w : UnitWrite) :
    ∀ (k : Nat) (rs : List Synth), (writeRoots w k rs).map Synth.skeleton = rs.map Synth.skeleton
  | _, [] => rfl
  | k, r :: rs => by
    unfold writeRoots; split
    · simp
    · simp [writeRoots_skeleton w (k - r.size) rs]

/-- The mixer keeps the structure of every root. -/
theorem mix_skeleton (rs : List Synth) : (mix rs).2.map Synth.skeleton = rs.map Synth.skeleton := by
  simp [mix, Function.comp_def]

end Sys2Proof.Machine
end

