-- ==== Sys2Proof/Laws/Ranges.lean ====
section
/-! SUPPORT. Every operation on the synth tree keeps the ranges of its run-time state (`Synth.ok`): gains are U8.8
products, cursors stay within their buffers, and an allocator never holds a pitch twice (44_poly_and_mix.md R190). -/

namespace Sys2Proof.Machine

theorem gainOk_gainOf (vel scale : U44) : gainOk (gainOf vel scale) = true := by
  simpa [gainOk] using gainOf_le vel scale

theorem gainOk_scaleBy {g : U88} (h : gainOk g = true) (ratio : Q015) : gainOk (scaleBy 16 g ratio) = true := by
  simp only [gainOk, decide_eq_true_eq] at *
  exact (scaleBy_le g ratio).trans h

theorem gainOk_zero : gainOk 0#16 = true := by decide

/-! ## Leaves -/

theorem SineUnit.play_ok (fs : Nat) (p : Pitch) (vel scale : U44) (u : SineUnit)
    (h : gainOk u.gain = true ∧ gainOk u.attack = true) :
    gainOk (u.play fs p vel scale).1.gain = true ∧ gainOk (u.play fs p vel scale).1.attack = true := by
  unfold SineUnit.play; split
  · exact ⟨gainOk_zero, h.2⟩
  · split
    · exact h
    · exact ⟨gainOk_gainOf vel scale, h.2⟩

theorem SawUnit.play_ok (fs : Nat) (p : Pitch) (vel scale : U44) (u : SawUnit) (h : gainOk u.gain = true) :
    gainOk (u.play fs p vel scale).1.gain = true := by
  unfold SawUnit.play; split
  · exact gainOk_zero
  · split
    · exact h
    · exact gainOk_gainOf vel scale

theorem SampleUnit.play_ok (vel scale : U44) (u : SampleUnit) (h : u.ok = true) : (u.play vel scale).ok = true := by
  unfold SampleUnit.play; split
  · exact h
  · simp [SampleUnit.ok, gainOk_gainOf]

/-- The cursor advances only below LEN, where it cannot overflow its 21 bits (10_state.md R37). -/
theorem SampleUnit.next_ok (u : SampleUnit) (h : u.ok = true) : u.next.2.ok = true := by
  simp only [SampleUnit.ok, Bool.and_eq_true, decide_eq_true_eq] at h
  unfold SampleUnit.next; split
  · simp [SampleUnit.ok, h]
  · split
    · simp [SampleUnit.ok, h]
    · have : (u.cursor + 1).toNat ≤ u.cursor.toNat + 1 := by
        rw [BitVec.toNat_add, show (1 : BitVec 21).toNat = 1 from rfl]; exact Nat.mod_le _ _
      simp only [SampleUnit.ok, Bool.and_eq_true, decide_eq_true_eq]
      exact ⟨by omega, h.2⟩

theorem drumPlay_ok (cfg : Params) (p : Pitch) (vel scale : U44) (d : DrumVoices)
    (h : (d.kick.ok && d.snare.ok && d.hat.ok) = true) :
    ((drumPlay cfg p vel scale d).1.kick.ok && (drumPlay cfg p vel scale d).1.snare.ok
      && (drumPlay cfg p vel scale d).1.hat.ok) = true := by
  simp only [Bool.and_eq_true] at h
  obtain ⟨⟨h1, h2⟩, h3⟩ := h
  unfold drumPlay; split
  · simp [SampleUnit.play_ok, h1, h2, h3]
  · split
    · simp [SampleUnit.play_ok, h1, h2, h3]
    · split <;> simp [SampleUnit.play_ok, h1, h2, h3]

/-! ## Slots -/

theorem slotsOk_iff (slots : List (Option Pitch)) :
    slotsOk slots = true ↔ (∀ p, some p ∈ slots → p.wf = true) ∧ (slots.filterMap id).Nodup := by
  simp only [slotsOk, Bool.and_eq_true, List.all_eq_true, decide_eq_true_eq]
  exact and_congr_left' ⟨fun h p hp => by simpa using h _ hp, fun h o ho => by cases o <;> simp_all⟩

/-- Emptying a slot keeps the slots legal. -/
theorem slotsOk_set_none {slots : List (Option Pitch)} (h : slotsOk slots = true) (k : Nat) :
    slotsOk (slots.set k none) = true := by
  rw [slotsOk_iff] at *
  refine ⟨fun p hp => h.1 p ((List.mem_or_eq_of_mem_set hp).resolve_right (by simp)), ?_⟩
  refine List.Nodup.sublist ?_ h.2
  clear h
  induction slots generalizing k with
  | nil => simp
  | cons o rest ih =>
    cases k with
    | zero => cases o <;> simp
    | succ k => cases o <;> simpa using ih k

/-- Filling a slot with a pitch that no other slot holds keeps the slots legal. -/
theorem slotsOk_set_some {slots : List (Option Pitch)} {p : Pitch} (h : slotsOk slots = true) (hp : p.wf = true) {k : Nat}
    (hk : ∀ j, slots[j]? = some (some p) → j = k) : slotsOk (slots.set k (some p)) = true := by
  rw [slotsOk_iff] at *
  refine ⟨fun q hq => (List.mem_or_eq_of_mem_set hq).elim (h.1 q) (fun e => by cases e; exact hp), ?_⟩
  replace h := h.2
  induction slots generalizing k with
  | nil => simp
  | cons o rest ih =>
    cases k with
    | zero =>
      have hnot : some p ∉ rest := fun hm => by
        obtain ⟨j, hj⟩ := List.mem_iff_getElem?.mp hm
        exact absurd (hk (j + 1) (by simpa using hj)) (by simp)
      cases o <;> simp_all
    | succ k =>
      have hrest : (rest.filterMap id).Nodup := by cases o <;> simp_all
      have := ih (fun j hj => by simpa using hk (j + 1) (by simpa using hj)) hrest
      cases o with
      | none => simpa using this
      | some q =>
        have hq : q ≠ p := fun e => absurd (hk 0 (by simp [e])) (by simp)
        have hqr : some q ∉ rest := by simp_all
        simp only [List.set_cons_succ, List.filterMap_cons, id]
        refine List.nodup_cons.mpr ⟨?_, this⟩
        simp only [List.mem_filterMap, exists_eq_right]
        exact fun hm => (List.mem_or_eq_of_mem_set hm).elim hqr (fun e => hq (Option.some.inj e))

/-- In legal slots a pitch stands in one place only. -/
theorem index_unique {p : Pitch} : ∀ {slots : List (Option Pitch)}, (slots.filterMap id).Nodup →
    ∀ {i j : Nat}, slots[i]? = some (some p) → slots[j]? = some (some p) → i = j
  | [], _, i, _, hi, _ => by simp at hi
  | o :: rest, h, i, j, hi, hj => by
    have hrest : (rest.filterMap id).Nodup := by cases o <;> simp_all
    have head : ∀ {k : Nat}, o = some p → rest[k]? ≠ some (some p) := fun e hk => by
      have := List.mem_of_getElem? hk
      subst e; simp_all
    cases i <;> cases j
    · rfl
    · exact absurd (by simpa using hj) (head (by simpa using hi))
    · exact absurd (by simpa using hi) (head (by simpa using hj))
    · exact congrArg _ (index_unique hrest (by simpa using hi) (by simpa using hj))

theorem findIdx?_decide_eq_some {α : Type} [DecidableEq α] {l : List α} {a : α} {k : Nat} :
    l.findIdx? (fun b => decide (b = a)) = some k ↔ l[k]? = some a ∧ ∀ j < k, l[j]? ≠ some a := by
  rw [List.findIdx?_eq_some_iff_getElem]
  constructor
  · rintro ⟨h, hk, hj⟩
    refine ⟨by rw [List.getElem?_eq_getElem h]; simpa using hk, fun j hjk e => hj j hjk ?_⟩
    obtain ⟨_, e⟩ := List.getElem?_eq_some_iff.mp e
    simpa using e
  · rintro ⟨hk, hj⟩
    obtain ⟨h, e⟩ := List.getElem?_eq_some_iff.mp hk
    refine ⟨h, by simpa using e, fun j hjk e => hj j hjk ?_⟩
    rw [List.getElem?_eq_getElem (hjk.trans h)]; simpa using e

theorem findIdx?_decide_eq_none {α : Type} [DecidableEq α] {l : List α} {a : α} :
    l.findIdx? (fun b => decide (b = a)) = none ↔ a ∉ l := by
  rw [List.findIdx?_eq_none_iff]
  exact ⟨fun h hm => by simpa using h a hm, fun h x hx => by simpa using fun e : x = a => h (e ▸ hx)⟩

/-- What the allocator's choice means (44_poly_and_mix.md R190): the first slot that holds the pitch, or, where none
holds it, the first empty one. -/
theorem Voices.choose_eq_some {vs : Voices} {p : Pitch} {k : Nat} :
    vs.choose p = some k ↔ ChosenVoice vs.slots p k := by
  unfold Voices.choose Voices.findHeld Voices.findFree ChosenVoice
  rcases h : vs.slots.findIdx? (fun o => decide (o = some p)) with _ | j
  · have hnot := findIdx?_decide_eq_none.mp h
    rw [Option.none_or, findIdx?_decide_eq_some]
    exact ⟨fun hk => .inr ⟨hnot, hk⟩, fun hk => hk.resolve_left (fun e => hnot (List.mem_of_getElem? e.1)) |>.2⟩
  · have hj := findIdx?_decide_eq_some.mp h
    rw [Option.some_or, Option.some.injEq, ← Option.some.injEq, ← h, findIdx?_decide_eq_some]
    exact ⟨.inl, fun hk => hk.resolve_right (fun e => e.1 (List.mem_of_getElem? hj.1))⟩

/-- The allocator drops a pitch that no slot holds when no slot is empty (R190). -/
theorem Voices.choose_eq_none {vs : Voices} {p : Pitch} :
    vs.choose p = none ↔ some p ∉ vs.slots ∧ none ∉ vs.slots := by
  rw [Voices.choose, Option.or_eq_none_iff]
  exact and_congr findIdx?_decide_eq_none findIdx?_decide_eq_none

/-- The slots after a Play to the chosen voice are legal (R190, R191). -/
theorem slotsOk_after {vs : Voices} {p : Pitch} {k : Nat} (h : slotsOk vs.slots = true) (hp : p.wf = true)
    (hk : vs.choose p = some k) (vel : U44) : slotsOk (vs.slots.set k (slotAfter p vel)) = true := by
  unfold slotAfter
  split
  · exact slotsOk_set_none h k
  · refine slotsOk_set_some h hp (fun j hj => ?_)
    rcases Voices.choose_eq_some.mp hk with ⟨hk, -⟩ | ⟨hnot, -⟩
    · exact index_unique (slotsOk_iff _ |>.mp h).2 hj hk
    · exact absurd (List.mem_of_getElem? hj) hnot

/-! ## The tree -/

theorem Voices.slots_playAt (cfg : Params) (p : Pitch) (vel scale : U44) :
    ∀ (k : Nat) (vs : Voices), (vs.playAt cfg p vel scale k).1.slots = vs.slots.set k (slotAfter p vel)
  | _, .nil => by simp [Voices.playAt, Voices.slots]
  | 0, .cons _ _ _ => by simp [Voices.playAt, Voices.slots]
  | k + 1, .cons _ _ rest => by simp [Voices.playAt, Voices.slots, Voices.slots_playAt cfg p vel scale k rest]

theorem Voices.slots_attack (vel scale : U44) : ∀ vs : Voices, (vs.attack vel scale).slots = vs.slots
  | .nil => rfl
  | .cons _ _ rest => by simp [Voices.attack, Voices.slots, Voices.slots_attack vel scale rest]

theorem Voices.slots_next (k : Nat) : ∀ vs : Voices, (vs.next k).2.slots = vs.slots
  | .nil => rfl
  | .cons _ _ rest => by simp [Voices.next, Voices.slots, Voices.slots_next k rest]

mutual
/-- A Play of a valid pitch keeps every range. -/
theorem Synth.ok_play (cfg : Params) {p : Pitch} (hp : p.wf = true) (vel scale : U44) :
    ∀ t : Synth, t.ok = true → (t.play cfg p vel scale).1.ok = true
  | .sine u, h => by
    simp only [Synth.ok, Bool.and_eq_true] at h
    simpa [Synth.play, Synth.ok] using u.play_ok cfg.sampleRateHz p vel scale h
  | .saw u, h => by simpa [Synth.play, Synth.ok] using u.play_ok cfg.sampleRateHz p vel scale h
  | .sample u, h => u.play_ok vel scale h
  | .drum _ kick snare hat, h => drumPlay_ok cfg p vel scale ⟨kick, snare, hat⟩ h
  | .poly a voices, h => by
    simp only [Synth.ok, Bool.and_eq_true] at h
    simp only [Synth.play]
    split
    · simpa [Synth.ok] using h
    · next k hk =>
      simp only [Synth.ok, Bool.and_eq_true, Voices.slots_playAt]
      exact ⟨slotsOk_after h.1 hp hk vel, Voices.ok_playAt cfg hp vel scale k voices h.2⟩
  | .withEffect synth _, h => Synth.ok_play cfg hp vel scale synth h
@[inherit_doc Synth.ok_play]
theorem Voices.ok_playAt (cfg : Params) {p : Pitch} (hp : p.wf = true) (vel scale : U44) :
    ∀ (k : Nat) (vs : Voices), vs.ok = true → (vs.playAt cfg p vel scale k).1.ok = true
  | _, .nil, _ => by simp [Voices.playAt, Voices.ok]
  | 0, .cons _ voice rest, h => by
    simp only [Voices.ok, Bool.and_eq_true] at h
    simp [Voices.playAt, Voices.ok, h.2, Synth.ok_play cfg hp vel scale voice h.1]
  | k + 1, .cons _ voice rest, h => by
    simp only [Voices.ok, Bool.and_eq_true] at h
    simp [Voices.playAt, Voices.ok, h.1, Voices.ok_playAt cfg hp vel scale k rest h.2]
end

mutual
/-- A SetAttack keeps every range. -/
theorem Synth.ok_attack (vel scale : U44) : ∀ t : Synth, t.ok = true → (t.attack vel scale).ok = true
  | .sine u, h => by
    simp only [Synth.ok, Bool.and_eq_true] at h
    simp [Synth.attack, Synth.ok, SineUnit.setAttack, h.1, gainOk_gainOf]
  | .saw _, h => h
  | .sample _, h => h
  | .drum _ _ _ _, h => h
  | .poly _ voices, h => by
    simp only [Synth.ok, Bool.and_eq_true] at h
    simp [Synth.attack, Synth.ok, Voices.slots_attack, h.1, Voices.ok_attack vel scale voices h.2]
  | .withEffect synth _, h => Synth.ok_attack vel scale synth h
@[inherit_doc Synth.ok_attack]
theorem Voices.ok_attack (vel scale : U44) : ∀ vs : Voices, vs.ok = true → (vs.attack vel scale).ok = true
  | .nil, h => h
  | .cons _ voice rest, h => by
    simp only [Voices.ok, Bool.and_eq_true] at h
    simp [Voices.attack, Voices.ok, Synth.ok_attack vel scale voice h.1, Voices.ok_attack vel scale rest h.2]
end

mutual
/-- A sample keeps every range. -/
theorem Synth.ok_next : ∀ t : Synth, t.ok = true → t.next.2.ok = true
  | .sine _, h => h
  | .saw u, h => by
    simp only [Synth.ok] at h
    simp only [Synth.next, Synth.ok, SawUnit.next]
    split
    · exact gainOk_scaleBy h _
    · exact h
  | .sample u, h => u.next_ok h
  | .drum _ kick snare hat, h => by
    simp only [Synth.ok, Bool.and_eq_true] at h
    simp [Synth.next, Synth.ok, drumNext, SampleUnit.next_ok, h]
  | .poly _ voices, h => by
    simp only [Synth.ok, Bool.and_eq_true] at h
    simp [Synth.next, Synth.ok, Voices.slots_next, h.1, Voices.ok_next _ voices h.2]
  | .withEffect synth _, h => Synth.ok_next synth h
@[inherit_doc Synth.ok_next]
theorem Voices.ok_next (k : Nat) : ∀ vs : Voices, vs.ok = true → (vs.next k).2.ok = true
  | .nil, h => h
  | .cons _ voice rest, h => by
    simp only [Voices.ok, Bool.and_eq_true] at h
    simp [Voices.next, Voices.ok, Synth.ok_next voice h.1, Voices.ok_next k rest h.2]
end

/-- A delivered well-formed command keeps every range. -/
theorem Synth.ok_receive (cfg : Params) {c : Instr} (hc : c.wf = true) (t : Synth) (h : t.ok = true) :
    (t.receive cfg c).1.ok = true := by
  cases c with
  | play p vel scale => exact t.ok_play cfg hc vel scale h
  | setAttack vel scale => exact t.ok_attack vel scale h

/-- A routed well-formed command keeps every range (41_command.md R125). -/
theorem Synth.ok_runCommand (cfg : Params) (a : Addr) {c : Instr} (hc : c.wf = true) :
    ∀ t : Synth, t.ok = true → (t.runCommand cfg a c).1.ok = true
  | .sine u, h => by unfold Synth.runCommand; split; exacts [Synth.ok_receive cfg hc _ h, h]
  | .saw u, h => by unfold Synth.runCommand; split; exacts [Synth.ok_receive cfg hc _ h, h]
  | .sample u, h => by unfold Synth.runCommand; split; exacts [Synth.ok_receive cfg hc _ h, h]
  | .drum _ _ _ _, h => by unfold Synth.runCommand; split; exacts [Synth.ok_receive cfg hc _ h, h]
  | .poly _ _, h => by unfold Synth.runCommand; split; exacts [Synth.ok_receive cfg hc _ h, h]
  | .withEffect synth effect, h => by
    unfold Synth.runCommand; split
    · exact Synth.ok_runCommand cfg a hc synth h
    · exact h

mutual
/-- A register write to a unit keeps every range: it writes no run-time state but a bend (10_state.md R50, R51). -/
theorem Synth.ok_writeAt (w : UnitWrite) : ∀ (k : Nat) (t : Synth), (t.writeAt w k).ok = t.ok
  | k, .sine u => by unfold Synth.writeAt; split <;> cases w <;> rfl
  | k, .saw u => by unfold Synth.writeAt; split <;> cases w <;> rfl
  | _, .sample _ => rfl
  | _, .drum _ _ _ _ => rfl
  | k, .poly _ voices => by
    unfold Synth.writeAt; split
    · rfl
    · simp [Synth.ok, Voices.slots_writeAt w (k - 1) voices, Voices.ok_writeAt w (k - 1) voices]
  | k, .withEffect synth effect => by
    unfold Synth.writeAt; split
    · rfl
    · split
      · simp [Synth.ok, Synth.ok_writeAt w (k - 1) synth]
      · rfl
@[inherit_doc Synth.ok_writeAt]
theorem Voices.ok_writeAt (w : UnitWrite) : ∀ (k : Nat) (vs : Voices), (vs.writeAt w k).ok = vs.ok
  | _, .nil => by simp [Voices.writeAt]
  | k, .cons _ voice rest => by
    unfold Voices.writeAt; split
    · simp [Voices.ok, Synth.ok_writeAt w k voice]
    · simp [Voices.ok, Voices.ok_writeAt w (k - voice.size) rest]
end

theorem writeRoots_ok (w : UnitWrite) : ∀ (k : Nat) (rs : List Synth), (writeRoots w k rs).all Synth.ok = rs.all Synth.ok
  | _, [] => rfl
  | k, r :: rs => by
    unfold writeRoots; split
    · simp [Synth.ok_writeAt]
    · simp [writeRoots_ok w (k - r.size) rs]

/-- A built tree is in range. -/
theorem SampleUnit.init_ok (t : SampleTopo) : (SampleUnit.init t).ok = true := by
  simp [SampleUnit.init, SampleUnit.ok, gainOk_zero]

theorem Voices.slotsOk_replicate (t : Synth) (n : Nat) : slotsOk (Voices.replicate n t).slots = true := by
  rw [slotsOk_iff]
  induction n with
  | zero => simp [Voices.replicate, Voices.slots]
  | succ n ih => simpa [Voices.replicate, Voices.slots] using ih

theorem Voices.ok_replicate {t : Synth} (h : t.ok = true) : ∀ n : Nat, (Voices.replicate n t).ok = true
  | 0 => rfl
  | n + 1 => by simp [Voices.replicate, Voices.ok, h, Voices.ok_replicate h n]

/-- The tree of a topology is in range at reset. -/
theorem Synth.ok_build : ∀ t : SynthTopo, (Synth.build t).ok = true
  | .sine _ => rfl
  | .saw _ => rfl
  | .sample t => SampleUnit.init_ok t
  | .drum _ kick snare hat => by simp [Synth.build, Synth.ok, SampleUnit.init_ok]
  | .poly _ n voice => by
    simp only [Synth.build, Synth.ok, Bool.and_eq_true]
    exact ⟨Voices.slotsOk_replicate _ n, Voices.ok_replicate (Synth.ok_build voice) n⟩
  | .withEffect synth _ => Synth.ok_build synth

end Sys2Proof.Machine
end

