-- ==== Sys2Proof/Laws/Encoding.lean ====
section
/-! SUPPORT. The fields of an encoded command, and the words of the fields of a decoded one (30_encoding.md R90,
41_command.md R120, R121). -/

namespace Sys2Proof

@[simp] theorem Letter.ofId_id (l : Letter) : Letter.ofId l.id = some l := by cases l <;> rfl

@[simp] theorem Accidental.ofId_id (a : Accidental) : Accidental.ofId a.id = some a := by cases a <;> rfl

/-- An id that names a letter is that letter's id, and only ids above 6 name none (R94). -/
theorem Letter.ofId_spec : ∀ i : BitVec 3, (∀ l, Letter.ofId i = some l → l.id = i) ∧
    (Letter.ofId i = none ↔ 6 < i.toNat) := by decide +kernel

/-- An id that names an accidental is that accidental's id, and only ids above 4 name none (R93). -/
theorem Accidental.ofId_spec : ∀ i : BitVec 3, (∀ a, Accidental.ofId i = some a → a.id = i) ∧
    (Accidental.ofId i = none ↔ 4 < i.toNat) := by decide +kernel

section Fields
variable (p : Pitch) (vel scale : U44)

@[simp] theorem velOf_play : velOf (encode (.play p vel scale)) = vel := by
  apply BitVec.eq_of_getLsbD_eq; intro i hi
  simp only [velOf, encode, BitVec.getLsbD_extractLsb', BitVec.getLsbD_append]
  simp [hi]

@[simp] theorem scaleOf_play : scaleOf (encode (.play p vel scale)) = scale := by
  apply BitVec.eq_of_getLsbD_eq; intro i hi
  simp only [scaleOf, encode, BitVec.getLsbD_extractLsb', BitVec.getLsbD_append]
  simp (disch := omega) [hi]

@[simp] theorem letOf_play : letOf (encode (.play p vel scale)) = p.letter.id := by
  apply BitVec.eq_of_getLsbD_eq; intro i hi
  simp only [letOf, encode, BitVec.getLsbD_extractLsb', BitVec.getLsbD_append, hi, decide_true, Bool.true_and]
  rw [if_neg (by omega), if_neg (by omega), if_pos (by omega)]; congr 1; omega

@[simp] theorem accOf_play : accOf (encode (.play p vel scale)) = p.accidental.id := by
  apply BitVec.eq_of_getLsbD_eq; intro i hi
  simp only [accOf, encode, BitVec.getLsbD_extractLsb', BitVec.getLsbD_append, hi, decide_true, Bool.true_and]
  rw [if_neg (by omega), if_neg (by omega), if_neg (by omega), if_pos (by omega)]; congr 1; omega

@[simp] theorem octOf_play : octOf (encode (.play p vel scale)) = BitVec.ofInt 4 p.octave := by
  apply BitVec.eq_of_getLsbD_eq; intro i hi
  simp only [octOf, encode, BitVec.getLsbD_extractLsb', BitVec.getLsbD_append, hi, decide_true, Bool.true_and]
  rw [if_neg (by omega), if_neg (by omega), if_neg (by omega), if_neg (by omega), if_pos (by omega)]; congr 1; omega

@[simp] theorem cidOf_play : cidOf (encode (.play p vel scale)) = 0#6 := by
  apply BitVec.eq_of_getLsbD_eq; intro i hi
  simp only [cidOf, encode, BitVec.getLsbD_extractLsb', BitVec.getLsbD_append, hi, decide_true, Bool.true_and]
  rw [if_neg (by omega), if_neg (by omega), if_neg (by omega), if_neg (by omega), if_neg (by omega)]; simp

@[simp] theorem velOf_setAttack : velOf (encode (.setAttack vel scale)) = vel := by
  apply BitVec.eq_of_getLsbD_eq; intro i hi
  simp only [velOf, encode, BitVec.getLsbD_extractLsb', BitVec.getLsbD_append]
  simp [hi]

@[simp] theorem scaleOf_setAttack : scaleOf (encode (.setAttack vel scale)) = scale := by
  apply BitVec.eq_of_getLsbD_eq; intro i hi
  simp only [scaleOf, encode, BitVec.getLsbD_extractLsb', BitVec.getLsbD_append]
  simp (disch := omega) [hi]

@[simp] theorem cidOf_setAttack : cidOf (encode (.setAttack vel scale)) = 1#6 := by
  apply BitVec.eq_of_getLsbD_eq; intro i hi
  simp only [cidOf, encode, BitVec.getLsbD_extractLsb', BitVec.getLsbD_append, hi, decide_true, Bool.true_and]
  rw [if_neg (by omega), if_neg (by omega), if_neg (by omega)]; congr 1; omega

/-- The ten bits that serialize leaves 0 in a SetAttack word (R97). -/
theorem unusedOf_setAttack : (encode (.setAttack vel scale)).extractLsb' 16 10 = 0#10 := by
  apply BitVec.eq_of_getLsbD_eq; intro i hi
  simp only [encode, BitVec.getLsbD_extractLsb', BitVec.getLsbD_append, hi, decide_true, Bool.true_and]
  rw [if_neg (by omega), if_neg (by omega), if_pos (by omega)]; simp

end Fields

/-- The four low bits of an octave of −8..7 give it back (R92). -/
theorem octave_toInt {o : Int} (h : -8 ≤ o ∧ o ≤ 7) : (BitVec.ofInt 4 o).toInt = o := by
  rw [BitVec.toInt_ofInt]; exact Int.bmod_eq_of_le (by omega) (by omega)

/-- A word is its fields side by side (R90). -/
theorem word_eq_fields (w : Word) : cidOf w ++ octOf w ++ accOf w ++ letOf w ++ scaleOf w ++ velOf w = w := by
  apply BitVec.eq_of_getLsbD_eq; intro i hi
  simp only [cidOf, octOf, accOf, letOf, scaleOf, velOf, BitVec.getLsbD_extractLsb', BitVec.getLsbD_append]
  split_ifs <;>
  · rw [decide_eq_true (by omega), Bool.true_and]; congr 1; omega

/-- A serialized Play of a valid pitch decodes to itself: what the sequencer emits is never malformed. -/
theorem deserialize_encode_play {p : Pitch} (hp : p.wf = true) (vel scale : U44) :
    deserialize (encode (.play p vel scale)) = some (.play p vel scale) := by
  simp only [Pitch.wf, Bool.and_eq_true, decide_eq_true_eq] at hp
  simp [deserialize, decode, octave_toInt hp, Except.toOption]

/-- Only well-formed commands are decoded: the octave field gives −8..7 (R92). -/
theorem wf_of_deserialize {w : Word} {c : Instr} (h : deserialize w = some c) : c.wf = true := by
  cases c with
  | setAttack _ _ => rfl
  | play p vel scale =>
    have hlt := BitVec.toInt_lt (x := octOf w)
    have hle := BitVec.le_toInt (x := octOf w)
    have ho : p.octave = (octOf w).toInt := by
      simp only [deserialize, decode] at h
      split at h
      · split at h
        · simp only [Except.toOption, Option.some.injEq, Instr.play.injEq] at h
          exact h.1 ▸ rfl
        all_goals simp [Except.toOption] at h
      all_goals simp [Except.toOption] at h
    simp only [Instr.wf, Pitch.wf, ho, Bool.and_eq_true, decide_eq_true_eq]
    omega

end Sys2Proof
end

