-- ==== Sys2Proof/Laws/Sequencing.lean ====
section
/-! SUPPORT. What the sequencer's operations do (45_sequencer.md): each keeps the sequencer's legal states. -/

namespace Sys2Proof.Machine

/-- The legal states, part by part (`Sequencer.ok`). -/
theorem Sequencer.ok_iff (cfg : Params) (q : Sequencer) :
    q.ok cfg = true ↔ q.seqbuf.length ≤ 4 ∧ (∀ b ∈ q.seqbuf, fromSequencer cfg b = true) ∧
      (q.mode = .playing ∨ q.measure = 0) ∧ (q.mode ≠ .stopped ∨ q.idx = 0) := by
  simp [Sequencer.ok, and_assoc]

/-- A beat of the sequencer is one of its own making (R220). -/
theorem fromSequencer_seqBeat (cfg : Params) {p : Pitch} (hp : p.wf = true) (vel : U44) :
    fromSequencer cfg (seqBeat cfg p vel) = true := by
  simp [fromSequencer, seqBeat, deserialize_encode_play hp]

/-- The sequencer's pitches are valid in a block with legal parameters (00_scope.md R5). -/
theorem Params.wf_pitches {cfg : Params} (h : cfg.wf = true) :
    cfg.seqHatPitch.wf = true ∧ cfg.seqSnarePitch.wf = true ∧ cfg.seqKickPitch.wf = true ∧
      cfg.seqAccentPitch.wf = true ∧ cfg.seqCymbalPitch.wf = true := by
  simp only [Params.wf, Bool.and_eq_true] at h
  tauto

/-- A tick emits at most 4 beats (R218). -/
theorem emitBeats_length (cfg : Params) (q : Sequencer) : (emitBeats cfg q).length ≤ 4 := by
  unfold emitBeats
  split
  · simp
  · split <;> simp
  · split <;> simp
  · simp only [playingBeats, List.length_append]
    have one : ∀ (c : Prop) [Decidable c] (b : Beat), (if c then [b] else []).length ≤ 1 := fun c _ b => by
      split <;> simp
    have := one (q.cymbal4 = true ∧ q.measure = 0 ∧ q.idx = 0) (cymbalBeat cfg)
    have := one (q.active.hatMask.getLsbD q.idx.toNat = true) (seqBeat cfg cfg.seqHatPitch q.active.hatVel)
    have := one (q.active.snareMask.getLsbD q.idx.toNat = true) (seqBeat cfg cfg.seqSnarePitch q.active.snareVel)
    have := one (q.active.kickMask.getLsbD q.idx.toNat = true) (seqBeat cfg cfg.seqKickPitch q.active.kickVel)
    omega

/-- Every beat of a tick is the sequencer's own (R220). -/
theorem emitBeats_own {cfg : Params} (h : cfg.wf = true) (q : Sequencer) :
    ∀ b ∈ emitBeats cfg q, fromSequencer cfg b = true := by
  obtain ⟨hh, hs, hk, ha, hc⟩ := Params.wf_pitches h
  intro b hb
  simp only [emitBeats, playingBeats, accentBeat, cymbalBeat] at hb
  split at hb
  · simp at hb
  · split at hb
    · obtain rfl := List.mem_singleton.mp hb; exact fromSequencer_seqBeat cfg ha _
    · simp at hb
  · split at hb
    · obtain rfl := List.mem_singleton.mp hb; exact fromSequencer_seqBeat cfg ha _
    · simp at hb
  · have one : ∀ (c : Prop) [Decidable c] (d : Beat), b ∈ (if c then [d] else []) → b = d := fun c _ d hd => by
      split at hd <;> simp_all
    simp only [List.mem_append] at hb
    obtain ((hb | hb) | hb) | hb := hb <;> obtain rfl := one _ _ hb <;>
      exact fromSequencer_seqBeat cfg (by assumption) _

/-- `advance` writes the position only (R219). -/
theorem Sequencer.advance_eq (q : Sequencer) :
    q.advance = { q with mode := q.advance.mode, measure := q.advance.measure, idx := q.advance.idx } := by
  unfold Sequencer.advance
  split
  · unfold Sequencer.wrap; split <;> rfl
  · rfl

/-- From a running mode `advance` keeps running, and the measure counts only in PLAYING (R210, R219). -/
theorem Sequencer.advance_mode {q : Sequencer} (h : q.mode ≠ .stopped) (hm : q.mode = .playing ∨ q.measure = 0) :
    q.advance.mode ≠ .stopped ∧ (q.advance.mode = .playing ∨ q.advance.measure = 0) := by
  unfold Sequencer.advance
  split
  · unfold Sequencer.wrap; split <;> simp_all
  · exact ⟨h, hm⟩

/-- A tick that finds the buffer empty keeps the legal states. -/
theorem Sequencer.ok_tick {cfg : Params} (h : cfg.wf = true) {q : Sequencer} (hq : q.ok cfg = true) :
    (q.tick cfg).ok cfg = true := by
  unfold Sequencer.tick
  split
  · exact hq
  · next hs =>
    rw [Sequencer.ok_iff] at *
    obtain ⟨h1, h2⟩ := Sequencer.advance_mode hs hq.2.2.1
    exact ⟨emitBeats_length cfg q, emitBeats_own h q, h2, .inl h1⟩

/-- A SEQ_CMD write keeps the legal states and the buffer (R212 to R214). -/
theorem Sequencer.ok_command {cfg : Params} {q : Sequencer} (hq : q.ok cfg = true) (op : BitVec 2) :
    (q.command op).ok cfg = true := by
  rw [Sequencer.ok_iff] at *
  unfold Sequencer.command
  split
  · unfold Sequencer.play; split <;> simp_all
  · unfold Sequencer.countoff; split <;> simp_all
  · simp_all [Sequencer.stop]
  · exact hq

@[simp] theorem Sequencer.command_seqbuf (q : Sequencer) (op : BitVec 2) : (q.command op).seqbuf = q.seqbuf := by
  unfold Sequencer.command
  split
  · unfold Sequencer.play; split <;> rfl
  · unfold Sequencer.countoff; split <;> rfl
  · rfl
  · rfl

/-- Taking beats out of the buffer keeps the legal states (R223). -/
theorem Sequencer.ok_tail {cfg : Params} {q : Sequencer} (hq : q.ok cfg = true) {b : Beat} {rest : List Beat}
    (hb : q.seqbuf = b :: rest) : ({ q with seqbuf := rest } : Sequencer).ok cfg = true := by
  rw [Sequencer.ok_iff] at *
  rw [hb] at hq
  exact ⟨by have := hq.1; simp at this ⊢; omega, fun c hc => hq.2.1 c (List.mem_cons_of_mem _ hc), hq.2.2⟩

/-! ## Ticks whose beats are delivered before the next (R226) -/

section Drained
variable (cfg : Params)

theorem subdivisions_bounds (m : Meter) : subdivisions m ≤ 16 ∧ 12 ≤ subdivisions m := by
  cases m <;> simp [subdivisions]

theorem subdivisions_eq_ite (m : Meter) : (if m = .fourFour then 16 else 12) = subdivisions m := by cases m <;> rfl

/-- A tick within a measure moves to the next subdivision (R219). -/
theorem drainedTick_step {q : Sequencer} (hm : q.mode ≠ .stopped) (hb : q.seqbuf = [])
    (h : q.idx.toNat + 1 < subdivisions q.meter) : Sequencer.drainedTick cfg q = { q with idx := q.idx + 1 } := by
  simp only [Sequencer.drainedTick, Sequencer.tick, if_neg hm, Sequencer.advance, if_neg (Nat.not_le.mpr h)]
  cases q; simp_all

/-- The last tick of a measure wraps (R219). -/
theorem drainedTick_wrap {q : Sequencer} (hm : q.mode ≠ .stopped) (hb : q.seqbuf = [])
    (h : subdivisions q.meter ≤ q.idx.toNat + 1) : Sequencer.drainedTick cfg q = q.wrap := by
  simp only [Sequencer.drainedTick, Sequencer.tick, if_neg hm, Sequencer.advance, if_pos h]
  cases q; simp_all [Sequencer.wrap]; split <;> rfl

/-- `k` ticks from the start of a measure stand at subdivision `k`. -/
theorem drainedTick_within {q : Sequencer} (hm : q.mode ≠ .stopped) (hb : q.seqbuf = []) (hi : q.idx = 0) :
    ∀ k, k < subdivisions q.meter → (Sequencer.drainedTick cfg)^[k] q = { q with idx := BitVec.ofNat 4 k }
  | 0, _ => by rw [Function.iterate_zero, id]; cases q; simp_all
  | k + 1, h => by
    have h16 := (subdivisions_bounds q.meter).1
    rw [Function.iterate_succ_apply', drainedTick_within hm hb hi k (by omega), drainedTick_step]
    · simp [BitVec.ofNat_add]
    · exact hm
    · exact hb
    · simp only [BitVec.toNat_ofNat]; omega

/-- A whole measure of ticks wraps once (R211, R219). -/
theorem drainedTick_measure {q : Sequencer} (hm : q.mode ≠ .stopped) (hb : q.seqbuf = []) (hi : q.idx = 0) :
    (Sequencer.drainedTick cfg)^[subdivisions q.meter] q = q.wrap := by
  obtain ⟨h16, h12⟩ := subdivisions_bounds q.meter
  obtain ⟨n, hn⟩ : ∃ n, subdivisions q.meter = n + 1 :=
    ⟨_, (Nat.sub_add_cancel (by omega : 1 ≤ subdivisions q.meter)).symm⟩
  rw [hn, Function.iterate_succ_apply', drainedTick_within cfg hm hb hi n (by omega), drainedTick_wrap]
  · simp [Sequencer.wrap]
  · exact hm
  · exact hb
  · simp only [BitVec.toNat_ofNat]; omega

theorem drainedTick_seqbuf {q : Sequencer} (hb : q.seqbuf = []) :
    ∀ k, ((Sequencer.drainedTick cfg)^[k] q).seqbuf = []
  | 0 => hb
  | k + 1 => by rw [Function.iterate_succ_apply']; rfl

end Drained

end Sys2Proof.Machine
end

