-- ==== Sys2Proof/Laws/State.lean ====
section
/-! SUPPORT. One lemma per field per update of the state, each true by rfl, so that no later proof unfolds a record
update. -/

namespace Sys2Proof.Machine

/-! `emit` writes STATUS and the trace only (60_exceptions.md R261). -/

@[simp] theorem State.emit_params (s : State) (ks : List Diag) : (s.emit ks).params = s.params := rfl
@[simp] theorem State.emit_roots (s : State) (ks : List Diag) : (s.emit ks).roots = s.roots := rfl
@[simp] theorem State.emit_seq (s : State) (ks : List Diag) : (s.emit ks).seq = s.seq := rfl
@[simp] theorem State.emit_fifo (s : State) (ks : List Diag) : (s.emit ks).fifo = s.fifo := rfl
@[simp] theorem State.emit_status (s : State) (ks : List Diag) : (s.emit ks).status = statusAfter s.status ks := rfl
@[simp] theorem State.emit_lastSample (s : State) (ks : List Diag) : (s.emit ks).lastSample = s.lastSample := rfl
@[simp] theorem State.emit_trace (s : State) (ks : List Diag) : (s.emit ks).trace = s.trace ++ ks := rfl
@[simp] theorem State.emit_sampleValid (s : State) (ks : List Diag) : (s.emit ks).sampleValid = s.sampleValid := rfl
@[simp] theorem State.emit_regResp (s : State) (ks : List Diag) : (s.emit ks).regResp = s.regResp := rfl
@[simp] theorem State.emit_diagOut (s : State) (ks : List Diag) : (s.emit ks).diagOut = s.diagOut := rfl
@[simp] theorem State.emit_beatAddr (s : State) (ks : List Diag) : (s.emit ks).beatAddr = s.beatAddr := rfl
@[simp] theorem State.emit_busy (s : State) (ks : List Diag) : (s.emit ks).busy = s.busy := rfl
@[simp] theorem State.emit_inputs (s : State) (ks : List Diag) : (s.emit ks).inputs = s.inputs := rfl

/-! `fifoPush` writes the channel only (20_memory.md R83). -/

@[simp] theorem State.fifoPush_params (s : State) (b : Beat) : (s.fifoPush b).params = s.params := rfl
@[simp] theorem State.fifoPush_roots (s : State) (b : Beat) : (s.fifoPush b).roots = s.roots := rfl
@[simp] theorem State.fifoPush_seq (s : State) (b : Beat) : (s.fifoPush b).seq = s.seq := rfl
@[simp] theorem State.fifoPush_fifo (s : State) (b : Beat) : (s.fifoPush b).fifo = s.fifo ++ [b] := rfl
@[simp] theorem State.fifoPush_status (s : State) (b : Beat) : (s.fifoPush b).status = s.status := rfl
@[simp] theorem State.fifoPush_lastSample (s : State) (b : Beat) : (s.fifoPush b).lastSample = s.lastSample := rfl
@[simp] theorem State.fifoPush_trace (s : State) (b : Beat) : (s.fifoPush b).trace = s.trace := rfl
@[simp] theorem State.fifoPush_sampleValid (s : State) (b : Beat) : (s.fifoPush b).sampleValid = s.sampleValid := rfl
@[simp] theorem State.fifoPush_regResp (s : State) (b : Beat) : (s.fifoPush b).regResp = s.regResp := rfl
@[simp] theorem State.fifoPush_diagOut (s : State) (b : Beat) : (s.fifoPush b).diagOut = s.diagOut := rfl
@[simp] theorem State.fifoPush_beatAddr (s : State) (b : Beat) : (s.fifoPush b).beatAddr = s.beatAddr := rfl
@[simp] theorem State.fifoPush_busy (s : State) (b : Beat) : (s.fifoPush b).busy = s.busy := rfl
@[simp] theorem State.fifoPush_inputs (s : State) (b : Beat) : (s.fifoPush b).inputs = s.inputs := rfl

/-! `quiet` ends the output pulses only. -/

@[simp] theorem State.quiet_params (s : State) : (s.quiet).params = s.params := rfl
@[simp] theorem State.quiet_roots (s : State) : (s.quiet).roots = s.roots := rfl
@[simp] theorem State.quiet_seq (s : State) : (s.quiet).seq = s.seq := rfl
@[simp] theorem State.quiet_fifo (s : State) : (s.quiet).fifo = s.fifo := rfl
@[simp] theorem State.quiet_status (s : State) : (s.quiet).status = s.status := rfl
@[simp] theorem State.quiet_lastSample (s : State) : (s.quiet).lastSample = s.lastSample := rfl
@[simp] theorem State.quiet_trace (s : State) : (s.quiet).trace = s.trace := rfl
@[simp] theorem State.quiet_sampleValid (s : State) : (s.quiet).sampleValid = false := rfl
@[simp] theorem State.quiet_regResp (s : State) : (s.quiet).regResp = none := rfl
@[simp] theorem State.quiet_diagOut (s : State) : (s.quiet).diagOut = none := rfl
@[simp] theorem State.quiet_beatAddr (s : State) : (s.quiet).beatAddr = s.beatAddr := rfl
@[simp] theorem State.quiet_busy (s : State) : (s.quiet).busy = s.busy := rfl
@[simp] theorem State.quiet_inputs (s : State) : (s.quiet).inputs = s.inputs := rfl

/-! `taken` ends the output pulses and takes the schedule's head. -/

@[simp] theorem State.taken_params (s : State) (rest : List Input) : (s.taken rest).params = s.params := rfl
@[simp] theorem State.taken_roots (s : State) (rest : List Input) : (s.taken rest).roots = s.roots := rfl
@[simp] theorem State.taken_seq (s : State) (rest : List Input) : (s.taken rest).seq = s.seq := rfl
@[simp] theorem State.taken_fifo (s : State) (rest : List Input) : (s.taken rest).fifo = s.fifo := rfl
@[simp] theorem State.taken_status (s : State) (rest : List Input) : (s.taken rest).status = s.status := rfl
@[simp] theorem State.taken_lastSample (s : State) (rest : List Input) :
    (s.taken rest).lastSample = s.lastSample := rfl
@[simp] theorem State.taken_trace (s : State) (rest : List Input) : (s.taken rest).trace = s.trace := rfl
@[simp] theorem State.taken_sampleValid (s : State) (rest : List Input) : (s.taken rest).sampleValid = false := rfl
@[simp] theorem State.taken_regResp (s : State) (rest : List Input) : (s.taken rest).regResp = none := rfl
@[simp] theorem State.taken_diagOut (s : State) (rest : List Input) : (s.taken rest).diagOut = none := rfl
@[simp] theorem State.taken_beatAddr (s : State) (rest : List Input) : (s.taken rest).beatAddr = s.beatAddr := rfl
@[simp] theorem State.taken_busy (s : State) (rest : List Input) : (s.taken rest).busy = s.busy := rfl
@[simp] theorem State.taken_inputs (s : State) (rest : List Input) : (s.taken rest).inputs = rest := rfl

/-! `popped` takes the beat from the channel and puts its address on the router. -/

@[simp] theorem State.popped_params (s : State) (b : Beat) (beats : List Beat) :
    (s.popped b beats).params = s.params := rfl
@[simp] theorem State.popped_roots (s : State) (b : Beat) (beats : List Beat) :
    (s.popped b beats).roots = s.roots := rfl
@[simp] theorem State.popped_seq (s : State) (b : Beat) (beats : List Beat) : (s.popped b beats).seq = s.seq := rfl
@[simp] theorem State.popped_fifo (s : State) (b : Beat) (beats : List Beat) : (s.popped b beats).fifo = beats := rfl
@[simp] theorem State.popped_status (s : State) (b : Beat) (beats : List Beat) :
    (s.popped b beats).status = s.status := rfl
@[simp] theorem State.popped_lastSample (s : State) (b : Beat) (beats : List Beat) :
    (s.popped b beats).lastSample = s.lastSample := rfl
@[simp] theorem State.popped_trace (s : State) (b : Beat) (beats : List Beat) :
    (s.popped b beats).trace = s.trace := rfl
@[simp] theorem State.popped_sampleValid (s : State) (b : Beat) (beats : List Beat) :
    (s.popped b beats).sampleValid = s.sampleValid := rfl
@[simp] theorem State.popped_regResp (s : State) (b : Beat) (beats : List Beat) :
    (s.popped b beats).regResp = s.regResp := rfl
@[simp] theorem State.popped_diagOut (s : State) (b : Beat) (beats : List Beat) :
    (s.popped b beats).diagOut = s.diagOut := rfl
@[simp] theorem State.popped_beatAddr (s : State) (b : Beat) (beats : List Beat) :
    (s.popped b beats).beatAddr = b.addr := rfl
@[simp] theorem State.popped_busy (s : State) (b : Beat) (beats : List Beat) : (s.popped b beats).busy = s.busy := rfl
@[simp] theorem State.popped_inputs (s : State) (b : Beat) (beats : List Beat) :
    (s.popped b beats).inputs = s.inputs := rfl

/-! `render` advances the tree and drives the sample only (46_engine_step.md R241). -/

@[simp] theorem State.render_params (s : State) : (s.render).params = s.params := rfl
@[simp] theorem State.render_roots (s : State) : (s.render).roots = (mix s.roots).2 := rfl
@[simp] theorem State.render_seq (s : State) : (s.render).seq = s.seq := rfl
@[simp] theorem State.render_fifo (s : State) : (s.render).fifo = s.fifo := rfl
@[simp] theorem State.render_status (s : State) : (s.render).status = s.status := rfl
@[simp] theorem State.render_lastSample (s : State) : (s.render).lastSample = toQ15 (mix s.roots).1 := rfl
@[simp] theorem State.render_trace (s : State) : (s.render).trace = s.trace := rfl
@[simp] theorem State.render_sampleValid (s : State) : (s.render).sampleValid = true := rfl
@[simp] theorem State.render_regResp (s : State) : (s.render).regResp = s.regResp := rfl
@[simp] theorem State.render_diagOut (s : State) : (s.render).diagOut = s.diagOut := rfl
@[simp] theorem State.render_beatAddr (s : State) : (s.render).beatAddr = s.beatAddr := rfl
@[simp] theorem State.render_busy (s : State) : (s.render).busy = s.busy := rfl
@[simp] theorem State.render_inputs (s : State) : (s.render).inputs = s.inputs := rfl

/-! `finishStep` is `render` with the router's address released. -/

@[simp] theorem State.finishStep_params (s : State) : (s.finishStep).params = s.params := rfl
@[simp] theorem State.finishStep_roots (s : State) : (s.finishStep).roots = (mix s.roots).2 := rfl
@[simp] theorem State.finishStep_seq (s : State) : (s.finishStep).seq = s.seq := rfl
@[simp] theorem State.finishStep_fifo (s : State) : (s.finishStep).fifo = s.fifo := rfl
@[simp] theorem State.finishStep_status (s : State) : (s.finishStep).status = s.status := rfl
@[simp] theorem State.finishStep_lastSample (s : State) : (s.finishStep).lastSample = toQ15 (mix s.roots).1 := rfl
@[simp] theorem State.finishStep_trace (s : State) : (s.finishStep).trace = s.trace := rfl
@[simp] theorem State.finishStep_sampleValid (s : State) : (s.finishStep).sampleValid = true := rfl
@[simp] theorem State.finishStep_regResp (s : State) : (s.finishStep).regResp = s.regResp := rfl
@[simp] theorem State.finishStep_diagOut (s : State) : (s.finishStep).diagOut = s.diagOut := rfl
@[simp] theorem State.finishStep_beatAddr (s : State) : (s.finishStep).beatAddr = 0 := rfl
@[simp] theorem State.finishStep_busy (s : State) : (s.finishStep).busy = s.busy := rfl
@[simp] theorem State.finishStep_inputs (s : State) : (s.finishStep).inputs = s.inputs := rfl

/-! `dispatch` writes the tree, STATUS and the trace only (44_poly_and_mix.md R201). -/

@[simp] theorem State.dispatch_params (s : State) (c : Instr) : (s.dispatch c).params = s.params := rfl
@[simp] theorem State.dispatch_roots (s : State) (c : Instr) :
    (s.dispatch c).roots = s.roots.map (fun r => (r.runCommand s.params s.beatAddr c).1) := rfl
@[simp] theorem State.dispatch_seq (s : State) (c : Instr) : (s.dispatch c).seq = s.seq := rfl
@[simp] theorem State.dispatch_fifo (s : State) (c : Instr) : (s.dispatch c).fifo = s.fifo := rfl
@[simp] theorem State.dispatch_status (s : State) (c : Instr) :
    (s.dispatch c).status =
      statusAfter s.status (s.roots.flatMap (fun r => (r.runCommand s.params s.beatAddr c).2)) := rfl
@[simp] theorem State.dispatch_lastSample (s : State) (c : Instr) : (s.dispatch c).lastSample = s.lastSample := rfl
@[simp] theorem State.dispatch_trace (s : State) (c : Instr) :
    (s.dispatch c).trace = s.trace ++ s.roots.flatMap (fun r => (r.runCommand s.params s.beatAddr c).2) := rfl
@[simp] theorem State.dispatch_sampleValid (s : State) (c : Instr) : (s.dispatch c).sampleValid = s.sampleValid := rfl
@[simp] theorem State.dispatch_regResp (s : State) (c : Instr) : (s.dispatch c).regResp = s.regResp := rfl
@[simp] theorem State.dispatch_diagOut (s : State) (c : Instr) : (s.dispatch c).diagOut = s.diagOut := rfl
@[simp] theorem State.dispatch_beatAddr (s : State) (c : Instr) : (s.dispatch c).beatAddr = s.beatAddr := rfl
@[simp] theorem State.dispatch_busy (s : State) (c : Instr) : (s.dispatch c).busy = s.busy := rfl
@[simp] theorem State.dispatch_inputs (s : State) (c : Instr) : (s.dispatch c).inputs = s.inputs := rfl

/-! `regRead` writes the response port only (20_memory.md R77). -/

@[simp] theorem State.regRead_params (s : State) (i : RegIndex) : (s.regRead i).params = s.params := rfl
@[simp] theorem State.regRead_roots (s : State) (i : RegIndex) : (s.regRead i).roots = s.roots := rfl
@[simp] theorem State.regRead_seq (s : State) (i : RegIndex) : (s.regRead i).seq = s.seq := rfl
@[simp] theorem State.regRead_fifo (s : State) (i : RegIndex) : (s.regRead i).fifo = s.fifo := rfl
@[simp] theorem State.regRead_status (s : State) (i : RegIndex) : (s.regRead i).status = s.status := rfl
@[simp] theorem State.regRead_lastSample (s : State) (i : RegIndex) : (s.regRead i).lastSample = s.lastSample := rfl
@[simp] theorem State.regRead_trace (s : State) (i : RegIndex) : (s.regRead i).trace = s.trace := rfl
@[simp] theorem State.regRead_sampleValid (s : State) (i : RegIndex) :
    (s.regRead i).sampleValid = s.sampleValid := rfl
@[simp] theorem State.regRead_regResp (s : State) (i : RegIndex) : (s.regRead i).regResp = some (s.regValue i) := rfl
@[simp] theorem State.regRead_diagOut (s : State) (i : RegIndex) : (s.regRead i).diagOut = s.diagOut := rfl
@[simp] theorem State.regRead_beatAddr (s : State) (i : RegIndex) : (s.regRead i).beatAddr = s.beatAddr := rfl
@[simp] theorem State.regRead_busy (s : State) (i : RegIndex) : (s.regRead i).busy = s.busy := rfl
@[simp] theorem State.regRead_inputs (s : State) (i : RegIndex) : (s.regRead i).inputs = s.inputs := rfl

end Sys2Proof.Machine
end

