-- ==== Sys2Proof/Laws/Units.lean ====
section
/-! SUPPORT. The units of the register map (10_state.md R32, R50, R51): how many there are, what a unit write changes,
and the reset values of a built tree. -/

namespace Sys2Proof.Machine

/-! ## The pre-order walk -/

mutual
/-- The walk lists `size` units (R32). -/
@[simp] theorem Synth.length_units : ∀ t : Synth, t.units.length = t.size
  | .sine _ => rfl
  | .saw _ => rfl
  | .sample _ => rfl
  | .drum _ _ _ _ => rfl
  | .poly _ voices => by simp [Synth.units, Synth.size, Voices.length_units voices, Nat.add_comm]
  | .withEffect synth _ => by simp [Synth.units, Synth.size, Synth.length_units synth]; omega
@[inherit_doc Synth.length_units]
theorem Voices.length_units : ∀ vs : Voices, vs.units.length = vs.size
  | .nil => rfl
  | .cons _ voice rest => by simp [Voices.units, Voices.size, Synth.length_units voice, Voices.length_units rest]
end

/-- `NUM_UNITS` is the number of units listed (R32). -/
theorem State.length_units (s : State) : s.units.length = s.numUnits := by
  simp [State.units, State.numUnits, List.length_flatMap]

/-! ## Writes to one unit -/

/-- What a register write does to the unit it names (10_state.md R50, R51). -/
def UnitView.write : UnitWrite → UnitView → UnitView
  | .configure d, v => v.configured d
  | .bend d, v => v.bent d

theorem modify_append_eq {α : Type} (f : α → α) :
    ∀ (k : Nat) (l r : List α), (l ++ r).modify k f =
      if k < l.length then l.modify k f ++ r else l ++ r.modify (k - l.length) f
  | _, [], _ => by simp
  | 0, _ :: _, _ => by simp
  | k + 1, a :: l, r => by
    simp only [List.cons_append, List.modify_succ_cons, modify_append_eq f k l r, List.length_cons,
      Nat.add_lt_add_iff_right, Nat.add_sub_add_right]
    split <;> rfl

theorem Effect.view_write (w : UnitWrite) (e : Effect) : (e.write w).view = e.view.write w := by
  cases w <;> cases e <;> rfl

mutual
/-- A write to unit `k` of a tree changes the `k`-th unit of the walk and no other. -/
theorem Synth.units_writeAt (w : UnitWrite) :
    ∀ (k : Nat) (t : Synth), (t.writeAt w k).units = t.units.modify k (UnitView.write w)
  | 0, .sine u => by cases w <;> rfl
  | 0, .saw u => by cases w <;> rfl
  | k + 1, .sine u => by simp [Synth.writeAt, Synth.units]
  | k + 1, .saw u => by simp [Synth.writeAt, Synth.units]
  | 0, .sample u => by cases w <;> rfl
  | k + 1, .sample u => by simp [Synth.writeAt, Synth.units]
  | 0, .drum _ _ _ _ => by cases w <;> rfl
  | 1, .drum _ _ _ _ => by cases w <;> rfl
  | 2, .drum _ _ _ _ => by cases w <;> rfl
  | 3, .drum _ _ _ _ => by cases w <;> rfl
  | k + 4, .drum _ _ _ _ => by simp [Synth.writeAt, Synth.units]
  | 0, .poly _ _ => by cases w <;> rfl
  | k + 1, .poly _ voices => by
    simp [Synth.writeAt, Synth.units, Voices.units_writeAt w k voices, Voices.slots_writeAt]
  | 0, .withEffect _ _ => by cases w <;> rfl
  | k + 1, .withEffect synth effect => by
    simp only [Synth.writeAt, Nat.succ_ne_zero, if_false, Nat.add_sub_cancel, Synth.units, List.modify_succ_cons,
      modify_append_eq, Synth.length_units]
    split
    · simp [Synth.units, Synth.units_writeAt w k synth]
    · split
      · next h => simp [Synth.units, h, Effect.view_write]
      · next h h' =>
        obtain ⟨j, hj⟩ : ∃ j, k - synth.size = j + 1 := ⟨k - synth.size - 1, by omega⟩
        simp [Synth.units, hj]
@[inherit_doc Synth.units_writeAt]
theorem Voices.units_writeAt (w : UnitWrite) :
    ∀ (k : Nat) (vs : Voices), (vs.writeAt w k).units = vs.units.modify k (UnitView.write w)
  | _, .nil => by simp [Voices.writeAt, Voices.units]
  | k, .cons _ voice rest => by
    simp only [Voices.writeAt, Voices.units, modify_append_eq, Synth.length_units]
    split
    · simp [Voices.units, Synth.units_writeAt w k voice]
    · simp [Voices.units, Voices.units_writeAt w (k - voice.size) rest]
end

/-- A write to unit `k` of the block changes that unit and no other (R32). -/
theorem writeRoots_units (w : UnitWrite) :
    ∀ (k : Nat) (rs : List Synth),
      (writeRoots w k rs).flatMap Synth.units = (rs.flatMap Synth.units).modify k (UnitView.write w)
  | _, [] => by simp [writeRoots]
  | k, r :: rs => by
    simp only [writeRoots, List.flatMap_cons, modify_append_eq, Synth.length_units]
    split
    · simp [Synth.units_writeAt]
    · simp [writeRoots_units w (k - r.size) rs]

/-! ## Reset values of a built tree -/

theorem Effect.view_build_atReset (e : EffectTopo) : (Effect.build e).view.AtReset := by
  cases e <;> exact ⟨rfl, by first | rfl | exact ⟨rfl, rfl, rfl⟩⟩

theorem Voices.slots_replicate (t : Synth) : ∀ n : Nat, (Voices.replicate n t).slots = List.replicate n none
  | 0 => rfl
  | n + 1 => by simp [Voices.replicate, Voices.slots, Voices.slots_replicate t n, List.replicate_succ]

theorem Voices.mem_units_replicate {t : Synth} {v : UnitView} : ∀ {n : Nat}, v ∈ (Voices.replicate n t).units → v ∈ t.units
  | 0, h => by simp [Voices.replicate, Voices.units] at h
  | n + 1, h => by
    simp only [Voices.replicate, Voices.units, List.mem_append] at h
    exact h.elim id Voices.mem_units_replicate

/-- Every unit of a built tree is at its reset values (70_reset_and_hazards.md R281). -/
theorem Synth.build_atReset : ∀ (t : SynthTopo) (v : UnitView), v ∈ (Synth.build t).units → v.AtReset
  | .sine _, v, h => by
    obtain rfl := List.mem_singleton.mp h
    exact ⟨rfl, rfl, rfl, rfl, rfl, rfl, rfl, rfl, rfl⟩
  | .saw _, v, h => by
    obtain rfl := List.mem_singleton.mp h
    exact ⟨rfl, rfl, rfl, rfl, rfl, rfl⟩
  | .sample _, v, h => by
    obtain rfl := List.mem_singleton.mp h
    exact ⟨rfl, rfl, rfl⟩
  | .drum _ _ _ _, v, h => by
    simp only [Synth.build, Synth.units, List.mem_cons, List.not_mem_nil, or_false] at h
    obtain rfl | rfl | rfl | rfl := h
    · trivial
    all_goals exact ⟨rfl, rfl, rfl⟩
  | .poly _ n voice, v, h => by
    simp only [Synth.build, Synth.units, List.mem_cons] at h
    obtain rfl | h := h
    · intro o ho
      rw [Voices.slots_replicate] at ho
      exact List.eq_of_mem_replicate ho
    · exact Synth.build_atReset voice v (Voices.mem_units_replicate h)
  | .withEffect synth effect, v, h => by
    simp only [Synth.build, Synth.units, List.mem_cons, List.mem_append, List.not_mem_nil, or_false] at h
    obtain rfl | h | rfl := h
    · trivial
    · exact Synth.build_atReset synth v h
    · exact Effect.view_build_atReset effect

end Sys2Proof.Machine
end

