-- ==== Sys2Proof/Laws/Step.lean ====
section
/-! SUPPORT. What a step can do, said once: a sample step always answers, an event always answers, a cycle stops only at
a missed deadline, and what each writes. Every later proof cites these instead of unfolding the step. -/

namespace Sys2Proof.Machine

/-- A command always completes: it is delivered (41_command.md R125). -/
theorem exec_eq (c : Instr) (s : State) : exec c s = .next (s.dispatch c) := by cases c <;> rfl

/-- What a sample step does (46_engine_step.md R241): nothing to pop, a malformed word, or a command delivered. -/
theorem State.sampleStep_eq (s : State) :
    s.sampleStep = .next
      (match s.fifo with
      | [] => s.render
      | b :: rest =>
        match deserialize b.word with
        | none => ((s.popped b rest).emit [.malformed]).finishStep
        | some c => ((s.popped b rest).dispatch c).finishStep) := by
  unfold State.sampleStep
  rcases s.fifo with _ | ⟨b, rest⟩
  · rfl
  · dsimp only
    rcases deserialize b.word with _ | c
    · rfl
    · simp only [exec_eq]

/-- The state after a sample step. -/
def State.sampled (s : State) : State :=
  match s.fifo with
  | [] => s.render
  | b :: rest =>
    match deserialize b.word with
    | none => ((s.popped b rest).emit [.malformed]).finishStep
    | some c => ((s.popped b rest).dispatch c).finishStep

theorem State.sampleStep_next (s : State) : s.sampleStep = .next s.sampled := s.sampleStep_eq

/-- The three shapes of a sample step, as cases for later proofs. -/
theorem State.sampled_cases (s : State) :
    (s.fifo = [] ∧ s.sampled = s.render) ∨
    (∃ b rest, s.fifo = b :: rest ∧ deserialize b.word = none ∧
      s.sampled = ((s.popped b rest).emit [.malformed]).finishStep) ∨
    (∃ b rest c, s.fifo = b :: rest ∧ deserialize b.word = some c ∧
      s.sampled = ((s.popped b rest).dispatch c).finishStep) := by
  unfold State.sampled
  rcases hf : s.fifo with _ | ⟨b, rest⟩
  · exact .inl ⟨rfl, rfl⟩
  · rcases hd : deserialize b.word with _ | c
    · exact .inr (.inl ⟨b, rest, rfl, hd, by simp [hd]⟩)
    · exact .inr (.inr ⟨b, rest, c, rfl, hd, by simp [hd]⟩)

/-- The state after an atomic event. -/
def State.after (e : Event) (s : State) : State :=
  match e with
  | .reset => s.resetBlock
  | .sampleStep => s.sampled
  | .hostPush a w => s.hostPush a w
  | .seqTick => s.seqTick
  | .seqPush => s.trySeqPush
  | .regWrite i d => s.regWrite i d
  | .regRead i => s.regRead i
  | .presentDiag => s.presentDiag

/-- An event always completes (60_exceptions.md R269). -/
theorem State.event_next (e : Event) (s : State) : s.event e = .next (s.after e) := by
  cases e <;> first | rfl | exact s.sampleStep_next

/-- The state after a clock cycle with `rst` low, but for `busy` (46_engine_step.md R246). -/
def State.cycled (c : CycleIn) (s : State) : State :=
  (if c.sampleTick then (s.cycleRegs c).sampled else s.cycleRegs c).cyclePushes c s.cmdReady s.seqPushEnabled

/-- What a clock cycle does: a reset, the missed deadline, or its events (46_engine_step.md R246, R247). -/
theorem State.cycle_eq (c : CycleIn) (s : State) :
    s.cycle c =
      if c.rst then .next s.resetBlock
      else if c.sampleTick && decide (0 < s.busy) then .fault .sampleTickDuringStep
      else .next { s.cycled c with busy := s.busyAfter c } := by
  unfold State.cycle State.cycled
  split
  · rfl
  · split
    · rfl
    · cases c.sampleTick <;> simp [State.sampleStep_next]

/-- The inversion of a step: with nothing scheduled the pulses end, an event completes, a cycle resets or runs its
events. -/
theorem step_cases {s t : State} (h : step s = .next t) :
    (s.inputs = [] ∧ t = s.quiet) ∨
    (∃ e rest, s.inputs = .event e :: rest ∧ t = (s.taken rest).after e) ∨
    (∃ c rest, s.inputs = .cycle c :: rest ∧ c.rst = true ∧ t = (s.taken rest).resetBlock) ∨
    (∃ c rest, s.inputs = .cycle c :: rest ∧ c.rst = false ∧ ¬ (c.sampleTick = true ∧ 0 < s.busy) ∧
      t = { (s.taken rest).cycled c with busy := s.busyAfter c }) := by
  unfold step at h
  split at h
  · next hi => exact .inl ⟨hi, by simpa using h.symm⟩
  · next i rest hi =>
    cases i with
    | event e => exact .inr (.inl ⟨e, rest, hi, by simpa [State.input, State.event_next] using h.symm⟩)
    | cycle c =>
      simp only [State.input, State.cycle_eq] at h
      split at h
      · next hr => exact .inr (.inr (.inl ⟨c, rest, hi, hr, by simpa using h.symm⟩))
      · next hr =>
        split at h
        · cases h
        · next hd =>
          exact .inr (.inr (.inr ⟨c, rest, hi, by simpa using hr, fun e => hd (by simp [e.1, e.2]),
            (Host.Outcome.next.inj h).symm⟩))

/-- The step whose next entry is an event. -/
theorem step_event {s : State} {e : Event} {rest : List Input} (h : s.inputs = .event e :: rest) :
    step s = .next ((s.taken rest).after e) := by
  rw [step, h]; exact State.event_next e (s.taken rest)

/-- The step whose next entry is a clock cycle. -/
theorem step_cycle {s : State} {c : CycleIn} {rest : List Input} (h : s.inputs = .cycle c :: rest) :
    step s = (s.taken rest).cycle c := by rw [step, h]; rfl

/-- A sample step with nothing to pop only renders (46_engine_step.md R241). -/
theorem step_silent {s : State} {rest : List Input} (h : s.inputs = .event .sampleStep :: rest) (hf : s.fifo = []) :
    step s = .next (s.taken rest).render := by
  rw [step_event h]
  show Host.Outcome.next (s.taken rest).sampled = _
  rcases (s.taken rest).sampled_cases with ⟨-, h⟩ | ⟨_, _, e, -⟩ | ⟨_, _, _, e, -⟩
  · rw [h]
  · simp [hf] at e
  · simp [hf] at e

/-- Running past a step that goes on. -/
theorem run_succ {s t : State} (h : step s = .next t) (k : Nat) : Sys2Proof.core.run (k + 1) s = Sys2Proof.core.run k t := by
  have key (M : Host.Core) {s t : M.State} (h : M.step s = .next t) : M.run (k + 1) s = M.run k t := by
    simp only [Host.Core.run, h]
  exact key Sys2Proof.core h

/-! ## What the events leave alone -/

@[simp] theorem State.presentDiag_params (s : State) : s.presentDiag.params = s.params := by
  unfold State.presentDiag; split <;> rfl
@[simp] theorem State.presentDiag_roots (s : State) : s.presentDiag.roots = s.roots := by
  unfold State.presentDiag; split <;> rfl
@[simp] theorem State.presentDiag_seq (s : State) : s.presentDiag.seq = s.seq := by
  unfold State.presentDiag; split <;> rfl
@[simp] theorem State.presentDiag_fifo (s : State) : s.presentDiag.fifo = s.fifo := by
  unfold State.presentDiag; split <;> rfl
@[simp] theorem State.presentDiag_status (s : State) : s.presentDiag.status = s.status := by
  unfold State.presentDiag; split <;> rfl
@[simp] theorem State.presentDiag_inputs (s : State) : s.presentDiag.inputs = s.inputs := by
  unfold State.presentDiag; split <;> rfl
@[simp] theorem State.presentDiag_busy (s : State) : s.presentDiag.busy = s.busy := by
  unfold State.presentDiag; split <;> rfl

@[simp] theorem State.regWrite_params (i : RegIndex) (d : Word) (s : State) : (s.regWrite i d).params = s.params := by
  unfold State.regWrite; split <;> rfl
@[simp] theorem State.regWrite_fifo (i : RegIndex) (d : Word) (s : State) : (s.regWrite i d).fifo = s.fifo := by
  unfold State.regWrite; split <;> rfl
@[simp] theorem State.regWrite_inputs (i : RegIndex) (d : Word) (s : State) : (s.regWrite i d).inputs = s.inputs := by
  unfold State.regWrite; split <;> rfl
@[simp] theorem State.regWrite_busy (i : RegIndex) (d : Word) (s : State) : (s.regWrite i d).busy = s.busy := by
  unfold State.regWrite; split <;> rfl
/-- No register write touches the beats that wait in `seqbuf` (45_sequencer.md R214). -/
@[simp] theorem State.regWrite_seqbuf (i : RegIndex) (d : Word) (s : State) :
    (s.regWrite i d).seq.seqbuf = s.seq.seqbuf := by
  unfold State.regWrite; split <;> first | rfl | exact Sequencer.command_seqbuf _ _

@[simp] theorem State.sampled_params (s : State) : s.sampled.params = s.params := by
  rcases s.sampled_cases with ⟨-, h⟩ | ⟨_, _, -, -, h⟩ | ⟨_, _, _, -, -, h⟩ <;> rw [h] <;> simp
@[simp] theorem State.sampled_seq (s : State) : s.sampled.seq = s.seq := by
  rcases s.sampled_cases with ⟨-, h⟩ | ⟨_, _, -, -, h⟩ | ⟨_, _, _, -, -, h⟩ <;> rw [h] <;> simp
@[simp] theorem State.sampled_inputs (s : State) : s.sampled.inputs = s.inputs := by
  rcases s.sampled_cases with ⟨-, h⟩ | ⟨_, _, -, -, h⟩ | ⟨_, _, _, -, -, h⟩ <;> rw [h] <;> simp
@[simp] theorem State.sampled_busy (s : State) : s.sampled.busy = s.busy := by
  rcases s.sampled_cases with ⟨-, h⟩ | ⟨_, _, -, -, h⟩ | ⟨_, _, _, -, -, h⟩ <;> rw [h] <;> simp
/-- A sample step takes the head beat and no other (20_memory.md R84). -/
@[simp] theorem State.sampled_fifo (s : State) : s.sampled.fifo = s.fifo.drop 1 := by
  rcases s.sampled_cases with ⟨e, h⟩ | ⟨_, _, e, -, h⟩ | ⟨_, _, _, e, -, h⟩ <;> rw [h] <;> simp [e]

@[simp] theorem State.cycleRegs_params (c : CycleIn) (s : State) : (s.cycleRegs c).params = s.params := by
  simp only [State.cycleRegs]; split_ifs <;> simp
@[simp] theorem State.cycleRegs_fifo (c : CycleIn) (s : State) : (s.cycleRegs c).fifo = s.fifo := by
  simp only [State.cycleRegs]; split_ifs <;> simp
@[simp] theorem State.cycleRegs_seqbuf (c : CycleIn) (s : State) : (s.cycleRegs c).seq.seqbuf = s.seq.seqbuf := by
  simp only [State.cycleRegs]; split_ifs <;> simp

/-! ## A clock cycle as its events -/

/-- Enabledness of the pushes at the start of a cycle still holds when their turn comes (46_engine_step.md R246): the
earlier events leave `seqbuf` as it was and can only shorten the channel. -/
theorem State.hasRoom_of_shorter {s t : State} (hp : t.params = s.params) (hf : t.fifo.length ≤ s.fifo.length)
    (h : s.hasRoom = true) : t.hasRoom = true := by
  simp only [State.hasRoom, decide_eq_true_eq, hp] at *; omega

/-- The pushes of a cycle, enabled by the state `s` at its start, on a state `m` that the earlier events have made. -/
theorem State.cyclePushes_eq_foldl (c : CycleIn) {s m : State} (hp : m.params = s.params)
    (hf : m.fifo.length ≤ s.fifo.length) (hb : m.seq.seqbuf = s.seq.seqbuf) :
    m.cyclePushes c s.cmdReady s.seqPushEnabled =
      ((if c.cmdValid && s.cmdReady then [Event.hostPush c.cmdAddr c.cmdWord] else [])
        ++ (if s.seqPushEnabled then [Event.seqPush] else [])
        ++ (if c.seqTick then [Event.seqTick] else [])).foldl (fun x e => x.after e) m := by
  have host : s.cmdReady = true → m.hostPush c.cmdAddr c.cmdWord = m.fifoPush (m.portBeat c.cmdAddr c.cmdWord) := by
    intro h
    have : m.cmdReady = true := by
      simp only [State.cmdReady, Bool.and_eq_true] at *
      exact ⟨State.hasRoom_of_shorter hp hf h.1, hb ▸ h.2⟩
    simp [State.hostPush, this]
  have push : s.seqPushEnabled = true → m.trySeqPush = m.seqPush := by
    intro h
    have : m.seqPushEnabled = true := by
      simp only [State.seqPushEnabled, Bool.and_eq_true] at *
      exact ⟨hb ▸ h.1, State.hasRoom_of_shorter hp hf h.2⟩
    simp [State.trySeqPush, this]
  have both : s.cmdReady = true → s.seqPushEnabled = false := by
    intro h
    simp only [State.cmdReady, State.seqPushEnabled, Bool.and_eq_true] at *
    simp [h.2]
  simp only [State.cyclePushes]
  cases h1 : s.cmdReady
  · cases h2 : s.seqPushEnabled
    · cases c.seqTick <;> simp [State.after]
    · cases c.seqTick <;> simp [State.after, push h2]
  · rw [both h1]
    cases c.cmdValid <;> cases c.seqTick <;> simp [State.after, host h1]

/-- A clock cycle is its events one after another. -/
theorem State.cycled_eq_foldl (c : CycleIn) (s : State) :
    s.cycled c = (cycleEvents c s).foldl (fun x e => x.after e) s := by
  have regs : s.cycleRegs c = ((if c.diagSlot then [Event.presentDiag] else [])
      ++ (if c.regWe then [Event.regWrite c.regIndex c.regWdata] else [])
      ++ (if c.regRe then [Event.regRead c.regIndex] else [])).foldl (fun x e => x.after e) s := by
    simp only [State.cycleRegs]
    cases c.diagSlot <;> cases c.regWe <;> cases c.regRe <;> rfl
  have sampled : (if c.sampleTick then (s.cycleRegs c).sampled else s.cycleRegs c)
      = (if c.sampleTick then [Event.sampleStep] else []).foldl (fun x e => x.after e) (s.cycleRegs c) := by
    cases c.sampleTick <;> rfl
  unfold State.cycled cycleEvents
  rw [State.cyclePushes_eq_foldl c (by split <;> simp) (by split <;> simp) (by split <;> simp), sampled, regs]
  simp only [List.foldl_append, List.append_assoc]

/-- May an entry of the schedule make this event act? -/
def Input.mayRun (i : Input) : Event → Prop
  | .reset => i.resets = true
  | .sampleStep => i.samples = true
  | .hostPush _ _ => i.pushes = true
  | .regWrite x d => i.writes = some (x, d)
  | .presentDiag => i.presents = true
  | .seqTick | .seqPush | .regRead _ => True

/-- The events of a cycle are those that its pins ask for. -/
theorem cycleEvents_mayRun {c : CycleIn} (hr : c.rst = false) (s : State) :
    ∀ e ∈ cycleEvents c s, (Input.cycle c).mayRun e := by
  intro e he
  simp only [cycleEvents, List.mem_append] at he
  have pick : ∀ {b : Bool} {x : Event}, e ∈ (if b = true then [x] else []) → b = true ∧ e = x := fun h => by
    split at h <;> simp_all
  rcases he with (((((he | he) | he) | he) | he) | he) | he <;> obtain ⟨hb, rfl⟩ := pick he <;>
    simp_all [Input.mayRun, Input.samples, Input.pushes, Input.writes, Input.presents]

/-- What a step with something scheduled does: it runs events that its entry asks for, one after another, on the state
from which the entry is taken, and sets `busy`. -/
theorem step_runs {s t : State} {i : Input} {rest : List Input} (hi : s.inputs = i :: rest) (h : step s = .next t) :
    ∃ (es : List Event) (n : Nat), (∀ e ∈ es, i.mayRun e) ∧
      t = { es.foldl (fun x e => x.after e) (s.taken rest) with busy := n } := by
  have one : ∀ e, i.mayRun e → t = (s.taken rest).after e → ∃ (es : List Event) (n : Nat), (∀ e ∈ es, i.mayRun e) ∧
      t = { es.foldl (fun x e => x.after e) (s.taken rest) with busy := n } :=
    fun e he ht => ⟨[e], t.busy, fun f hf => List.mem_singleton.mp hf ▸ he, by subst ht; rfl⟩
  rcases step_cases h with ⟨h', -⟩ | ⟨e, rest', h', ht⟩ | ⟨c, rest', h', hr, ht⟩ | ⟨c, rest', h', hr, -, ht⟩ <;>
    rw [hi] at h'
  · cases h'
  · cases h'
    exact one e (by cases e <;> simp [Input.mayRun, Input.resets, Input.samples, Input.pushes, Input.writes,
      Input.presents]) ht
  · cases h'; exact one .reset hr ht
  · cases h'; exact ⟨_, _, cycleEvents_mayRun hr _, by rw [ht, State.cycled_eq_foldl]⟩

/-- What events that keep `P` keep, a run of them keeps. -/
theorem foldl_after_keeps {P : State → Prop} : ∀ (es : List Event) (x : State),
    (∀ (y : State), ∀ e ∈ es, P y → P (y.after e)) → P x → P (es.foldl (fun x e => x.after e) x)
  | [], _, _, hx => hx
  | e :: es, x, h, hx => foldl_after_keeps es _ (fun y f hf => h y f (List.mem_cons_of_mem _ hf))
      (h x e (List.mem_cons_self ..) hx)

/-- A property that the start of a step, `busy` and every event that the entry may run keep is kept by the step. -/
theorem step_keeps_of {P : State → Prop} {s t : State} (hquiet : P s → P s.quiet)
    (htaken : ∀ rest, P s → P (s.taken rest)) (hbusy : ∀ (x : State) (n : Nat), P x → P { x with busy := n })
    (hafter : ∀ i rest, s.inputs = i :: rest → ∀ (x : State) (e : Event), i.mayRun e → P x → P (x.after e))
    (h : step s = .next t) (hs : P s) : P t := by
  rcases hi : s.inputs with _ | ⟨i, rest⟩
  · rw [step, hi] at h; exact Host.Outcome.next.inj h ▸ hquiet hs
  · obtain ⟨es, n, he, rfl⟩ := step_runs hi h
    exact hbusy _ _ (foldl_after_keeps es _ (fun y e hm => hafter i rest hi y e (he e hm)) (htaken rest hs))

/-- A property that the start of a step, `busy` and every atomic event keep is kept by every step. -/
theorem step_keeps {P : State → Prop} (hquiet : ∀ s : State, P s → P s.quiet)
    (htaken : ∀ (s : State) (rest : List Input), P s → P (s.taken rest))
    (hbusy : ∀ (s : State) (n : Nat), P s → P { s with busy := n })
    (hafter : ∀ (s : State) (e : Event), P s → P (s.after e)) {s t : State} (h : step s = .next t) (hs : P s) : P t :=
  step_keeps_of (hquiet s) (htaken s) hbusy (fun _ _ _ x e _ => hafter x e) h hs

/-! ## What is reported and presented -/

/-- No event but a reset and a presentation touches `diag_valid`, and what is reported waits behind what waits already
(60_exceptions.md R261). -/
theorem State.after_diagnostics (e : Event) (hr : e ≠ .reset) (hp : e ≠ .presentDiag) (s : State) :
    (s.after e).diagOut = s.diagOut ∧ ∃ added : List Diag, (s.after e).trace = s.trace ++ added := by
  cases e with
  | reset => exact absurd rfl hr
  | presentDiag => exact absurd rfl hp
  | sampleStep =>
    show s.sampled.diagOut = s.diagOut ∧ ∃ added, s.sampled.trace = s.trace ++ added
    rcases s.sampled_cases with ⟨-, h⟩ | ⟨_, _, -, -, h⟩ | ⟨_, _, _, -, -, h⟩ <;> rw [h]
    · exact ⟨rfl, [], by simp⟩
    · exact ⟨rfl, _, rfl⟩
    · exact ⟨rfl, _, rfl⟩
  | hostPush a w => simp only [State.after, State.hostPush]; split <;> exact ⟨rfl, [], by simp⟩
  | seqTick =>
    simp only [State.after, State.seqTick]; split
    · exact ⟨rfl, [], by simp⟩
    · exact ⟨rfl, _, rfl⟩
  | seqPush =>
    simp only [State.after, State.trySeqPush, State.seqPush]; split
    · split <;> exact ⟨rfl, [], by simp⟩
    · exact ⟨rfl, [], by simp⟩
  | regWrite i d => simp only [State.after, State.regWrite]; split <;> exact ⟨rfl, [], by simp⟩
  | regRead i => exact ⟨rfl, [], by simp [State.after]⟩

theorem foldl_after_diagnostics (es : List Event) (x : State) (h : ∀ e ∈ es, e ≠ .reset ∧ e ≠ .presentDiag) :
    (es.foldl (fun x e => x.after e) x).diagOut = x.diagOut ∧
      ∃ added : List Diag, (es.foldl (fun x e => x.after e) x).trace = x.trace ++ added := by
  refine foldl_after_keeps (P := fun y => y.diagOut = x.diagOut ∧ ∃ added : List Diag, y.trace = x.trace ++ added) es x
    (fun y e he hy => ?_) ⟨rfl, [], by simp⟩
  obtain ⟨h1, added, h2⟩ := State.after_diagnostics e (h e he).1 (h e he).2 y
  obtain ⟨h3, before, h4⟩ := hy
  exact ⟨h1.trans h3, before ++ added, by rw [h2, h4, List.append_assoc]⟩

/-- Presenting shows the oldest waiting code, if one waits, and takes it from the trace. -/
theorem State.presentDiag_shows (s : State) (h : s.diagOut = none) :
    s.presentDiag.diagOut = s.trace.head? ∧ s.presentDiag.trace = s.trace.drop 1 := by
  unfold State.presentDiag; split <;> simp_all

end Sys2Proof.Machine
end

