-- ==== Sys2Proof/Laws/Dispatch.lean ====
section
/-! SUPPORT. What delivering a command does: the address test once for every kind (41_command.md R124, R125), a command
that reaches one root or none, and the diagnostics it raises. -/

namespace Sys2Proof.Machine

theorem addrMatch_iff {a u : Addr} : addrMatch a u = true ↔ a &&& u ≠ 0 := by simp [addrMatch]

theorem addrMatch_false_iff {a u : Addr} : addrMatch a u = false ↔ a &&& u = 0 := by simp [addrMatch]

/-- A command whose address does not reach a root leaves it and reports nothing (R125). -/
theorem Synth.runCommand_of_not_match (cfg : Params) {a : Addr} (c : Instr) {t : Synth} (h : a &&& t.addr = 0) :
    t.runCommand cfg a c = (t, []) := by
  cases t <;> simp_all [Synth.runCommand, Synth.addr, addrMatch]

/-- A command whose address reaches a root that is no WithEffect is received (R125). -/
theorem Synth.runCommand_of_match (cfg : Params) {a : Addr} (c : Instr) {t : Synth} (h : a &&& t.addr ≠ 0)
    (ht : ∀ s e, t ≠ .withEffect s e) : t.runCommand cfg a c = t.receive cfg c := by
  cases t <;> simp_all [Synth.runCommand, Synth.addr, addrMatch]

theorem map_runCommand_of_not_match (cfg : Params) {a : Addr} (c : Instr) {rs : List Synth}
    (h : ∀ q ∈ rs, a &&& q.addr = 0) : rs.map (fun r => (r.runCommand cfg a c).1) = rs := by
  rw [List.map_congr_left (fun r hr => by rw [Synth.runCommand_of_not_match cfg c (h r hr)]), List.map_id']

theorem flatMap_runCommand_of_not_match (cfg : Params) {a : Addr} (c : Instr) {rs : List Synth}
    (h : ∀ q ∈ rs, a &&& q.addr = 0) : rs.flatMap (fun r => (r.runCommand cfg a c).2) = [] := by
  rw [List.flatMap_eq_nil_iff]
  exact fun r hr => by rw [Synth.runCommand_of_not_match cfg c (h r hr)]

/-- Nothing raised is nothing written (60_exceptions.md R261). -/
@[simp] theorem State.emit_nil (s : State) : s.emit [] = s := by simp [State.emit, statusAfter]

/-- A command that reaches no root changes nothing (R125). -/
theorem State.dispatch_unmatched (c : Instr) {s : State} (h : ∀ r ∈ s.roots, s.beatAddr &&& r.addr = 0) :
    s.dispatch c = s := by
  rw [State.dispatch, map_runCommand_of_not_match _ _ h, flatMap_runCommand_of_not_match _ _ h]
  exact s.emit_nil

/-- A command that reaches one root: what that root makes of it is the whole effect (44_poly_and_mix.md R201). -/
theorem State.dispatch_reachesOnly (c : Instr) {s : State} {before after : List Synth} {r : Synth}
    (h : s.ReachesOnly before r after) :
    s.dispatch c = { s with
      roots := before ++ (r.runCommand s.params s.beatAddr c).1 :: after,
      status := statusAfter s.status (r.runCommand s.params s.beatAddr c).2,
      trace := s.trace ++ (r.runCommand s.params s.beatAddr c).2 } := by
  obtain ⟨hr, -, hb, ha⟩ := h
  simp only [State.dispatch, State.emit]
  rw [hr, List.map_append, List.map_cons, List.flatMap_append, List.flatMap_cons,
    map_runCommand_of_not_match _ _ hb, map_runCommand_of_not_match _ _ ha,
    flatMap_runCommand_of_not_match _ _ hb, flatMap_runCommand_of_not_match _ _ ha]
  simp

/-- The same for a root that is no WithEffect, in terms of what its kind does (41_command.md R127, R128). -/
theorem exec_reachesOnly (c : Instr) {s : State} {before after : List Synth} {r : Synth}
    (h : s.ReachesOnly before r after) (hr : ∀ t e, r ≠ .withEffect t e) :
    exec c s = .next { s with
      roots := before ++ (r.receive s.params c).1 :: after,
      status := statusAfter s.status (r.receive s.params c).2,
      trace := s.trace ++ (r.receive s.params c).2 } := by
  rw [exec_eq, State.dispatch_reachesOnly c h, Synth.runCommand_of_match _ _ h.2.1 hr]

/-- Sticky: STATUS bits are only set by diagnostics (60_exceptions.md R261). -/
theorem and_statusAfter (st : BitVec 5) (ks : List Diag) : statusAfter st ks &&& st = st := by
  induction ks generalizing st with
  | nil => simp [statusAfter]
  | cons k ks ih =>
    have h := ih (st ||| k.bit)
    rw [show statusAfter st (k :: ks) = statusAfter (st ||| k.bit) ks from rfl]
    apply BitVec.eq_of_getLsbD_eq
    intro i hi
    have hb := congrArg (fun x => x.getLsbD i) h
    simp only [BitVec.getLsbD_and, BitVec.getLsbD_or] at hb ⊢
    revert hb
    cases (statusAfter (st ||| k.bit) ks).getLsbD i <;> cases st.getLsbD i <;> simp

mutual
/-- A Play raises at most one diagnostic in a tree of any shape (60_exceptions.md R261). -/
theorem Synth.play_diags (cfg : Params) (p : Pitch) (vel scale : U44) :
    ∀ t : Synth, (t.play cfg p vel scale).2.length ≤ 1
  | .sine u => by
    simp only [Synth.play, SineUnit.play]; split; · simp
    split <;> simp
  | .saw u => by
    simp only [Synth.play, SawUnit.play]; split; · simp
    split <;> simp
  | .sample _ => by simp [Synth.play]
  | .drum _ _ _ _ => by simp only [Synth.play, drumPlay]; split_ifs <;> simp
  | .poly _ voices => by
    simp only [Synth.play]; split
    · simp
    · exact Voices.playAt_diags cfg p vel scale _ voices
  | .withEffect synth _ => Synth.play_diags cfg p vel scale synth
@[inherit_doc Synth.play_diags]
theorem Voices.playAt_diags (cfg : Params) (p : Pitch) (vel scale : U44) :
    ∀ (k : Nat) (vs : Voices), (vs.playAt cfg p vel scale k).2.length ≤ 1
  | _, .nil => by simp [Voices.playAt]
  | 0, .cons _ voice _ => by rw [Voices.playAt]; exact Synth.play_diags cfg p vel scale voice
  | k + 1, .cons _ _ rest => by rw [Voices.playAt]; exact Voices.playAt_diags cfg p vel scale k rest
end

theorem Synth.receive_diags (cfg : Params) (c : Instr) (t : Synth) : (t.receive cfg c).2.length ≤ 1 := by
  cases c with
  | play p vel scale => exact Synth.play_diags cfg p vel scale t
  | setAttack _ _ => simp [Synth.receive]

/-- A command raises at most one diagnostic at each root (60_exceptions.md R261). -/
theorem Synth.runCommand_diags (cfg : Params) (a : Addr) (c : Instr) :
    ∀ t : Synth, (t.runCommand cfg a c).2.length ≤ 1
  | .sine _ => by unfold Synth.runCommand; split; exacts [Synth.receive_diags cfg c _, by simp]
  | .saw _ => by unfold Synth.runCommand; split; exacts [Synth.receive_diags cfg c _, by simp]
  | .sample _ => by unfold Synth.runCommand; split; exacts [Synth.receive_diags cfg c _, by simp]
  | .drum _ _ _ _ => by unfold Synth.runCommand; split; exacts [Synth.receive_diags cfg c _, by simp]
  | .poly _ _ => by unfold Synth.runCommand; split; exacts [Synth.receive_diags cfg c _, by simp]
  | .withEffect synth _ => by
    unfold Synth.runCommand; split
    · exact Synth.runCommand_diags cfg a c synth
    · simp

end Sys2Proof.Machine
end

