-- ==== Sys2Proof/Laws/Registers.lean ====
section
/-! SUPPORT. The register map by index (10_state.md R46, R50 to R52), the writes that reach one unit, and the settings
record as a word. -/

namespace Sys2Proof.Machine

theorem unitCfgIndex_toNat {u : Nat} (h : u < 256) : (BitVec.ofNat 12 (0x100 + u)).toNat = 0x100 + u := by
  rw [BitVec.toNat_ofNat, Nat.mod_eq_of_lt (by omega)]

theorem bendIndex_toNat {u : Nat} (h : u < 256) : (BitVec.ofNat 12 (0x200 + u)).toNat = 0x200 + u := by
  rw [BitVec.toNat_ofNat, Nat.mod_eq_of_lt (by omega)]

/-- Above the fixed registers an index is a unit's register or nothing. -/
theorem regAt_high (n : Nat) {i : RegIndex} (h : 8 < i.toNat) :
    regAt n i =
      if 0x100 ≤ i.toNat ∧ i.toNat < 0x200 ∧ i.toNat - 0x100 < n then .unitCfg (i.toNat - 0x100)
      else if 0x200 ≤ i.toNat ∧ i.toNat < 0x300 ∧ i.toNat - 0x200 < n then .bend (i.toNat - 0x200)
      else .unmapped := by
  unfold regAt
  split <;> first | rfl | omega

theorem regAt_unitCfg {n u : Nat} (hu : u < n) (h : u < 256) : regAt n (BitVec.ofNat 12 (0x100 + u)) = .unitCfg u := by
  rw [regAt_high _ (by rw [unitCfgIndex_toNat h]; omega), unitCfgIndex_toNat h,
    if_pos ⟨by omega, by omega, by omega⟩, Nat.add_sub_cancel_left]

theorem regAt_bend {n u : Nat} (hu : u < n) (h : u < 256) : regAt n (BitVec.ofNat 12 (0x200 + u)) = .bend u := by
  rw [regAt_high _ (by rw [bendIndex_toNat h]; omega), bendIndex_toNat h, if_neg (by omega),
    if_pos ⟨by omega, by omega, by omega⟩, Nat.add_sub_cancel_left]

/-- Only index 6 is STATUS (R46). -/
theorem regAt_eq_status {n : Nat} {i : RegIndex} (h : regAt n i = .status) : i = 0x006 := by
  unfold regAt at h
  split at h <;> first | (cases h; done) | skip
  · next he => exact BitVec.eq_of_toNat_eq he
  · split_ifs at h

/-- Only indices of the range 0x100..0x1FF are UNIT_CFG registers (R46). -/
theorem regAt_eq_unitCfg {n u : Nat} {i : RegIndex} (h : regAt n i = .unitCfg u) : 0x100 ≤ i.toNat ∧ i.toNat < 0x200 := by
  unfold regAt at h
  split at h <;> first | (cases h; done) | skip
  split_ifs at h with h1
  exact ⟨h1.1, h1.2.1⟩

/-- A write to a unit keeps the number of units (R32). -/
theorem writeRoots_size (w : UnitWrite) (k : Nat) (rs : List Synth) :
    ((writeRoots w k rs).map Synth.size).sum = (rs.map Synth.size).sum := by
  have := congrArg List.length (writeRoots_units w k rs)
  simpa [List.length_flatMap] using this

theorem State.regWrite_unitCfg {s : State} {u : Nat} (hu : u < s.numUnits) (h : u < 256) (d : Word) :
    s.regWrite (BitVec.ofNat 12 (0x100 + u)) d = { s with roots := writeRoots (.configure d) u s.roots } := by
  rw [State.regWrite, regAt_unitCfg hu h]

theorem State.regWrite_bend {s : State} {u : Nat} (hu : u < s.numUnits) (h : u < 256) (d : Word) :
    s.regWrite (BitVec.ofNat 12 (0x200 + u)) d = { s with roots := writeRoots (.bend d) u s.roots } := by
  rw [State.regWrite, regAt_bend hu h]

/-- A settings record of 16 and 15 bits reads back with bit 15 clear (R50). -/
theorem cfgWord_fields (d : Word) : cfgWord (d.extractLsb' 16 16) (d.extractLsb' 0 15) = d &&& 0xFFFF7FFF#32 := by
  apply BitVec.eq_of_getLsbD_eq; intro i hi
  simp only [cfgWord, BitVec.getLsbD_append, BitVec.getLsbD_extractLsb', BitVec.getLsbD_and]
  interval_cases i <;> simp

/-- A record of 15 bits reads back with the others clear (R50). -/
theorem cfgWord_coeff (d : Word) : cfgWord 0 (d.extractLsb' 0 15) = d &&& 0x00007FFF#32 := by
  apply BitVec.eq_of_getLsbD_eq; intro i hi
  simp only [cfgWord, BitVec.getLsbD_append, BitVec.getLsbD_extractLsb', BitVec.getLsbD_and]
  interval_cases i <;> simp

end Sys2Proof.Machine
end

