-- ==== Sys2Proof/Laws/Frames.lean ====
section
/-! SUPPORT. What a Play, a SetAttack and a sample leave alone in the units of a tree (10_state.md section 5,
41_command.md R127, R128), unit by unit of the pre-order walk. -/

namespace Sys2Proof.Machine

/-! ## What a Play leaves -/

theorem map_const_none (l : List (Option Pitch)) :
    l.map (fun _ => (none : Option Pitch)) = List.replicate l.length none := by
  induction l with
  | nil => rfl
  | cons _ _ ih => simp [ih, List.replicate_succ]

/-- A Sample unit under a Play (R169). -/
theorem SampleUnit.unplayed_play (vel scale : U44) (u : SampleUnit) :
    UnitView.unplayed (.sample (u.play vel scale)) = UnitView.unplayed (.sample u) := by
  simp only [SampleUnit.play]; split <;> rfl

/-- An effect under a Play (41_command.md R126). -/
theorem Effect.unplayed_play (vel : U44) (e : Effect) : (e.play vel).view.unplayed = e.view.unplayed := by
  cases e <;> simp only [Effect.play, Effect.view, LinDecayUnit.play, ExpDecayUnit.play, LpfUnit.play] <;> (try split) <;> rfl

/-- The three voices of a Drum under a Play (R172). -/
theorem drumPlay_unplayed (cfg : Params) (p : Pitch) (vel scale : U44) (d : DrumVoices) :
    UnitView.unplayed (.sample (drumPlay cfg p vel scale d).1.kick) = UnitView.unplayed (.sample d.kick) ∧
    UnitView.unplayed (.sample (drumPlay cfg p vel scale d).1.snare) = UnitView.unplayed (.sample d.snare) ∧
    UnitView.unplayed (.sample (drumPlay cfg p vel scale d).1.hat) = UnitView.unplayed (.sample d.hat) := by
  simp only [drumPlay]
  split_ifs <;> refine ⟨?_, ?_, ?_⟩ <;> first | rfl | exact SampleUnit.unplayed_play _ _ _

theorem Voices.playAt_slots_length (cfg : Params) (p : Pitch) (vel scale : U44) (k : Nat) (vs : Voices) :
    (vs.playAt cfg p vel scale k).1.slots.length = vs.slots.length := by
  rw [Voices.slots_eq, Voices.slots_eq, List.length_map, List.length_map, Voices.playAt_toList, List.length_modify]

mutual
/-- A Play writes only the fields that `unplayed` hides, in every unit of a tree (41_command.md R127). -/
theorem Synth.unplayed_play (cfg : Params) (p : Pitch) (vel scale : U44) :
    ∀ t : Synth, (t.play cfg p vel scale).1.units.map UnitView.unplayed = t.units.map UnitView.unplayed
  | .sine u => by
    simp only [Synth.play, Synth.units, SineUnit.play]
    split
    · rfl
    · split <;> rfl
  | .saw u => by
    simp only [Synth.play, Synth.units, SawUnit.play]
    split
    · rfl
    · split <;> rfl
  | .sample u => by simp only [Synth.play, Synth.units, List.map_cons, SampleUnit.unplayed_play]
  | .drum a k s h => by
    have := drumPlay_unplayed cfg p vel scale ⟨k, s, h⟩
    simp only [Synth.play, Synth.units, List.map_cons, this]
  | .poly a voices => by
    simp only [Synth.play]
    split
    · rfl
    · next k _ =>
      simp only [Synth.units, List.map_cons, Voices.unplayed_playAt cfg p vel scale k voices, UnitView.unplayed,
        map_const_none, Voices.playAt_slots_length]
  | .withEffect synth effect => by
    simp only [Synth.play, Synth.units, List.map_cons, List.map_append, Synth.unplayed_play cfg p vel scale synth,
      Effect.unplayed_play, List.map_nil]
@[inherit_doc Synth.unplayed_play]
theorem Voices.unplayed_playAt (cfg : Params) (p : Pitch) (vel scale : U44) :
    ∀ (k : Nat) (vs : Voices), (vs.playAt cfg p vel scale k).1.units.map UnitView.unplayed = vs.units.map UnitView.unplayed
  | _, .nil => by simp only [Voices.playAt]
  | 0, .cons _ voice _ => by
    simp only [Voices.playAt, Voices.units, List.map_append, Synth.unplayed_play cfg p vel scale voice]
  | k + 1, .cons _ _ rest => by
    simp only [Voices.playAt, Voices.units, List.map_append, Voices.unplayed_playAt cfg p vel scale k rest]
end

/-- The same for a Play offered with an address (R125). -/
theorem Synth.unplayed_runCommand (cfg : Params) (a : Addr) (p : Pitch) (vel scale : U44) :
    ∀ t : Synth, (t.runCommand cfg a (.play p vel scale)).1.units.map UnitView.unplayed = t.units.map UnitView.unplayed
  | .sine u => by unfold Synth.runCommand; split; exacts [Synth.unplayed_play cfg p vel scale _, rfl]
  | .saw u => by unfold Synth.runCommand; split; exacts [Synth.unplayed_play cfg p vel scale _, rfl]
  | .sample u => by unfold Synth.runCommand; split; exacts [Synth.unplayed_play cfg p vel scale _, rfl]
  | .drum _ _ _ _ => by unfold Synth.runCommand; split; exacts [Synth.unplayed_play cfg p vel scale _, rfl]
  | .poly _ _ => by unfold Synth.runCommand; split; exacts [Synth.unplayed_play cfg p vel scale _, rfl]
  | .withEffect synth effect => by
    unfold Synth.runCommand; split
    · simp only [Synth.units, List.map_cons, List.map_append, Synth.unplayed_runCommand cfg a p vel scale synth, List.map_nil]
      unfold Effect.runCommand; split
      · simp only [Effect.unplayed_play]
      · rfl
    · rfl

/-! ## What a SetAttack leaves -/

theorem SameButAttack.refl (g : U88) (u : UnitView) : UnitView.SameButAttack g u u := by
  cases u <;> simp [UnitView.SameButAttack]
theorem SameButAttack.refl_list (g : U88) : ∀ l : List UnitView, List.Forall₂ (UnitView.SameButAttack g) l l
  | [] => .nil
  | u :: l => .cons (SameButAttack.refl g u) (SameButAttack.refl_list g l)
mutual
/-- An attack writes only Sine attack gains (41_command.md R128). -/
theorem Synth.sameButAttack_attack (vel scale : U44) :
    ∀ t : Synth, List.Forall₂ (UnitView.SameButAttack (gainOf vel scale)) t.units (t.attack vel scale).units
  | .sine u => .cons (.inr rfl) .nil
  | .saw u => SameButAttack.refl_list _ _
  | .sample u => SameButAttack.refl_list _ _
  | .drum a k s h => SameButAttack.refl_list _ _
  | .poly a voices => by
    simp only [Synth.attack, Synth.units, Voices.slots_attack]
    exact .cons (SameButAttack.refl _ _) (Voices.sameButAttack_attack vel scale voices)
  | .withEffect synth effect =>
    .cons (SameButAttack.refl _ _) (List.rel_append (Synth.sameButAttack_attack vel scale synth) (SameButAttack.refl_list _ _))
@[inherit_doc Synth.sameButAttack_attack]
theorem Voices.sameButAttack_attack (vel scale : U44) :
    ∀ vs : Voices, List.Forall₂ (UnitView.SameButAttack (gainOf vel scale)) vs.units (vs.attack vel scale).units
  | .nil => .nil
  | .cons _ voice rest => List.rel_append (Synth.sameButAttack_attack vel scale voice) (Voices.sameButAttack_attack vel scale rest)
end
/-- The same for a SetAttack offered with an address (R125). -/
theorem Synth.sameButAttack_runCommand (cfg : Params) (a : Addr) (vel scale : U44) :
    ∀ t : Synth, List.Forall₂ (UnitView.SameButAttack (gainOf vel scale)) t.units (t.runCommand cfg a (.setAttack vel scale)).1.units
  | .sine u => by unfold Synth.runCommand; split; exacts [Synth.sameButAttack_attack _ _ _, SameButAttack.refl_list _ _]
  | .saw u => by unfold Synth.runCommand; split; exacts [Synth.sameButAttack_attack _ _ _, SameButAttack.refl_list _ _]
  | .sample u => by unfold Synth.runCommand; split; exacts [Synth.sameButAttack_attack _ _ _, SameButAttack.refl_list _ _]
  | .drum _ _ _ _ => by unfold Synth.runCommand; split; exacts [Synth.sameButAttack_attack _ _ _, SameButAttack.refl_list _ _]
  | .poly _ _ => by unfold Synth.runCommand; split; exacts [Synth.sameButAttack_attack _ _ _, SameButAttack.refl_list _ _]
  | .withEffect synth effect => by
    unfold Synth.runCommand; split
    · simp only [Synth.units]
      refine .cons (SameButAttack.refl _ _) (List.rel_append (Synth.sameButAttack_runCommand cfg a vel scale synth) (.cons ?_ .nil))
      unfold Effect.runCommand; split <;> exact SameButAttack.refl _ _
    · exact SameButAttack.refl_list _ _
/-- A SetAttack raises nothing (R128). -/
theorem Synth.setAttack_diags (cfg : Params) (a : Addr) (vel scale : U44) :
    ∀ t : Synth, (t.runCommand cfg a (.setAttack vel scale)).2 = []
  | .sine u => by unfold Synth.runCommand; split <;> rfl
  | .saw u => by unfold Synth.runCommand; split <;> rfl
  | .sample u => by unfold Synth.runCommand; split <;> rfl
  | .drum _ _ _ _ => by unfold Synth.runCommand; split <;> rfl
  | .poly _ _ => by unfold Synth.runCommand; split <;> rfl
  | .withEffect synth effect => by
    unfold Synth.runCommand; split
    · exact Synth.setAttack_diags cfg a vel scale synth
    · rfl
/-! ## The settings records -/

theorem Effect.config_next (x : Int) (e : Effect) : (e.next x).2.view.config = e.view.config := by cases e <;> rfl

theorem SampleUnit.config_next (u : SampleUnit) :
    UnitView.config (.sample u.next.2) = UnitView.config (.sample u) := rfl

mutual
/-- Computing a sample keeps every settings record (10_state.md section 5). -/
theorem Synth.config_next : ∀ t : Synth, t.next.2.units.map UnitView.config = t.units.map UnitView.config
  | .sine _ => rfl
  | .saw _ => rfl
  | .sample _ => rfl
  | .drum _ _ _ _ => rfl
  | .poly _ voices => by
    simp only [Synth.next, Synth.units, List.map_cons, Voices.config_next _ voices]; rfl
  | .withEffect synth effect => by
    simp only [Synth.next, Synth.units, List.map_cons, List.map_append, Synth.config_next synth, Effect.config_next, List.map_nil]
@[inherit_doc Synth.config_next]
theorem Voices.config_next (k : Nat) :
    ∀ vs : Voices, (vs.next k).2.units.map UnitView.config = vs.units.map UnitView.config
  | .nil => rfl
  | .cons _ voice rest => by
    simp only [Voices.next, Voices.units, List.map_append, Synth.config_next voice, Voices.config_next k rest]
end
mutual
/-- So does an attack. -/
theorem Synth.config_attack (vel scale : U44) :
    ∀ t : Synth, (t.attack vel scale).units.map UnitView.config = t.units.map UnitView.config
  | .sine _ => rfl
  | .saw _ => rfl
  | .sample _ => rfl
  | .drum _ _ _ _ => rfl
  | .poly _ voices => by
    simp only [Synth.attack, Synth.units, List.map_cons, Voices.config_attack vel scale voices]; rfl
  | .withEffect synth effect => by
    simp only [Synth.attack, Synth.units, List.map_cons, List.map_append, Synth.config_attack vel scale synth]
@[inherit_doc Synth.config_attack]
theorem Voices.config_attack (vel scale : U44) :
    ∀ vs : Voices, (vs.attack vel scale).units.map UnitView.config = vs.units.map UnitView.config
  | .nil => rfl
  | .cons _ voice rest => by
    simp only [Voices.attack, Voices.units, List.map_append, Synth.config_attack vel scale voice, Voices.config_attack vel scale rest]
end
theorem Effect.config_play (vel : U44) (e : Effect) : (e.play vel).view.config = e.view.config := by
  cases e <;> simp only [Effect.play, Effect.view, LinDecayUnit.play, ExpDecayUnit.play, LpfUnit.play] <;> (try split) <;> rfl
mutual
/-- So does a Play. -/
theorem Synth.config_play (cfg : Params) (p : Pitch) (vel scale : U44) :
    ∀ t : Synth, (t.play cfg p vel scale).1.units.map UnitView.config = t.units.map UnitView.config
  | .sine u => by
    simp only [Synth.play, Synth.units, SineUnit.play]
    split
    · rfl
    · split <;> rfl
  | .saw u => by
    simp only [Synth.play, Synth.units, SawUnit.play]
    split
    · rfl
    · split <;> rfl
  | .sample u => rfl
  | .drum a k s h => rfl
  | .poly a voices => by
    simp only [Synth.play]
    split
    · rfl
    · next k _ =>
      simp only [Synth.units, List.map_cons, Voices.config_playAt cfg p vel scale k voices]; rfl
  | .withEffect synth effect => by
    simp only [Synth.play, Synth.units, List.map_cons, List.map_append, Synth.config_play cfg p vel scale synth,
      Effect.config_play, List.map_nil]
@[inherit_doc Synth.config_play]
theorem Voices.config_playAt (cfg : Params) (p : Pitch) (vel scale : U44) :
    ∀ (k : Nat) (vs : Voices), (vs.playAt cfg p vel scale k).1.units.map UnitView.config = vs.units.map UnitView.config
  | _, .nil => by simp only [Voices.playAt]
  | 0, .cons _ voice _ => by
    simp only [Voices.playAt, Voices.units, List.map_append, Synth.config_play cfg p vel scale voice]
  | k + 1, .cons _ _ rest => by
    simp only [Voices.playAt, Voices.units, List.map_append, Voices.config_playAt cfg p vel scale k rest]
end
theorem Synth.config_receive (cfg : Params) (c : Instr) (t : Synth) :
    (t.receive cfg c).1.units.map UnitView.config = t.units.map UnitView.config := by
  cases c with
  | play p v s => exact Synth.config_play cfg p v s t
  | setAttack v s => exact Synth.config_attack v s t
/-- So does a command offered with an address. -/
theorem Synth.config_runCommand (cfg : Params) (a : Addr) (c : Instr) :
    ∀ t : Synth, (t.runCommand cfg a c).1.units.map UnitView.config = t.units.map UnitView.config
  | .sine u => by unfold Synth.runCommand; split; exacts [Synth.config_receive cfg c _, rfl]
  | .saw u => by unfold Synth.runCommand; split; exacts [Synth.config_receive cfg c _, rfl]
  | .sample u => by unfold Synth.runCommand; split; exacts [Synth.config_receive cfg c _, rfl]
  | .drum _ _ _ _ => by unfold Synth.runCommand; split; exacts [Synth.config_receive cfg c _, rfl]
  | .poly _ _ => by unfold Synth.runCommand; split; exacts [Synth.config_receive cfg c _, rfl]
  | .withEffect synth effect => by
    unfold Synth.runCommand; split
    · simp only [Synth.units, List.map_cons, List.map_append, Synth.config_runCommand cfg a c synth, List.map_nil]
      unfold Effect.runCommand; split
      · cases c with
        | play p v s => simp only [Effect.config_play]
        | setAttack v s => rfl
      · rfl
    · rfl
/-! ## From the units of a root to those of the block -/

theorem forall₂_flatMap {α β : Type} {R : β → β → Prop} (f : α → List β) (g : α → α) (h : ∀ a, List.Forall₂ R (f a) (f (g a))) :
   ∀ l : List α, List.Forall₂ R (l.flatMap f) ((l.map g).flatMap f)
  | [] => .nil
  | a :: l => by simp only [List.map_cons, List.flatMap_cons]; exact List.rel_append (h a) (forall₂_flatMap f g h l)

theorem map_flatMap_map {α β γ : Type} (u : β → γ) (f : α → List β) (g : α → α) (h : ∀ a, (f (g a)).map u = (f a).map u) (l : List α) :
   ((l.map g).flatMap f).map u = (l.flatMap f).map u := by
  induction l with
  | nil => rfl
  | cons a l ih => simp only [List.map_cons, List.flatMap_cons, List.map_append, h, ih]

theorem State.config_render (s : State) : s.render.units.map UnitView.config = s.units.map UnitView.config :=
  map_flatMap_map _ _ _ Synth.config_next s.roots
/-- A sample step keeps every settings record. -/
theorem State.config_sampled (s : State) : s.sampled.units.map UnitView.config = s.units.map UnitView.config := by
  rcases s.sampled_cases with ⟨-, h⟩ | ⟨_, _, -, -, h⟩ | ⟨b, rest, c, -, -, h⟩ <;> rw [h]
  · exact State.config_render _
  · exact State.config_render _
  · exact (State.config_render _).trans (map_flatMap_map _ _ _ (Synth.config_runCommand s.params b.addr c) s.roots)

theorem modify_map_eq {α β : Type} (f : α → β) (g : α → α) (h : ∀ a, f (g a) = f a) (l : List α) (k : Nat) :
    (l.modify k g).map f = l.map f := by
  apply List.ext_getElem?
  intro i
  simp only [List.getElem?_map, List.getElem?_modify]
  by_cases hk : k = i
  · subst hk; cases l[k]? <;> simp [h]
  · simp [hk]

end Sys2Proof.Machine
end

