-- ==== Sys2Proof/Laws/Invariant.lean ====
section
/-! SUPPORT. What the events keep: the parameters, the structure of the tree (10_state.md R54), the channel's legal
contents, the ranges of the units. -/

namespace Sys2Proof.Machine

/-- An address of `ADDR_W` bits passes the port unchanged (10_state.md R31). -/
theorem addrMask_of_lt {p : Params} {a : Addr} (h : a.toNat < 2 ^ p.addrW) : addrMask p a = a := by
  apply BitVec.eq_of_toNat_eq
  simp only [addrMask, BitVec.toNat_and, BitVec.toNat_ofNat]
  have ha := a.isLt
  by_cases hw : p.addrW ≤ 16
  · have : 2 ^ p.addrW ≤ 2 ^ 16 := Nat.pow_le_pow_right (by norm_num) hw
    rw [Nat.mod_eq_of_lt (by have := Nat.two_pow_pos p.addrW; omega), Nat.and_two_pow_sub_one_eq_mod, Nat.mod_eq_of_lt h]
  · obtain ⟨k, hk⟩ := Nat.exists_eq_add_of_le (Nat.le_of_lt (Nat.lt_of_not_le hw))
    have : (2 ^ p.addrW - 1) % 2 ^ 16 = 2 ^ 16 - 1 := by
      rw [hk, pow_add]
      have := Nat.two_pow_pos k
      obtain ⟨m, hm⟩ : ∃ m, 2 ^ k = m + 1 := ⟨2 ^ k - 1, by omega⟩
      rw [hm]; omega
    rw [this, Nat.and_two_pow_sub_one_eq_mod, Nat.mod_eq_of_lt ha]

/-- What passes the port has `ADDR_W` bits. -/
theorem addrMask_fits (p : Params) (h : p.addrW ≤ 16) (a : Addr) : (addrMask p a).fits p.addrW = true := by
  simp only [Addr.fits, decide_eq_true_eq, addrMask, BitVec.toNat_and, BitVec.toNat_ofNat]
  have : 2 ^ p.addrW ≤ 2 ^ 16 := Nat.pow_le_pow_right (by norm_num) h
  have h0 := Nat.two_pow_pos p.addrW
  rw [Nat.mod_eq_of_lt (by omega), Nat.and_two_pow_sub_one_eq_mod]
  exact Nat.mod_lt _ h0

theorem channelOk_iff (cfg : Params) (f : List Beat) :
    channelOk cfg f = true ↔ f.length ≤ cfg.fifoDepth ∧ ∀ b ∈ f, b.addr.fits cfg.addrW = true := by
  simp [channelOk]

theorem channelOk_push {s : State} {b : Beat} (h : channelOk s.params s.fifo = true) (hr : s.hasRoom = true)
    (hb : b.addr.fits s.params.addrW = true) : channelOk s.params (s.fifo ++ [b]) = true := by
  rw [channelOk_iff] at *
  simp only [State.hasRoom, decide_eq_true_eq] at hr
  refine ⟨by simp; omega, fun c hc => ?_⟩
  rcases List.mem_append.mp hc with hc | hc
  · exact h.2 c hc
  · simp at hc; subst hc; exact hb

theorem channelOk_drop {cfg : Params} {f : List Beat} (h : channelOk cfg f = true) : channelOk cfg (f.drop 1) = true := by
  rw [channelOk_iff] at *
  exact ⟨by simp; omega, fun b hb => h.2 b (List.mem_of_mem_drop hb)⟩

/-- Mixing keeps the ranges of the units. -/
theorem mix_ok {rs : List Synth} (h : rs.all Synth.ok = true) : (mix rs).2.all Synth.ok = true := by
  simp only [mix, List.all_map, List.all_eq_true, Function.comp] at *
  exact fun r hr => r.ok_next (h r hr)

theorem dispatch_ok {s : State} {c : Instr} (hc : c.wf = true) (h : s.roots.all Synth.ok = true) :
    (s.dispatch c).roots.all Synth.ok = true := by
  simp only [State.dispatch, State.emit, List.all_map, List.all_eq_true, Function.comp] at *
  exact fun r hr => r.ok_runCommand _ _ hc (h r hr)

theorem sampled_ok {s : State} (h : s.roots.all Synth.ok = true) : s.sampled.roots.all Synth.ok = true := by
  rcases s.sampled_cases with ⟨-, h'⟩ | ⟨_, _, -, -, h'⟩ | ⟨b, rest, c, -, hd, h'⟩ <;> rw [h']
  · exact mix_ok h
  · exact mix_ok h
  · exact mix_ok (dispatch_ok (s := s.popped b rest) (wf_of_deserialize hd) h)

/-- The tree that a topology builds is its own skeleton. -/
theorem Synth.skeleton_build : ∀ t : SynthTopo, (Synth.build t).skeleton = Synth.build t := by
  have rep : ∀ (n : Nat) (t : Synth), t.skeleton = t → (Voices.replicate n t).skeleton = Voices.replicate n t := by
    intro n t h
    induction n with
    | zero => rfl
    | succ n ih => simp [Voices.replicate, Voices.skeleton, h, ih]
  intro t
  induction t with
  | sine _ => rfl
  | saw _ => rfl
  | sample _ => rfl
  | drum _ _ _ _ => rfl
  | poly a p v ih => simp [Synth.build, Synth.skeleton, rep p _ ih]
  | withEffect s e ih => cases e <;> simp [Synth.build, Synth.skeleton, ih, Effect.build, Effect.skeleton] <;> rfl

theorem State.dispatch_skeleton (c : Instr) (s : State) :
    (s.dispatch c).roots.map Synth.skeleton = s.roots.map Synth.skeleton := by
  simp [State.dispatch, State.emit, Function.comp_def]

theorem State.sampled_skeleton (s : State) : s.sampled.roots.map Synth.skeleton = s.roots.map Synth.skeleton := by
  rcases s.sampled_cases with ⟨-, h⟩ | ⟨_, _, -, -, h⟩ | ⟨b, rest, c, -, -, h⟩ <;> rw [h]
  · exact mix_skeleton _
  · exact mix_skeleton _
  · exact (mix_skeleton _).trans (State.dispatch_skeleton c (s.popped b rest))

/-- No event changes a parameter (00_scope.md R5). -/
theorem State.after_params (e : Event) (s : State) : (s.after e).params = s.params := by
  cases e with
  | reset => rfl
  | sampleStep => exact s.sampled_params
  | hostPush a w => simp only [State.after, State.hostPush]; split <;> rfl
  | seqTick => simp only [State.after, State.seqTick]; split <;> rfl
  | seqPush =>
    simp only [State.after, State.trySeqPush, State.seqPush]; split
    · split <;> rfl
    · rfl
  | regWrite i d => exact State.regWrite_params i d s
  | regRead i => rfl
  | presentDiag => exact s.presentDiag_params

/-- No event but a reset changes the structure of the tree (10_state.md R54). -/
theorem State.after_skeleton (e : Event) (he : e ≠ .reset) (s : State) :
    (s.after e).roots.map Synth.skeleton = s.roots.map Synth.skeleton := by
  cases e with
  | reset => exact absurd rfl he
  | sampleStep => exact s.sampled_skeleton
  | hostPush a w => simp only [State.after, State.hostPush]; split <;> rfl
  | seqTick => simp only [State.after, State.seqTick]; split <;> rfl
  | seqPush =>
    simp only [State.after, State.trySeqPush, State.seqPush]; split
    · split <;> rfl
    · rfl
  | regWrite i d =>
    simp only [State.after, State.regWrite]
    split <;> first | rfl | exact writeRoots_skeleton _ _ _
  | regRead i => rfl
  | presentDiag => simp [State.after]

/-- A step that is no reset changes nothing structural (R54). -/
theorem step_skeleton {s t : State} (h : step s = .next t) (hr : ∀ i rest, s.inputs = i :: rest → i.resets = false) :
    t.roots.map Synth.skeleton = s.roots.map Synth.skeleton :=
  step_keeps_of (P := fun x => x.roots.map Synth.skeleton = s.roots.map Synth.skeleton) id (fun _ h => h)
    (fun _ _ h => h)
    (fun i rest hi x e he hx => (State.after_skeleton e (by rintro rfl; simp [Input.mayRun, hr i rest hi] at he) x).trans hx)
    h rfl

end Sys2Proof.Machine
end

