-- ==== Sys2Proof/Laws/PerInstr.lean ====
section
/-! SUPPORT. What holds of every instruction as syntax, one lemma per constructor: the word that the encoder gives it
falls under the match and mask of its row of the opcode table (30_encoding.md R91). -/

namespace Sys2Proof.Laws.EncodeMatchesTable

/-- The row's `match` pattern in spec/opcode_table.json. -/
def tableMatch : Instr → Word
  | .play _ _ _ => 0x00000000
  | .setAttack _ _ => 0x04000000

/-- The encoded word agrees with the row's pattern under its mask, and decodes to the instruction where that is well
formed. -/
def Statement (i : Instr) : Prop :=
  encode i &&& 0xFC000000 = tableMatch i ∧ (i.wf = true → decodeTableWord 32 (encode i).toNat = some i)

/-- The mask of the table keeps the command id alone (R91). -/
theorem mask_eq (w : Word) : w &&& 0xFC000000 = cidOf w ++ (0 : BitVec 26) := by
  apply BitVec.eq_of_getLsbD_eq
  intro i hi
  simp only [cidOf, BitVec.getLsbD_append, BitVec.getLsbD_extractLsb', BitVec.getLsbD_and]
  interval_cases i <;> simp

/-- A 32-bit word numbered as the table numbers it is that word. -/
theorem decodeTableWord_toNat (w : Word) : decodeTableWord 32 w.toNat = deserialize w := by
  rw [decodeTableWord, Nat.mod_eq_of_lt w.isLt, BitVec.ofNat_toNat, BitVec.setWidth_eq]

theorem play (p : Pitch) (vel scale : U44) : Statement (.play p vel scale) := by
  refine ⟨?_, fun h => ?_⟩
  · rw [mask_eq, cidOf_play]; rfl
  · rw [decodeTableWord_toNat, deserialize_encode_play h]

theorem setAttack (vel scale : U44) : Statement (.setAttack vel scale) := by
  refine ⟨?_, fun _ => ?_⟩
  · rw [mask_eq, cidOf_setAttack]; rfl
  · rw [decodeTableWord_toNat]; simp [deserialize, decode, Except.toOption]

end Sys2Proof.Laws.EncodeMatchesTable
end

