-- ==== Sys2Proof/Laws/Pitch.lean ====
section
/-! SUPPORT. The phase-increment ROM (40_pitch.md R115): the integer test is the real comparison, and the search finds the
greatest number that passes it. -/

namespace Sys2Proof.Machine

/-- Twice the exact phase increment of a linear code, as a real number (R115). -/
noncomputable def twiceIncrement (fs c : Nat) : ℝ := 880 * 2 ^ 32 * (2 : ℝ) ^ (((c : ℝ) - 69) / 12) / fs

/-- The integer test compares with twice the exact increment. -/
theorem pincBelow_iff {fs c r : Nat} (hfs : 0 < fs) : pincBelow fs c r = true ↔ (r : ℝ) ≤ twiceIncrement fs c := by
  have hf : (0:ℝ) < fs := by exact_mod_cast hfs
  have hp : (0:ℝ) < (2:ℝ) ^ (((c : ℝ) - 69) / 12) := by positivity
  have hp12 : ((2:ℝ) ^ (((c : ℝ) - 69) / 12)) ^ 12 * 2 ^ 69 = 2 ^ c := by
    rw [← Real.rpow_natCast, ← Real.rpow_mul (by norm_num), ← Real.rpow_natCast 2 69, ← Real.rpow_add (by norm_num),
      ← Real.rpow_natCast 2 c]
    congr 1; push_cast; ring
  rw [twiceIncrement, le_div_iff₀ hf,
    ← pow_le_pow_iff_left₀ (by positivity) (by positivity) (show 12 ≠ 0 by norm_num),
    ← mul_le_mul_iff_left₀ (show (0:ℝ) < 2 ^ 69 by positivity), mul_pow _ ((2:ℝ) ^ _) 12,
    mul_assoc _ _ ((2:ℝ) ^ 69), hp12]
  simp only [pincBelow, decide_eq_true_eq]
  exact_mod_cast Iff.rfl

/-- The search ends at the greatest number that passes the test. -/
theorem pincSearch_spec {fs c : Nat} (hfs : 0 < fs) : ∀ k r : Nat, (r : ℝ) ≤ twiceIncrement fs c → twiceIncrement fs c < r + 2 ^ k →
    (pincSearch fs c k r : ℝ) ≤ twiceIncrement fs c ∧ twiceIncrement fs c < pincSearch fs c k r + 1
  | 0, r, h1, h2 => by simpa [pincSearch] using ⟨h1, h2⟩
  | k + 1, r, h1, h2 => by
    rw [pincSearch]
    split
    · next h =>
      refine pincSearch_spec hfs k _ ((pincBelow_iff hfs).mp h) ?_
      push_cast; rw [pow_succ] at h2; linarith
    · next h =>
      refine pincSearch_spec hfs k _ h1 ?_
      have := mt (pincBelow_iff (c := c) (r := r + 2 ^ k) hfs).mpr h
      push_cast at this; linarith

/-- Twice the increment is below 2 ^ 32 for every legal sample rate and ROM index (00_scope.md R5). -/
theorem twiceIncrement_lt {fs c : Nat} (hfs : 25088 ≤ fs) (hc : c ≤ 127) : twiceIncrement fs c < 2 ^ 32 := by
  by_contra hX
  have : pincBelow fs c (2 ^ 32) = true := (pincBelow_iff (by omega)).mpr (by push_cast; linarith)
  simp only [pincBelow, decide_eq_true_eq] at this
  have h1 : (2 ^ 32 * 25088) ^ 12 * 2 ^ 69 ≤ (2 ^ 32 * fs) ^ 12 * 2 ^ 69 := by gcongr
  have h2 : (880 * 2 ^ 32) ^ 12 * 2 ^ c ≤ (880 * 2 ^ 32) ^ 12 * 2 ^ 127 := by gcongr; norm_num
  have := h1.trans (this.trans h2)
  exact absurd this (by decide)

end Sys2Proof.Machine
end

