-- ==== Sys2Proof/Laws/Silence.lean ====
section
/-! SUPPORT. What a silent tree does (70_reset_and_hazards.md R284): its sample is 0 and it stays silent, whatever its
shape; a built tree is silent, and so is the block after every event that brings it nothing. -/

namespace Sys2Proof.Machine

theorem SampleUnit.silent_next {u : SampleUnit} (h : u.gain = 0) : u.next.1 = 0 ∧ u.next.2.gain = 0 := by
  unfold SampleUnit.next
  split
  · exact ⟨rfl, h⟩
  · split
    · exact ⟨rfl, h⟩
    · exact ⟨by simp [h, asr, sat16], h⟩

theorem Effect.silent_next {e : Effect} (h : e.view.Silent) : (e.next 0).1 = 0 ∧ (e.next 0).2.view.Silent := by
  cases e with
  | linDecay u => exact ⟨by simp [Effect.next, LinDecayUnit.next, asr], trivial⟩
  | expDecay u => exact ⟨by simp [Effect.next, ExpDecayUnit.next, asr], trivial⟩
  | lpf u =>
    have h' : u.y = 0 := h
    have : lpfMix u.alpha 0 u.y.toInt = 0 := by simp [lpfMix, h', asr]
    simp only [Effect.next, LpfUnit.next, Effect.view, UnitView.Silent, this]
    exact ⟨by decide, by decide⟩

mutual
/-- A silent tree gives 0 and stays silent. -/
theorem Synth.silent_next :
    ∀ t : Synth, (∀ v ∈ t.units, v.Silent) → t.next.1 = 0 ∧ ∀ v ∈ t.next.2.units, v.Silent
  | .sine u, h => by
    have h' : u.gain = 0 := h _ (List.mem_singleton_self _)
    refine ⟨by simp [Synth.next, SineUnit.next, SineUnit.output, h', asr, sat16], fun v hv => ?_⟩
    obtain rfl := List.mem_singleton.mp hv; exact h'
  | .saw u, h => by
    have h' : u.gain = 0 := h _ (List.mem_singleton_self _)
    refine ⟨by simp [Synth.next, SawUnit.next, h', asr, sat16], fun v hv => ?_⟩
    obtain rfl := List.mem_singleton.mp hv
    show (if (decayDue u.every u.cnt).1 = true then scaleBy 16 u.gain u.ratio else u.gain) = 0
    rw [h']; split
    · simp [scaleBy]
    · rfl
  | .sample u, h => by
    have h' := SampleUnit.silent_next (h _ (List.mem_singleton_self _) : u.gain = 0)
    refine ⟨h'.1, fun v hv => ?_⟩
    obtain rfl := List.mem_singleton.mp hv; exact h'.2
  | .drum _ k s x, h => by
    simp only [Synth.units, List.forall_mem_cons] at h
    have hk := SampleUnit.silent_next (h.2.1 : k.gain = 0)
    have hs := SampleUnit.silent_next (h.2.2.1 : s.gain = 0)
    have hx := SampleUnit.silent_next (h.2.2.2.1 : x.gain = 0)
    refine ⟨by simp [Synth.next, drumNext, hk.1, hs.1, hx.1, sat16], ?_⟩
    simp only [Synth.next, drumNext, Synth.units, List.forall_mem_cons]
    exact ⟨trivial, hk.2, hs.2, hx.2, by simp⟩
  | .poly _ voices, h => by
    simp only [Synth.units, List.forall_mem_cons] at h
    have := Voices.silent_next (shiftFor voices.count) voices h.2
    simp only [Synth.next, this.1, Synth.units, List.forall_mem_cons]
    exact ⟨by decide, trivial, this.2⟩
  | .withEffect synth effect, h => by
    simp only [Synth.units, List.forall_mem_cons, List.forall_mem_append] at h
    have h1 := Synth.silent_next synth h.2.1
    have h2 := Effect.silent_next h.2.2.1
    simp only [Synth.next, h1.1, Synth.units, List.forall_mem_cons, List.forall_mem_append]
    exact ⟨h2.1, trivial, h1.2, h2.2, by simp⟩
@[inherit_doc Synth.silent_next]
theorem Voices.silent_next (k : Nat) :
    ∀ vs : Voices, (∀ v ∈ vs.units, v.Silent) → (vs.next k).1 = 0 ∧ ∀ v ∈ (vs.next k).2.units, v.Silent
  | .nil, _ => ⟨rfl, by simp [Voices.next, Voices.units]⟩
  | .cons _ voice rest, h => by
    simp only [Voices.units, List.forall_mem_append] at h
    have h1 := Synth.silent_next voice h.1
    have h2 := Voices.silent_next k rest h.2
    simp only [Voices.next, h1.1, h2.1, Voices.units, List.forall_mem_append]
    exact ⟨by simp [asr], h1.2, h2.2⟩
end

/-- A unit at its reset values is silent (70_reset_and_hazards.md R281). -/
theorem UnitView.silent_of_atReset {v : UnitView} (h : v.AtReset) : v.Silent := by
  cases v <;> simp_all [UnitView.AtReset, UnitView.Silent]

theorem State.ofParams_silent (p : Params) : (State.ofParams p).Silent := by
  refine ⟨rfl, rfl, rfl, fun v hv => ?_⟩
  simp only [State.units, State.ofParams, List.mem_flatMap, List.mem_map] at hv
  obtain ⟨t, ⟨n, -, rfl⟩, hv⟩ := hv
  exact UnitView.silent_of_atReset (Synth.build_atReset n v hv)

/-- A sample step of a silent block drives 0 and leaves it silent. -/
theorem State.Silent.render {s : State} (h : s.Silent) : s.render.Silent ∧ s.render.lastSample = 0 := by
  obtain ⟨hf, hm, hb, hu⟩ := h
  have hr : ∀ r ∈ s.roots, ∀ v ∈ r.units, v.Silent := fun r hr v hv => hu v (List.mem_flatMap.mpr ⟨r, hr, hv⟩)
  refine ⟨⟨hf, hm, hb, fun v hv => ?_⟩, ?_⟩
  · simp only [State.units, State.render, mix, List.mem_flatMap, List.mem_map] at hv
    obtain ⟨t, ⟨r, hr', rfl⟩, hv⟩ := hv
    exact (r.silent_next (hr r hr')).2 v hv
  · have : (s.roots.map (fun r : Synth => r.next.1)).sum = 0 :=
      List.sum_eq_zero (fun x hx => by
        obtain ⟨r, hr', rfl⟩ := List.mem_map.mp hx
        exact (r.silent_next (hr r hr')).1)
    show toQ15 (sat16 _) = 0
    rw [this]; decide

end Sys2Proof.Machine
end

