-- ==== Sys2Proof/Laws/Sine.lean ====
section
/-! SUPPORT. The quarter-sine ROM (20_memory.md R72): integer bounds of the sines of the multiples of π/512, got by turning
a bounded angle step by step, and the entries of the ROM against those bounds. -/

namespace Sys2Proof.Machine

/-- Integer bounds, in units of 2 ^ −60, of the sine and the cosine of an angle. -/
structure SineBox where
  sinLo : Int
  sinHi : Int
  cosLo : Int
  cosHi : Int

/-- The box holds the sine and the cosine of `x`. -/
def SineBox.Holds (b : SineBox) (x : ℝ) : Prop :=
  (b.sinLo : ℝ) ≤ 2 ^ 60 * Real.sin x ∧ 2 ^ 60 * Real.sin x ≤ b.sinHi ∧
    (b.cosLo : ℝ) ≤ 2 ^ 60 * Real.cos x ∧ 2 ^ 60 * Real.cos x ≤ b.cosHi

/-- The unit of the bounds, 2 ^ 60. -/
abbrev boxOne : Int := 1152921504606846976

/-- The box of the angle π/512. -/
def unitBox : SineBox := ⟨7074193361597233, 7074193361997233, 1152899801185339586, 1152899801185339786⟩

/-- The box after one more turn by π/512: the addition theorems, rounded outwards. -/
def SineBox.turn (b : SineBox) : SineBox where
  sinLo := (b.sinLo * unitBox.cosLo + b.cosLo * unitBox.sinLo) / boxOne
  sinHi := (b.sinHi * unitBox.cosHi + b.cosHi * unitBox.sinHi) / boxOne + 1
  cosLo := (b.cosLo * unitBox.cosLo - b.sinHi * unitBox.sinHi) / boxOne
  cosHi := (b.cosHi * unitBox.cosHi - b.sinLo * unitBox.sinLo) / boxOne + 1

/-- The box of the angle 0. -/
def zeroBox : SineBox := ⟨0, 0, boxOne, boxOne⟩

/-- The box after `i` turns from the angle 0. -/
def boxAt (i : Nat) : SineBox := SineBox.turn^[i] zeroBox

/-- `q` is the integer nearest to the box's sine, scaled by 32767. -/
def SineBox.rounds (q : Nat) (b : SineBox) : Bool :=
  decide ((2 * (q : Int) - 1) * boxOne ≤ 2 * 32767 * b.sinLo ∧ 2 * 32767 * b.sinHi < (2 * (q : Int) + 1) * boxOne)

/-- The bounds are not negative, so that the box may turn. -/
def SineBox.turns (b : SineBox) : Bool := decide (0 ≤ b.sinLo ∧ 0 ≤ b.cosLo)

/-- The entries of a list are those of the boxes from `b` on, turn by turn. -/
def roundsFrom : List Nat → SineBox → Bool
  | [], _ => true
  | q :: qs, b => b.rounds q && (qs.isEmpty || b.turns) && roundsFrom qs b.turn

/-- The sine of a small angle between two rational bounds, by three terms of its series. -/
theorem sin_small {x a b : ℝ} (h0 : 0 ≤ a) (ha : a ≤ x) (hb : x ≤ b) (h1 : b ≤ 1) :
    a - b ^ 3 / 6 - b ^ 5 / 100 ≤ Real.sin x ∧ Real.sin x ≤ b - a ^ 3 / 6 + b ^ 5 / 100 := by
  have hx : 0 ≤ x := h0.trans ha
  have h := abs_le.mp (Real.sin_bound (x := x) (by rw [abs_of_nonneg hx]; linarith))
  rw [abs_of_nonneg hx] at h
  have h3 : x ^ 3 ≤ b ^ 3 := pow_le_pow_left₀ hx hb 3
  have h3' : a ^ 3 ≤ x ^ 3 := pow_le_pow_left₀ h0 ha 3
  have h5 : x ^ 5 ≤ b ^ 5 := pow_le_pow_left₀ hx hb 5
  constructor <;> linarith [h.1, h.2]

theorem unitBox_holds : unitBox.Holds (Real.pi / 512) := by
  have h1 := Real.pi_gt_d20
  have h2 := Real.pi_lt_d20
  have hs := sin_small (x := Real.pi / 512) (a := 3.14159265358979323846 / 512) (b := 3.14159265358979323847 / 512)
    (by norm_num) (by linarith) (by linarith) (by norm_num)
  have hh := sin_small (x := Real.pi / 1024) (a := 3.14159265358979323846 / 1024) (b := 3.14159265358979323847 / 1024)
    (by norm_num) (by linarith) (by linarith) (by norm_num)
  have hc : Real.cos (Real.pi / 512) = 1 - 2 * Real.sin (Real.pi / 1024) ^ 2 := by
    rw [show Real.pi / 512 = 2 * (Real.pi / 1024) by ring, Real.cos_two_mul, Real.cos_sq']; ring
  have hl := pow_le_pow_left₀ (by norm_num) hh.1 2
  have hu := pow_le_pow_left₀ (le_trans (by norm_num) hh.1) hh.2 2
  simp only [SineBox.Holds, unitBox, hc]
  push_cast
  norm_num at hs hl hu ⊢
  refine ⟨?_, ?_, ?_, ?_⟩ <;> linarith [hs.1, hs.2]

/-- A box with non-negative bounds still holds after a turn. -/
theorem SineBox.turn_holds {b : SineBox} {x : ℝ} (h : b.Holds x) (hs : 0 ≤ b.sinLo) (hc : 0 ≤ b.cosLo) :
    b.turn.Holds (x + Real.pi / 512) := by
  obtain ⟨s1, s2, c1, c2⟩ := h
  obtain ⟨u1, u2, v1, v2⟩ := unitBox_holds
  have hs' : (0 : ℝ) ≤ b.sinLo := by exact_mod_cast hs
  have hc' : (0 : ℝ) ≤ b.cosLo := by exact_mod_cast hc
  have hu : (0 : ℝ) ≤ unitBox.sinLo := by norm_num [unitBox]
  have hv : (0 : ℝ) ≤ unitBox.cosLo := by norm_num [unitBox]
  have lo : ∀ (n : Int) (r : ℝ), (n : ℝ) ≤ 2 ^ 60 * r → ((n / boxOne : Int) : ℝ) ≤ r := by
    intro n r h
    have := Int.ediv_mul_le n (show boxOne ≠ 0 by decide)
    have : ((n / boxOne : Int) : ℝ) * (boxOne : Int) ≤ n := by exact_mod_cast this
    push_cast at this; nlinarith
  have hi : ∀ (n : Int) (r : ℝ), 2 ^ 60 * r ≤ (n : ℝ) → r ≤ ((n / boxOne + 1 : Int) : ℝ) := by
    intro n r h
    have := Int.lt_ediv_add_one_mul_self n (show 0 < boxOne by decide)
    have : (n : ℝ) < ((n / boxOne + 1 : Int) : ℝ) * (boxOne : Int) := by exact_mod_cast this
    rw [Int.cast_ofNat] at this; nlinarith
  have m : ∀ {p q r t : ℝ}, 0 ≤ p → 0 ≤ r → p ≤ q → r ≤ t → p * r ≤ q * t :=
    fun hp hr hq ht => mul_le_mul hq ht hr (hp.trans hq)
  refine ⟨lo _ _ ?_, hi _ _ ?_, lo _ _ ?_, hi _ _ ?_⟩
  all_goals
    push_cast
    first | rw [Real.sin_add] | rw [Real.cos_add]
    generalize Real.sin x = S at *
    generalize Real.cos x = C at *
    generalize Real.sin (Real.pi / 512) = U at *
    generalize Real.cos (Real.pi / 512) = V at *
  · nlinarith [m hs' hv s1 v1, m hc' hu c1 u1]
  · nlinarith [m (hs'.trans s1) (hv.trans v1) s2 v2, m (hc'.trans c1) (hu.trans u1) c2 u2]
  · nlinarith [m hc' hv c1 v1, m (hs'.trans s1) (hu.trans u1) s2 u2]
  · nlinarith [m (hc'.trans c1) (hv.trans v1) c2 v2, m hs' hu s1 u1]

theorem roundsFrom_get : ∀ (qs : List Nat) (b : SineBox), roundsFrom qs b = true →
    ∀ i (h : i < qs.length), (SineBox.turn^[i] b).rounds qs[i] = true ∧
      (i + 1 < qs.length → (SineBox.turn^[i] b).turns = true)
  | q :: qs, b, h, 0, _ => by
    simp only [roundsFrom, Bool.and_eq_true, Bool.or_eq_true, List.isEmpty_iff] at h
    exact ⟨h.1.1, fun hl => h.1.2.resolve_left (by rintro rfl; simp at hl)⟩
  | q :: qs, b, h, i + 1, hi => by
    simp only [roundsFrom, Bool.and_eq_true] at h
    have := roundsFrom_get qs b.turn h.2 i (by simpa using hi)
    exact ⟨this.1, fun hl => this.2 (by simpa using hl)⟩

theorem qtab_rounds : roundsFrom qtab zeroBox = true := by decide +kernel

theorem length_qtab : qtab.length = 257 := by
  simp only [qtab, List.length_append, show qtab0.length = 64 from rfl, show qtab1.length = 64 from rfl,
    show qtab2.length = 64 from rfl, show qtab3.length = 64 from rfl, List.length_cons, List.length_nil]

/-- The box of `i` turns holds the angle `i·π/512`. -/
theorem boxAt_holds : ∀ i : Nat, i ≤ 256 → (boxAt i).Holds (Real.pi * i / 512)
  | 0, _ => by simp only [SineBox.Holds, boxAt, Function.iterate_zero, id, zeroBox]; norm_num
  | i + 1, h => by
    have hn := (roundsFrom_get qtab zeroBox qtab_rounds i (by rw [length_qtab]; omega)).2 (by rw [length_qtab]; omega)
    rw [SineBox.turns, decide_eq_true_eq] at hn
    have := SineBox.turn_holds (boxAt_holds i (by omega)) hn.1 hn.2
    rw [boxAt, Function.iterate_succ_apply']
    rwa [show Real.pi * i / 512 + Real.pi / 512 = Real.pi * (i + 1 : Nat) / 512 by push_cast; ring] at this

/-- Each entry of the ROM is the integer nearest to the box of its angle, scaled by 32767. -/
theorem qtabAt_box (i : Nat) (h : i ≤ 256) :
    (2 * qtabAt i - 1) * boxOne ≤ 2 * 32767 * (boxAt i).sinLo ∧
      2 * 32767 * (boxAt i).sinHi < (2 * qtabAt i + 1) * boxOne := by
  have hl : i < qtab.length := by rw [length_qtab]; omega
  have := (roundsFrom_get qtab zeroBox qtab_rounds i hl).1
  rw [SineBox.rounds, decide_eq_true_eq] at this
  rwa [qtabAt, List.getD_eq_getElem?_getD, List.getElem?_eq_getElem hl]

end Sys2Proof.Machine
end

