-- ==== Sys2Proof/Tests/Slice0.lean ====
section
/-! SUPPORT. The model's own tests: small, on fixed values, each expected result taken from the rule or the test vector of
spec/95_test_vectors.md that its comment names; and for every obligation with hypotheses a witness that they can be met
together, one for each clause and at the boundary values. -/

namespace Sys2Proof.Tests
open Sys2Proof.Machine

/-! ## Well-formedness: each check refuses an ill-formed term -/

/-- R110: octaves below −8 and above 7. -/
theorem test_wf_pitch : (Instr.play ⟨.a, .natural, -8⟩ 0 0).wf = true ∧ (Instr.play ⟨.a, .natural, 7⟩ 0 0).wf = true ∧
    (Instr.play ⟨.a, .natural, -9⟩ 0 0).wf = false ∧ (Instr.play ⟨.a, .natural, 8⟩ 0 0).wf = false := by decide

/-- R5: the defaults are legal, and so are the ends of the ranges. -/
theorem test_wf_ref : Params.ref.wf = true ∧
    ({ Params.ref with sampleRateHz := 25088, addrW := 16, fifoDepth := 255 } : Params).wf = true := by decide

/-- R5, R247: sample rate, address width, channel depth and step length out of range. -/
theorem test_wf_widths :
    [ { Params.ref with sampleRateHz := 25087 }, { Params.ref with addrW := 0 }, { Params.ref with addrW := 17 },
      { Params.ref with fifoDepth := 3 }, { Params.ref with fifoDepth := 256 },
      { Params.ref with stepCycles := 0 } ].all (fun p : Params => !p.wf) = true := by decide

/-- R5, R32: no root, nine roots, more than 256 units. -/
theorem test_wf_topology :
    [ { Params.ref with topology := [] }, { Params.ref with topology := List.replicate 9 (.sine 1) },
      { Params.ref with topology := [.poly 1 16 (.poly 1 16 (.sine 1))] } ].all (fun p : Params => !p.wf) = true := by
  decide

/-- R5, R32: an address wider than `ADDR_W` at each kind of node, and allocators of no and of seventeen voices. -/
theorem test_wf_nodes :
    ([ .sine 0x100, .saw 0x100, .sample ⟨0x100, []⟩, .drum 0x100 ⟨1, []⟩ ⟨1, []⟩ ⟨1, []⟩,
      .drum 1 ⟨0x100, []⟩ ⟨1, []⟩ ⟨1, []⟩, .drum 1 ⟨1, []⟩ ⟨0x100, []⟩ ⟨1, []⟩, .drum 1 ⟨1, []⟩ ⟨1, []⟩ ⟨0x100, []⟩,
      .poly 0x100 4 (.sine 1), .poly 1 0 (.sine 1), .poly 1 17 (.sine 1), .poly 1 4 (.sine 0x100),
      .withEffect (.sine 0x100) (.lpf 1), .withEffect (.sine 1) (.lpf 0x100), .withEffect (.sine 1) (.linDecay 0x100),
      .withEffect (.sine 1) (.expDecay 0x100) ] : List SynthTopo).all (fun t => !t.wf 8) = true := by decide

/-- R37: a buffer longer than 2 ^ 20 samples. -/
theorem test_wf_rom : (SampleTopo.mk 1 (List.replicate (2 ^ 20 + 1) 0)).wf 8 = false := by
  rw [SampleTopo.wf, Bool.and_eq_false_iff]
  exact .inr (decide_eq_false (by rw [List.length_replicate]; omega))

/-- R5: equal drum codes, a sequencer address that does not fit, and an invalid pitch for each sequencer voice. -/
theorem test_wf_sequencer :
    [ { Params.ref with drumKickCode := 38 }, { Params.ref with drumKickCode := 42 },
      { Params.ref with drumSnareCode := 42 }, { Params.ref with seqAddr := 0x100 },
      { Params.ref with seqHatPitch := ⟨.a, .natural, 8⟩ }, { Params.ref with seqSnarePitch := ⟨.a, .natural, 8⟩ },
      { Params.ref with seqKickPitch := ⟨.a, .natural, 8⟩ }, { Params.ref with seqAccentPitch := ⟨.a, .natural, 8⟩ },
      { Params.ref with seqCymbalPitch := ⟨.a, .natural, 8⟩ } ].all (fun p : Params => !p.wf) = true := by decide

/-! ## Decoding -/

/-- PLAY, written out by the layout of R90: cid 0, oct 0b0010, acc 2, let 2, scale 1, vel 255 (V-ENC-2). -/
theorem test_decode_play :
    deserialize (0b000000#6 ++ 0b0010#4 ++ 0b010#3 ++ 0b010#3 ++ 0b00000001#8 ++ 0b11111111#8) =
      some (.play ⟨.c, .natural, 2⟩ 255 1) := by decide

/-- SETATTACK, written out by the layout of R90 with bits 25:16 all ones (V-ENC-13). -/
theorem test_decode_setAttack :
    deserialize (0b000001#6 ++ 0b1111111111#10 ++ 0b00010000#8 ++ 0b00001000#8) = some (.setAttack 0x08 0x10) := by
  decide

/-- V-ENC-1 to V-ENC-7 and V-ENC-12. -/
theorem test_decode_vectors :
    [0x00000000, 0x009201FF, 0x01101010, 0x02000000, 0x02101010, 0x03C21010, 0x01E11010, 0x04000000].map deserialize =
      [ some (.play ⟨.a, .doubleFlat, 0⟩ 0 0), some (.play ⟨.c, .natural, 2⟩ 255 1),
        some (.play ⟨.a, .natural, 4⟩ 0x10 0x10), some (.play ⟨.a, .doubleFlat, -8⟩ 0 0),
        some (.play ⟨.a, .natural, -8⟩ 0x10 0x10), some (.play ⟨.c, .doubleFlat, -1⟩ 0x10 0x10),
        some (.play ⟨.b, .doubleSharp, 7⟩ 0x10 0x10), some (.setAttack 0 0) ] := by decide

/-- V-ENC-8 to V-ENC-11 and V-ENC-14 to V-ENC-16: the malformed words (R98, R99, R103). -/
theorem test_decode_malformed :
    [0x00070000, 0x00280000, 0x00380000, 0x003F0000, 0x08000000, 0xFC000000, 0xFFFFFFFF].map deserialize =
      List.replicate 7 none := by decide

/-- R103: the reasons, the command id first, then the letter. -/
theorem test_decode_reasons :
    ([(0x00070000, .letterOutOfRange), (0x00280000, .accidentalOutOfRange), (0x003F0000, .letterOutOfRange),
      (0xFFFFFFFF, .reservedCommandId)] : List (Word × DecodeReject)).all (fun e =>
        match decode e.1 with
        | .error r => decide (r = e.2)
        | .ok _ => false) = true := by decide

/-- The serialize vectors of 95_test_vectors.md section 2.1. -/
theorem test_encode_vectors :
    [ encode (.play ⟨.e, .natural, 4⟩ 0x10 0x10), encode (Instr.noteOff ⟨.c, .natural, 4⟩),
      encode (.play ⟨.f, .sharp, 2⟩ 0x08 0x10), encode (.play ⟨.d, .natural, 2⟩ 0x10 0x10),
      encode (.play ⟨.c, .natural, 2⟩ 0xFF 0x10), encode (.setAttack 0x20 0x10), encode Instr.attack1 ] =
      [0x01141010, 0x01120000, 0x009D1008, 0x00931010, 0x009210FF, 0x04001020, 0x04001010] := by decide

/-- R74 with 92 D39: a byte-serial transport sends the least significant byte first (V-ENC-3). -/
theorem test_decode_bytes : (decodeBytes [0x10, 0x10, 0x10, 0x01, 0xAA]).toOption =
    some (.play ⟨.a, .natural, 4⟩ 0x10 0x10, [0xAA]) := by decide

/-! ## Pitch and sine tables -/

/-- 95_test_vectors.md section 2.2. -/
theorem test_codes :
    [ code ⟨.a, .natural, 4⟩, code ⟨.b, .sharp, 3⟩, code ⟨.g, .flat, 2⟩, code ⟨.b, .doubleSharp, -2⟩,
      code ⟨.c, .flat, -1⟩, code ⟨.a, .natural, -8⟩, code ⟨.c, .doubleFlat, -8⟩, code ⟨.b, .doubleSharp, 7⟩ ] =
      [69, 60, 42, 1, -1, -75, -86, 109] := by decide

/-! The table of 40_pitch.md R115. -/

theorem test_pinc_0_to_15 : (List.range 16).map (fun k => (pinc 48000 (0 + k)).toNat) =
    [ 731558, 775059, 821146, 869974, 921705, 976513, 1034579, 1096099, 1161276, 1230329, 1303488, 1380998,
      1463116, 1550118, 1642292, 1739948 ] := by decide +kernel

theorem test_pinc_16_to_31 : (List.range 16).map (fun k => (pinc 48000 (16 + k)).toNat) =
    [ 1843411, 1953026, 2069159, 2192197, 2322552, 2460658, 2606977, 2761996, 2926232, 3100235, 3284585,
      3479896, 3686822, 3906052, 4138318, 4384395 ] := by decide +kernel

theorem test_pinc_32_to_47 : (List.range 16).map (fun k => (pinc 48000 (32 + k)).toNat) =
    [ 4645104, 4921317, 5213953, 5523991, 5852465, 6200470, 6569170, 6959793, 7373644, 7812103, 8276635,
      8768789, 9290209, 9842633, 10427907, 11047982 ] := by decide +kernel

theorem test_pinc_48_to_63 : (List.range 16).map (fun k => (pinc 48000 (48 + k)).toNat) =
    [ 11704930, 12400941, 13138339, 13919586, 14747287, 15624207, 16553270, 17537579, 18580418, 19685267,
      20855814, 22095965, 23409859, 24801882, 26276679, 27839171 ] := by decide +kernel

theorem test_pinc_64_to_79 : (List.range 16).map (fun k => (pinc 48000 (64 + k)).toNat) =
    [ 29494575, 31248413, 33106541, 35075158, 37160835, 39370534, 41711627, 44191930, 46819719, 49603764,
      52553357, 55678342, 58989149, 62496826, 66213081, 70150316 ] := by decide +kernel

theorem test_pinc_80_to_95 : (List.range 16).map (fun k => (pinc 48000 (80 + k)).toNat) =
    [ 74321671, 78741067, 83423255, 88383859, 93639437, 99207528, 105106715, 111356685, 117978298, 124993653,
      132426162, 140300631, 148643341, 157482134, 166846509, 176767719 ] := by decide +kernel

theorem test_pinc_96_to_111 : (List.range 16).map (fun k => (pinc 48000 (96 + k)).toNat) =
    [ 187278874, 198415056, 210213429, 222713370, 235956596, 249987305, 264852324, 280601263, 297286682,
      314964268, 333693018, 353535438, 374557749, 396830112, 420426858, 445426740 ] := by decide +kernel

theorem test_pinc_112_to_127 : (List.range 16).map (fun k => (pinc 48000 (112 + k)).toNat) =
    [ 471913192, 499974611, 529704648, 561202526, 594573365, 629928537, 667386037, 707070876, 749115498,
      793660223, 840853716, 890853480, 943826385, 999949222, 1059409297, 1122405052 ] := by decide +kernel

/-- 95_test_vectors.md section 2.3. -/
theorem test_sine_lookup :
    [0x00000000, 0x00200000, 0x00400000, 0x00600000, 0x10000000, 0x20000000, 0x3FFFFFFF, 0x40000000, 0x40000001].map
      sineLookup = [0, 100, 201, 301, 12539, 23170, 32766, 32767, 32766] ∧
    [0x60000000, 0x7FC00000, 0x80000000, 0x80400000, 0xA0000000, 0xC0000000, 0xE0000000, 0xFFFFFFFF].map
      sineLookup = [23170, 201, 0, -201, -23170, -32767, -23170, 0] := by decide +kernel

/-! ## Units: the first `n` outputs of a unit -/

def outputs {U : Type} (next : U → Int × U) : Nat → U → List Int
  | 0, _ => []
  | n + 1, u => (next u).1 :: outputs next n (next u).2

/-- An effect on a list of inputs. -/
def filtered (e : Effect) : List Int → List Int
  | [] => []
  | x :: xs => (e.next x).1 :: filtered (e.next x).2 xs

def a4 : Pitch := ⟨.a, .natural, 4⟩

/-- V-SIN-3. -/
theorem test_sine_next :
    outputs SineUnit.next 8 (((SineUnit.init 1).configure 0x00024000).play 48000 a4 0x10 0x10).1 =
      [0, 1885, 1882, 2816, 1870, 2326, 1387, 1606] := by decide +kernel

/-- V-SIN-2: saturation. -/
theorem test_sine_saturates : outputs SineUnit.next 3 ((SineUnit.init 1).play 48000 a4 0xFF 0xFF).1 =
    [0, 32766, 32766] := by decide +kernel

/-- V-SIN-10: a bend that cancels the increment. -/
theorem test_sine_bend :
    outputs SineUnit.next 3 (((SineUnit.init 1).setBend (BitVec.ofInt 32 (-39370534))).play 48000 a4 0x10 0x10).1 =
      [0, 0, 0] := by decide +kernel

/-- V-SAW-2. -/
theorem test_saw_next :
    outputs SawUnit.next 6 (((SawUnit.init 1).configure 0x00024000).play 48000 a4 0x10 0x10).1 =
      [0, 600, 600, 901, 600, 750] := by decide +kernel

/-- V-SAW-3: the wrap. -/
theorem test_saw_wraps :
    outputs SawUnit.next 2 { SawUnit.init 1 with phase := 0x7FFFFFFF, inc := 1, gain := 0x0100 } =
      [32767, -32768] := by decide

/-- V-SMP-1 and V-SMP-2. -/
theorem test_sample_next :
    outputs SampleUnit.next 6 ((SampleUnit.init ⟨2, romKick⟩).play 0x10 0x10) =
      [20000, 10000, -10000, -20000, 0, 0] ∧
    outputs SampleUnit.next 5 ((SampleUnit.init ⟨2, romKick⟩).play 0xFF 0x10) =
      [32767, 32767, -32768, -32768, 0] := by decide

/-- V-SMP-6: an empty buffer. -/
theorem test_sample_empty : ((SampleUnit.init ⟨2, []⟩).play 0x10 0x10).next =
    (0, { SampleUnit.init ⟨2, []⟩ with gain := 0x0100 }) := by decide

/-- V-DRM-7: the sum is saturated once. -/
theorem test_drum_next :
    (drumNext ⟨(SampleUnit.init ⟨2, [0x7FFF]⟩).play 0x10 0x10, (SampleUnit.init ⟨2, [0x7FFF]⟩).play 0x10 0x10,
      (SampleUnit.init ⟨2, [0x8000]⟩).play 0x10 0x10⟩).1 = 32766 := by decide

/-- V-LIN-1 and V-LIN-3. -/
theorem test_linDecay :
    filtered (.linDecay (((LinDecayUnit.init 1).configure 0x00023000).play 0x10)) (List.replicate 8 16384) =
      [16383, 16383, 10239, 10239, 4095, 4095, 0, 0] ∧
    filtered (.linDecay (((LinDecayUnit.init 1).configure 0x00017FFF).play 0x10)) (List.replicate 3 (-32768)) =
      [-32767, 0, 0] := by decide

/-- V-EXP-1 and V-EXP-2. -/
theorem test_expDecay :
    filtered (.expDecay (((ExpDecayUnit.init 1).configure 0x00014000).play 0x10)) (List.replicate 6 (-32768)) =
      [-32767, -16383, -8191, -4095, -2047, -1023] ∧
    filtered (.expDecay (((ExpDecayUnit.init 1).configure 0x00037FFF).play 0x10)) (List.replicate 7 32767) =
      [32766, 32766, 32766, 32765, 32765, 32765, 32764] := by decide

/-- V-LPF-1 and V-LPF-4. -/
theorem test_lpf :
    filtered (.lpf { LpfUnit.init 1 with alpha := 0x4000 }) [32767, 32767, 32767, -32768, 0, 0] =
      [16383, 24575, 28671, -2049, -1025, -513] ∧
    filtered (.lpf { LpfUnit.init 1 with alpha := 0x4000, y := 0xFFFF }) [0, 0, 0] = [-1, -1, -1] := by decide

/-! ## States for single steps -/

/-- The outcome's state as data. -/
def result (o : Host.Outcome State Fault Refusal) : Option State :=
  match o with
  | .next t => some t
  | .fault _ => none
  | .refused _ => none

/-- A block at reset with `r` between two roots that the beat's address 1 does not reach. -/
def amid (r : Synth) : State :=
  { State.reset with roots := [.saw (SawUnit.init 2), r, .saw (SawUnit.init 4)], beatAddr := 1 }

/-- A block at reset with one root. -/
def oneRoot (r : Synth) : State := { State.reset with roots := [r] }

/-- A block with one event scheduled. -/
def next (e : Event) (s : State) : State := { s with inputs := [.event e] }

/-- Four Sine voices with the given slots. -/
def voices4 (a b c d : Option Pitch) : Voices :=
  .cons a (.sine (SineUnit.init 1)) (.cons b (.sine (SineUnit.init 1))
    (.cons c (.sine (SineUnit.init 1)) (.cons d (.sine (SineUnit.init 1)) .nil)))

/-- A clock cycle that asks for nothing. -/
def quietCycle : CycleIn :=
  { rst := false, sampleTick := false, cmdValid := false, cmdAddr := 0, cmdWord := 0, seqTick := false, regWe := false,
    regRe := false, regIndex := 0, regWdata := 0, diagSlot := false }

/-! ## The two instructions -/

/-- V-SIN-8: PLAY of C−1 on a Sine. -/
theorem test_play_sine :
    (result (exec (.play ⟨.c, .natural, -1⟩ 0x10 0x10) (amid (.sine (SineUnit.init 1))))).map (·.roots[1]?) =
      some (some (.sine { SineUnit.init 1 with inc := 731558, gain := 0x0100, amp := 0x7FFF })) := by decide +kernel

/-- V-DRM-4 and V-DIA-3: PLAY of an unmapped pitch on the Drum, as the first instruction after reset. -/
theorem test_play_drumUnmapped :
    (result (step (State.reset.withBeat ⟨0x02, 0x00941010⟩))).map
      (fun t => (t.status, t.trace, t.fifo, t.lastSample)) = some (0x04, [.drumUnmapped], [], 0) := by decide +kernel

/-- V-SIN-5: SETATTACK on a Sine. -/
theorem test_setAttack_sine :
    (result (exec (.setAttack 0x08 0x10) (amid (.sine (SineUnit.init 1))))).map (·.roots[1]?) =
      some (some (.sine { SineUnit.init 1 with attack := 0x0080 })) := by decide

/-- V-PLY-11: SETATTACK reaches the voice of an allocator, whose slot is empty and stays so. -/
theorem test_setAttack_poly :
    (result (exec (.setAttack 0x08 0x10) (amid (.poly 1 (.cons none (.sine (SineUnit.init 1)) .nil))))).map
      (·.roots[1]?) =
        some (some (.poly 1 (.cons none (.sine { SineUnit.init 1 with attack := 0x0080 }) .nil))) := by decide

/-! ## Steps -/

/-- V-ENG-4: the kick beat is popped and heard in the same step. -/
theorem test_step_kick :
    (result (step (State.reset.withBeat ⟨0x02, 0x00921010⟩))).map (fun t => (t.fifo, t.lastSample, t.sampleValid)) =
      some ([], 20000, true) := by decide +kernel

/-- The word of each row runs as the first instruction after reset (assumption 6). -/
theorem test_withFetchWord :
    (result (step (State.reset.withFetchWord 32 0x00000000))).isSome = true ∧
    (result (step (State.reset.withFetchWord 32 0x04000000))).isSome = true ∧
    decodeTableWord 32 0x00000000 = some (.play ⟨.a, .doubleFlat, 0⟩ 0 0) ∧
    decodeTableWord 32 0x04000000 = some (.setAttack 0 0) := by decide +kernel

/-- V-PLY-3: a Play on a full allocator. -/
theorem test_poly_full :
    (result (exec (.play ⟨.b, .natural, 4⟩ 0x10 0x10)
      (amid (.poly 1 (voices4 (some a4) (some ⟨.c, .natural, 4⟩) (some ⟨.e, .natural, 4⟩)
        (some ⟨.g, .natural, 4⟩)))))).map (fun t => (t.status, t.trace)) = some (0x02, [.voiceDrop]) := by
  decide +kernel

/-- V-PLY-7: a note-off on an idle allocator goes to voice 0 and leaves its slot empty. -/
theorem test_poly_idle_noteOff :
    Voices.choose ⟨.d, .natural, 4⟩ (voices4 none none none none) = some 0 ∧
    slotAfter ⟨.d, .natural, 4⟩ 0 = none := by decide

/-- V-WFX-1: a beat for the effect's address alone restarts the envelope and leaves the Sine. -/
theorem test_withEffect_effect_only :
    (Synth.withEffect (.sine (SineUnit.init 1)) (.expDecay (ExpDecayUnit.init 4))).runCommand Params.ref 0x04
      (.play a4 0x10 0x10) =
      (.withEffect (.sine (SineUnit.init 1)) (.expDecay { ExpDecayUnit.init 4 with amp := 0x7FFF }), []) := by
  decide +kernel

/-- R201, R261, R267, R265, R264: a beat that reaches a Sine root and the Drum root; each reports, in root order. -/
theorem test_two_roots :
    (result (exec (.play ⟨.c, .flat, -1⟩ 0x10 0x10)
      { State.reset with
        roots := [.sine (SineUnit.init 1), .drum 2 (SampleUnit.init ⟨2, romKick⟩) (SampleUnit.init ⟨2, romSnare⟩)
          (SampleUnit.init ⟨2, romHat⟩)],
        beatAddr := 3 })).map (fun t => (t.trace, t.status)) = some ([.pitchRange, .drumUnmapped], 0x0C) := by decide

/-- V-MIX-2: a beat at address 3 reaches both roots of REF. -/
theorem test_both_roots :
    (result (exec (.play ⟨.c, .natural, 2⟩ 0xFF 0x10) { State.reset with beatAddr := 3 })).map (fun t =>
      (t.units.map (fun v => match v with | .poly _ slots => slots | _ => []))[1]?) =
      some (some [some ⟨.c, .natural, 2⟩, none, none, none]) ∧
    (result (exec (.play ⟨.c, .natural, 2⟩ 0xFF 0x10) { State.reset with beatAddr := 3 })).map (fun t =>
      (t.units.map (fun v => match v with | .sample u => u.active | _ => false))[8]?) = some (some true) := by
  decide +kernel

/-- V-SEQ-7: cymbal, hat and kick in that order. -/
theorem test_seq_beats :
    (emitBeats Params.ref { Sequencer.init with
      mode := .playing, cymbal4 := true, active := { Pattern.init with hatMask := 1, kickMask := 1 } }).map (·.word) =
      [0x009D1010, 0x009D1010, 0x00921010] := by decide

/-- V-SEQ-4 and V-SEQ-11: the position after the eighth tick of a slow count-off, and in a fast one at subdivision 6. -/
theorem test_seqPos :
    seqPosWord ((Sequencer.drainedTick Params.ref)^[8] { Sequencer.init with mode := .countoffSlow }) = 0x881 ∧
    currentSubdivision { Sequencer.init with mode := .countoffFast, idx := 6 } = 4 := by decide

/-- V-REG-5, V-REG-6, V-REG-7, V-REG-9 and V-RST-1: settings records and reset values, through one write or read. -/
theorem test_registers :
    (State.reset.regWrite 0x102 0xFFFFFFFF).regValue 0x102 = 0xFFFF7FFF ∧
    (State.reset.regWrite 0x106 0xFFFFFFFF).regValue 0x106 = 0x00007FFF ∧
    (State.reset.regWrite 0x108 0x1234).regValue 0x108 = 0 ∧
    (State.reset.regWrite 0x202 0xFFFFFFFF).regValue 0x202 = 0xFFFFFFFF ∧
    State.reset.regValue 0x004 = 0x00101010 := by decide

/-- V-DIA-7 and V-DIA-9: writing 1 clears. -/
theorem test_status_write : statusCleared 0x05 0x2 = 0x05 ∧ statusCleared 0x05 0xFFFFFFFF = 0 := by decide

/-- V-ENG-3 and R280: `cmd_ready` with a beat waiting in `seqbuf`, at reset, and while `rst` is high. -/
theorem test_cmdReady :
    (ports false { State.reset with seq := { Sequencer.init with seqbuf := [⟨2, 0⟩] } }).cmdReady = false ∧
    (ports false State.reset).cmdReady = true ∧ (ports true State.reset).cmdReady = false := by decide

/-- R101, R102: an assembler statement as an event (the first word of Program 1). -/
theorem test_assemble : assemble (.play 0x01 a4 0x10 0x10) = .hostPush 0x01 0x01101010 ∧
    assemble (.noteOff 0x01 ⟨.c, .natural, 4⟩) = .hostPush 0x01 0x01120000 := by decide

/-- R247: a sample tick during a step in progress stops the block. -/
theorem test_deadline :
    step { State.reset with busy := 1, inputs := [.cycle { quietCycle with sampleTick := true }] } =
      .fault .sampleTickDuringStep := rfl

/-! ## Witnesses: the hypotheses of each obligation, met together -/

theorem witness_DeserializeByFields :
    ((0x00261010 : Word).extractLsb' 26 6 = 0 ∧ ((0x00261010 : Word).extractLsb' 16 3).toNat = 6 ∧
      ((0x00261010 : Word).extractLsb' 19 3).toNat = 4) ∧
    ((0x00070000 : Word).extractLsb' 26 6 = 0 ∧ 6 < ((0x00070000 : Word).extractLsb' 16 3).toNat) ∧
    ((0x00280000 : Word).extractLsb' 26 6 = 0 ∧ 4 < ((0x00280000 : Word).extractLsb' 19 3).toNat) ∧
    (0x07FF1008 : Word).extractLsb' 26 6 = 1 ∧
    ((0x08000000 : Word).extractLsb' 26 6 ≠ 0 ∧ (0x08000000 : Word).extractLsb' 26 6 ≠ 1) := by decide

theorem witness_SerializeRoundTrip :
    (Instr.play ⟨.c, .doubleFlat, -8⟩ 255 255).wf = true ∧ (Instr.setAttack 255 255).wf = true ∧
    ((0x07FF1008 : Word).extractLsb' 26 6 = 1 ∧ (0x07FF1008 : Word).extractLsb' 16 10 ≠ 0 ∧
      deserialize 0x07FF1008 = some (.setAttack 0x08 0x10)) := by decide

theorem witness_EncodeDecodedWord :
    deserialize 0x03C21010 = some (.play ⟨.c, .doubleFlat, -1⟩ 0x10 0x10) ∧
    deserialize 0x07FF1008 = some (.setAttack 0x08 0x10) := by decide

theorem witness_LinearCodeRange :
    Pitch.wf ⟨.c, .doubleFlat, -8⟩ = true ∧ code ⟨.c, .doubleFlat, -8⟩ = -86 ∧
    Pitch.wf ⟨.b, .doubleSharp, 7⟩ = true ∧ code ⟨.b, .doubleSharp, 7⟩ = 109 ∧
    code ⟨.b, .sharp, -2⟩ = 0 ∧ code ⟨.c, .flat, -1⟩ = -1 := by decide

theorem witness_PhaseIncrementIsRoundedFrequency : 25088 ≤ Params.ref.sampleRateHz ∧ 69 ≤ 127 := by decide

/-- The two ends of the first quarter cycle, and its last table entry. -/
theorem witness_SineLookupFollowsTheSine :
    (0x00000000 : Word).toNat ≤ 2 ^ 30 ∧ (0x40000000 : Word).toNat ≤ 2 ^ 30 ∧ 0x40000000 / 2 ^ 22 = 256 ∧ 256 ≤ 256 := by
  decide

/-- Any root that address 1 reaches stands alone in its reach. -/
theorem reachesOnly_amid (r : Synth) (h : (1 : Addr) &&& r.addr ≠ 0) :
    (amid r).ReachesOnly [.saw (SawUnit.init 2)] r [.saw (SawUnit.init 4)] :=
  ⟨rfl, h, fun q hq => by cases List.mem_singleton.mp hq; exact (by decide : (1 : Addr) &&& 2 = 0),
    fun q hq => by cases List.mem_singleton.mp hq; exact (by decide : (1 : Addr) &&& 4 = 0)⟩

/-- With the clauses: codes at the ends of the range, and a code below and above it. -/
theorem witness_PlayOnSine :
    (amid (.sine (SineUnit.init 1))).ReachesOnly [.saw (SawUnit.init 2)] (.sine (SineUnit.init 1))
      [.saw (SawUnit.init 4)] ∧
    code ⟨.c, .natural, -1⟩ = 0 ∧ code ⟨.g, .natural, 9⟩ = 127 ∧ code ⟨.c, .flat, -1⟩ = -1 ∧
    code ⟨.g, .sharp, 9⟩ = 128 := ⟨reachesOnly_amid _ (by decide), by decide⟩

theorem witness_PlayOnSaw :
    (amid (.saw (SawUnit.init 1))).ReachesOnly [.saw (SawUnit.init 2)] (.saw (SawUnit.init 1))
      [.saw (SawUnit.init 4)] := reachesOnly_amid _ (by decide)

theorem witness_PlayOnSample :
    (amid (.sample (SampleUnit.init ⟨1, romKick⟩))).ReachesOnly [.saw (SawUnit.init 2)]
      (.sample (SampleUnit.init ⟨1, romKick⟩)) [.saw (SawUnit.init 4)] := reachesOnly_amid _ (by decide)

/-- A Drum at address 1 with the REF buffers. -/
def drum1 : Synth :=
  .drum 1 (SampleUnit.init ⟨2, romKick⟩) (SampleUnit.init ⟨2, romSnare⟩) (SampleUnit.init ⟨2, romHat⟩)

/-- With a pitch for each clause (95_test_vectors.md section 2.2). -/
theorem witness_PlayOnDrum :
    (amid drum1).ReachesOnly [.saw (SawUnit.init 2)] drum1 [.saw (SawUnit.init 4)] ∧
    Params.ref.drumKickCode ≠ Params.ref.drumSnareCode ∧ Params.ref.drumKickCode ≠ Params.ref.drumHatCode ∧
    Params.ref.drumSnareCode ≠ Params.ref.drumHatCode ∧
    code ⟨.c, .natural, 2⟩ = Params.ref.drumKickCode ∧ code ⟨.d, .natural, 2⟩ = Params.ref.drumSnareCode ∧
    code ⟨.f, .sharp, 2⟩ = Params.ref.drumHatCode ∧ code ⟨.e, .natural, 2⟩ = 40 :=
  ⟨reachesOnly_amid _ (by decide), by decide⟩

theorem witness_SetAttackOnSine :
    (amid (.sine (SineUnit.init 1))).ReachesOnly [.saw (SawUnit.init 2)] (.sine (SineUnit.init 1))
      [.saw (SawUnit.init 4)] := reachesOnly_amid _ (by decide)

/-- With the clauses on `every`: 0, waiting, and due at the boundary. -/
theorem witness_SineSampleStep :
    (next .sampleStep (oneRoot (.sine (SineUnit.init 1)))).inputs = .event .sampleStep :: [] ∧
    (oneRoot (.sine (SineUnit.init 1))).fifo = [] ∧
    (oneRoot (.sine (SineUnit.init 1))).roots = [.sine (SineUnit.init 1)] ∧ (SineUnit.init 1).every = 0 ∧
    (0 : U16).toNat + 1 < (2 : U16).toNat ∧ (2 : U16).toNat ≤ (1 : U16).toNat + 1 := by decide

theorem witness_SawSampleStep :
    (next .sampleStep (oneRoot (.saw (SawUnit.init 1)))).inputs = .event .sampleStep :: [] ∧
    (oneRoot (.saw (SawUnit.init 1))).fifo = [] ∧
    (oneRoot (.saw (SawUnit.init 1))).roots = [.saw (SawUnit.init 1)] := by decide

theorem witness_EffectSampleStep :
    (next .sampleStep (oneRoot (.withEffect (.sine (SineUnit.init 1)) (.linDecay (LinDecayUnit.init 1))))).inputs =
      .event .sampleStep :: [] ∧
    (oneRoot (.withEffect (.sine (SineUnit.init 1)) (.linDecay (LinDecayUnit.init 1)))).roots =
      [.withEffect (.sine (SineUnit.init 1)) (.linDecay (LinDecayUnit.init 1))] ∧
    (oneRoot (.withEffect (.sine (SineUnit.init 1)) (.expDecay (ExpDecayUnit.init 1)))).roots =
      [.withEffect (.sine (SineUnit.init 1)) (.expDecay (ExpDecayUnit.init 1))] ∧
    (oneRoot (.withEffect (.sine (SineUnit.init 1)) (.expDecay (ExpDecayUnit.init 1)))).fifo = [] ∧
    (oneRoot (.withEffect (.sine (SineUnit.init 1)) (.lpf (LpfUnit.init 1)))).roots =
      [.withEffect (.sine (SineUnit.init 1)) (.lpf (LpfUnit.init 1))] := by decide

/-- With the last index of the buffer, its end, and one past it. -/
theorem witness_SamplePlaysItsBuffer :
    (0x10 : U44) ≠ 0 ∧ (SampleUnit.init ⟨2, romKick⟩).rom.length ≤ 2 ^ 20 ∧
    3 < (SampleUnit.init ⟨2, romKick⟩).rom.length ∧ (SampleUnit.init ⟨2, romKick⟩).rom.length ≤ 4 ∧
    (SampleUnit.init ⟨2, romKick⟩).rom.length < 5 := by decide

/-- The least interval, which is due at once, one that waits, and a counter that stands above the interval. -/
theorem witness_DecayDueOnTheEveryThCall :
    (1 : U16) ≠ 0 ∧ (1 : U16).toNat ≤ (0 : U16).toNat + 1 ∧ (0 : U16).toNat + 1 < (2 : U16).toNat ∧
    (2 : U16).toNat ≤ (0xFFFF : U16).toNat + 1 ∧ 0 < (1 : U16).toNat ∧ 0 + 1 < (2 : U16).toNat := by decide

theorem witness_EnvelopesFallToZero :
    ((LinDecayUnit.init 1).configure 0x00010001).every ≠ 0 ∧ ((LinDecayUnit.init 1).configure 0x00010001).step ≠ 0 ∧
    ((ExpDecayUnit.init 1).configure 0x00017FFF).every ≠ 0 := by decide

/-- The ends of the sample range. -/
theorem witness_LowPassIsExact :
    ([-32768, 0, 32767] : List Int).all (fun x => decide (-32768 ≤ x ∧ x ≤ 32767)) = true := by decide

/-- A retrigger of a slot that is not the first, and a first empty slot; and a voice as a root of its own. -/
theorem witness_PolyPlaysTheChosenVoice :
    (amid (.poly 1 (voices4 none (some a4) none none))).ReachesOnly [.saw (SawUnit.init 2)]
      (.poly 1 (voices4 none (some a4) none none)) [.saw (SawUnit.init 4)] ∧
    ChosenVoice (voices4 none (some a4) none none).slots a4 1 ∧
    (voices4 none (some a4) none none).toList[1]? = some (some a4, .sine (SineUnit.init 1)) ∧
    ChosenVoice (voices4 none (some a4) none none).slots ⟨.c, .natural, 4⟩ 0 ∧
    ((amid (.sine (SineUnit.init 1))).ReachesOnly [.saw (SawUnit.init 2)] (.sine (SineUnit.init 1))
      [.saw (SawUnit.init 4)] ∧ ∀ synth effect, Synth.sine (SineUnit.init 1) ≠ .withEffect synth effect) :=
  ⟨reachesOnly_amid _ (by decide), .inl (by decide), by decide, .inr (by decide), reachesOnly_amid _ (by decide),
    fun _ _ h => by cases h⟩

theorem witness_PolyDropsWhenFull :
    (amid (.poly 1 (.cons (some a4) (.sine (SineUnit.init 1)) .nil))).ReachesOnly [.saw (SawUnit.init 2)]
      (.poly 1 (.cons (some a4) (.sine (SineUnit.init 1)) .nil)) [.saw (SawUnit.init 4)] ∧
    some ⟨.b, .natural, 4⟩ ∉ (Voices.cons (some a4) (.sine (SineUnit.init 1)) .nil).slots ∧
    none ∉ (Voices.cons (some a4) (.sine (SineUnit.init 1)) .nil).slots :=
  ⟨reachesOnly_amid _ (by decide), by decide⟩

theorem witness_PolyAttackReachesEveryVoice :
    (amid (.poly 1 (voices4 none none none none))).ReachesOnly [.saw (SawUnit.init 2)]
      (.poly 1 (voices4 none none none none)) [.saw (SawUnit.init 4)] := reachesOnly_amid _ (by decide)

/-- The least and the greatest number of voices, and numbers on both sides of a power of two. -/
theorem witness_PolySumNeverClamps :
    (Voices.replicate 1 (.sine (SineUnit.init 1))).count = 1 ∧
    (Voices.replicate 16 (.sine (SineUnit.init 1))).count = 16 ∧ 4 ≤ 2 ^ 2 ∧ 5 ≤ 2 ^ 3 := by decide

/-- The effect alone, and the synth alone, are reached by address 1; over a Sine and over an allocator; and a voice that
is a WithEffect. -/
theorem witness_WithEffectRoutesByOwnAddress :
    (amid (.withEffect (.sine (SineUnit.init 2)) (.expDecay (ExpDecayUnit.init 1)))).ReachesOnly
      [.saw (SawUnit.init 2)] (.withEffect (.sine (SineUnit.init 2)) (.expDecay (ExpDecayUnit.init 1)))
      [.saw (SawUnit.init 4)] ∧
    (amid (.withEffect (.poly 1 (voices4 none none none none)) (.linDecay (LinDecayUnit.init 2)))).ReachesOnly
      [.saw (SawUnit.init 2)] (.withEffect (.poly 1 (voices4 none none none none)) (.linDecay (LinDecayUnit.init 2)))
      [.saw (SawUnit.init 4)] ∧
    ((amid (.poly 1 (.cons none (.withEffect (.sine (SineUnit.init 2)) (.expDecay (ExpDecayUnit.init 4))) .nil))).ReachesOnly
      [.saw (SawUnit.init 2)] (.poly 1 (.cons none (.withEffect (.sine (SineUnit.init 2)) (.expDecay (ExpDecayUnit.init 4))) .nil))
      [.saw (SawUnit.init 4)] ∧ ChosenVoice [none] a4 0) :=
  ⟨reachesOnly_amid _ (by decide), reachesOnly_amid _ (by decide), reachesOnly_amid _ (by decide), .inr (by decide)⟩

theorem witness_SampleStepMixesEveryRoot :
    (next .sampleStep State.reset).inputs = .event .sampleStep :: [] ∧ (next .sampleStep State.reset).fifo = [] ∧
    State.reset.roots.length = 2 := by decide

/-- V-MIX-3: address 4 reaches no root of REF. -/
theorem witness_UnmatchedAddressChangesNothing :
    ∀ r : Synth, r ∈ State.reset.roots → ({ State.reset with beatAddr := 4 } : State).beatAddr &&& r.addr = 0 := by
  decide

/-- A root that the address reaches and one that it does not. -/
theorem witness_CommandFrame :
    State.reset.roots.map (fun r => decide ((1 : Addr) &&& r.addr = 0)) = [false, true] := by decide

theorem witness_SequencerControl :
    (next (.regWrite 0x000 1) State.reset).inputs = .event (.regWrite 0x000 1) :: [] ∧
    (next (.regWrite 0x000 1) State.reset).seq.mode = .stopped := by decide

/-- A tick inside the measure and one at its end, in both meters. -/
theorem witness_TickAdvancesPosition :
    (next .seqTick { State.reset with seq := { Sequencer.init with mode := .playing } }).inputs = .event .seqTick :: [] ∧
    ({ Sequencer.init with mode := .playing } : Sequencer).seqbuf = [] ∧
    ([.countoffSlow, .countoffFast, .playing] : List SeqMode).all (fun m => decide (m ≠ .stopped)) = true ∧
    (14 : BitVec 4).toNat + 1 < 16 ∧ 16 ≤ (15 : BitVec 4).toNat + 1 ∧
    (10 : BitVec 4).toNat + 1 < 12 ∧ 12 ≤ (11 : BitVec 4).toNat + 1 := by decide

/-- A tick of each mode answers a next state. -/
theorem witness_TickEmitsBeats :
    ([.countoffSlow, .countoffFast, .playing] : List SeqMode).all (fun m =>
      (result (step (next .seqTick { State.reset with seq := { Sequencer.init with mode := m } }))).isSome) = true := by
  decide

theorem witness_StoppedTickChangesNothing :
    (next .seqTick State.reset).inputs = .event .seqTick :: [] ∧ (next .seqTick State.reset).seq.mode = .stopped ∧
    (next .seqTick State.reset).seq.seqbuf = [] := by decide

theorem witness_OverrunLosesTheTick :
    (next .seqTick { State.reset with seq := { Sequencer.init with seqbuf := [⟨2, 0⟩] } }).inputs =
      .event .seqTick :: [] ∧
    ({ Sequencer.init with seqbuf := [⟨2, 0⟩] } : Sequencer).seqbuf ≠ [] := by decide

/-- The premises of each clause, in both meters. -/
theorem witness_SequencerLaws :
    Sequencer.init.seqbuf = [] ∧ Sequencer.init.idx = 0 ∧ Sequencer.init.measure = 0 ∧
    ({ Sequencer.init with mode := .playing, cymbal4 := true } : Sequencer).meter = .fourFour ∧
    ({ Sequencer.init with mode := .countoffSlow, meter := .twelveEight } : Sequencer).mode = .countoffSlow := by decide

theorem witness_CommitCopiesTheShadow :
    (next (.regWrite 0x005 0) State.reset).inputs = .event (.regWrite 0x005 0) :: [] ∧
    ([0x002, 0x003, 0x004] : List RegIndex).all (fun i =>
      (result (step (next (.regWrite i 0xFFFFFFFF) State.reset))).isSome) = true := by decide

/-- One beat waiting and a channel one short of full. -/
theorem witness_SeqPushMovesTheHead :
    (next .seqPush { State.reset with seq := { Sequencer.init with seqbuf := [⟨2, 0⟩] } }).seq.seqbuf = ⟨2, 0⟩ :: [] ∧
    (next .seqPush State.reset).inputs = .event .seqPush :: [] ∧
    (List.replicate 7 (⟨1, 0⟩ : Beat)).length < Params.ref.fifoDepth := by decide

/-- A channel one short of full, and a full one. -/
theorem witness_HostPushWaitsForReady :
    (next (.hostPush 0xFF 0) State.reset).inputs = .event (.hostPush 0xFF 0) :: [] ∧
    (0xFF : Addr).toNat < 2 ^ State.reset.params.addrW ∧
    (ports false { State.reset with fifo := List.replicate 7 ⟨1, 0⟩ }).cmdReady = true ∧
    (ports false { State.reset with fifo := List.replicate 8 ⟨1, 0⟩ }).cmdReady = false := by decide

/-- An event and a clock cycle, neither a reset, both going on. -/
theorem witness_ChannelKeepsOrder :
    (Input.event .sampleStep).resets = false ∧ (Input.cycle { quietCycle with cmdValid := true }).resets = false ∧
    (result (step (next .sampleStep State.reset))).isSome = true ∧
    (result (step { State.reset with inputs := [.cycle { quietCycle with cmdValid := true }] })).map (·.fifo.length) =
      some 1 := by decide +kernel

theorem witness_LatencyInSampleSteps :
    (List.replicate 2 (Input.event .sampleStep)) = List.replicate 2 (Input.event .sampleStep) ++ [] ∧
    (List.replicate 3 (⟨1, 0⟩ : Beat))[2]? = some ⟨1, 0⟩ := by decide

theorem witness_StepRunsDecodedCommand :
    (State.reset.withBeat ⟨1, 0x01101010⟩).inputs = .event .sampleStep :: [] ∧
    (State.reset.withBeat ⟨1, 0x01101010⟩).fifo = ⟨1, 0x01101010⟩ :: [] ∧
    deserialize 0x01101010 = some (.play a4 0x10 0x10) := by decide

theorem witness_MalformedWordIsConsumed :
    (State.reset.withBeat ⟨1, 0x08000000⟩).inputs = .event .sampleStep :: [] ∧
    (State.reset.withBeat ⟨1, 0x08000000⟩).fifo = ⟨1, 0x08000000⟩ :: [] ∧ deserialize 0x08000000 = none := by decide

/-- A cycle that asks for everything at once; and an event and a cycle that present the oldest of two codes. -/
theorem witness_CycleIsItsEventSequence :
    ({ quietCycle with
      sampleTick := true, cmdValid := true, seqTick := true, regWe := true, regRe := true, diagSlot := true } :
      CycleIn).rst = false ∧ State.reset.busy = 0 ∧
    (result (step (next .presentDiag { State.reset with trace := [.malformed, .voiceDrop] }))).map
      (fun t => (t.diagOut, t.trace)) = some (some .malformed, [.voiceDrop]) ∧
    (result (step { State.reset with
      trace := [.malformed, .voiceDrop], inputs := [.cycle { quietCycle with diagSlot := true }] })).map
      (fun t => (t.diagOut, t.trace)) = some (some .malformed, [.voiceDrop]) := by decide

/-- A state that misses the deadline, and one that does not. -/
theorem witness_OnlyAMissedDeadlineStops :
    ({ State.reset with busy := 1, inputs := [.cycle { quietCycle with sampleTick := true }] } : State).deadlineMissed ∧
    ¬ State.reset.deadlineMissed :=
  ⟨⟨_, [], rfl, rfl, rfl, by decide⟩, fun ⟨_, _, h, _⟩ => by cases h⟩

theorem witness_StatusWriteOneToClear :
    (next (.regWrite 0x006 0x05) State.reset).inputs = .event (.regWrite 0x006 0x05) :: [] := rfl

/-- A step that clears a sticky bit. -/
theorem witness_StickyBitsStay :
    (result (step (next (.regWrite 0x006 0x01) { State.reset with status := 0x03 }))).map (·.status) = some 0x02 := by
  decide

/-- The last unit of REF; a Sine, an LPF and a unit without settings are among the others (R33). -/
theorem witness_UnitCfgWriteReplacesTheRecord :
    (next (.regWrite (BitVec.ofNat 12 (0x100 + 10)) 5) State.reset).inputs =
      .event (.regWrite (BitVec.ofNat 12 (0x100 + 10)) 5) :: [] ∧
    10 < State.reset.numUnits ∧ 10 < 256 ∧ State.reset.units[0]? = some .withEffect ∧
    State.reset.units[2]? = some (.sine (SineUnit.init 1)) ∧
    State.reset.units[6]? = some (.lpf (LpfUnit.init 1)) := by decide

theorem witness_BendWriteReachesOnlySines :
    (next (.regWrite (BitVec.ofNat 12 (0x200 + 2)) 5) State.reset).inputs =
      .event (.regWrite (BitVec.ofNat 12 (0x200 + 2)) 5) :: [] ∧ 2 < State.reset.numUnits := by decide

theorem witness_RegistersReadBack :
    (next (.regRead 0x006) State.reset).inputs = .event (.regRead 0x006) :: [] := rfl

/-- V-REG-11: the first index after the fixed registers, UNIT_CFG and BEND of unit 11, 0x300 and 0xFFF. -/
theorem witness_UnmappedIndexIsInert :
    ([0x009, 0x0FF, 0x10B, 0x1FF, 0x20B, 0x2FF, 0x300, 0xFFF] : List RegIndex).all (fun i =>
      decide (8 < i.toNat) && !decide (0x100 ≤ i.toNat ∧ i.toNat < 0x200 ∧ i.toNat - 0x100 < State.reset.numUnits) &&
      !decide (0x200 ≤ i.toNat ∧ i.toNat < 0x300 ∧ i.toNat - 0x200 < State.reset.numUnits)) = true := by decide

/-- The invariant holds of a block with a full channel and four beats waiting. -/
theorem witness_FifoLevelHoldsBothCounts :
    ({ State.reset with
      fifo := List.replicate 8 ⟨1, 0⟩,
      seq := { Sequencer.init with seqbuf := List.replicate 4 (accentBeat Params.ref) } } : State).Inv := by
  decide +kernel

theorem witness_ResetRestoresTheResetState :
    (next .reset State.reset).inputs = .event .reset :: [] ∧ (Input.event .reset).resets = true ∧
    (Input.cycle { quietCycle with rst := true, sampleTick := true }).resets = true := by decide

theorem witness_ResetValues :
    State.reset.units[6]? = some (.lpf ⟨0x01, 0x7FFF, 0⟩) ∧ State.reset.regValue 0x106 = 0x00007FFF#32 := by
  decide +kernel

/-- Right after reset, with a tick scheduled, and with a cycle that asks for a sample, a tick and a read. -/
theorem witness_SilentBlockStaysSilent :
    State.reset.Silent ∧
    (Input.event .seqTick).pushes = false ∧ (Input.event .seqTick).writes = none ∧
    (Input.cycle { quietCycle with sampleTick := true, seqTick := true, regRe := true }).pushes = false ∧
    (Input.cycle { quietCycle with sampleTick := true, seqTick := true, regRe := true }).writes = none ∧
    (Input.cycle { quietCycle with sampleTick := true, seqTick := true, regRe := true }).samples = true ∧
    ¬ State.reset.deadlineMissed := by
  refine ⟨⟨rfl, rfl, rfl, ?_⟩, rfl, rfl, rfl, rfl, rfl, fun ⟨_, _, h, _⟩ => by cases h⟩
  intro v hv
  fin_cases hv <;> first | rfl | trivial

theorem witness_StepKeepsTheInvariant :
    State.reset.Inv ∧ (State.reset.withBeat ⟨1, 0x01101010⟩).Inv ∧
    (result (step (State.reset.withBeat ⟨1, 0x01101010⟩))).isSome = true := by decide +kernel

/-- A step that keeps the tree, and a reset of a tree that has the shape of `TOPOLOGY`. -/
theorem witness_StructureNeverChanges :
    (result (step (next .sampleStep State.reset))).isSome = true ∧ (Input.event .sampleStep).resets = false ∧
    (result (step (next .reset State.reset))).isSome = true ∧
    treeShapeOk State.reset.params State.reset.roots = true := by decide +kernel

/-- A step that changes a settings record. -/
theorem witness_SettingsChangeOnlyByConfigure :
    (result (step (next (.regWrite 0x102 0x00024000) State.reset))).map
      (fun t => decide (t.units.map UnitView.config ≠ State.reset.units.map UnitView.config)) = some true := by decide

end Sys2Proof.Tests
end

section
/-! The structure of the block (00_scope.md R5, 10_state.md R54): no step changes a parameter, and the shape that
`TOPOLOGY` gives the tree is kept by every step. -/

namespace Sys2Proof.Machine

/-- No step changes a parameter (00_scope.md R5). -/
theorem step_params {s t : State} (h : step s = .next t) : t.params = s.params :=
  step_keeps (P := fun x => x.params = s.params) (fun _ hx => hx) (fun _ _ hx => hx) (fun _ _ hx => hx)
    (fun x e hx => (x.after_params e).trans hx) h rfl

theorem treeShapeOk_iff {cfg : Params} {roots : List Synth} :
    treeShapeOk cfg roots = true ↔ roots.map Synth.skeleton = cfg.topology.map Synth.build := decide_eq_true_iff

/-- A tree as reset builds it has the shape of `TOPOLOGY` (70_reset_and_hazards.md R281, R282). -/
theorem treeShapeOk_build (cfg : Params) : treeShapeOk cfg (cfg.topology.map Synth.build) = true := by
  rw [treeShapeOk_iff, List.map_map]
  exact List.map_congr_left fun t _ => Synth.skeleton_build t

/-- Every event keeps the shape of `TOPOLOGY`: a reset builds it anew, and the others change nothing structural. -/
theorem State.after_treeShapeOk (e : Event) {s : State} (h : treeShapeOk s.params s.roots = true) :
    treeShapeOk (s.after e).params (s.after e).roots = true := by
  by_cases he : e = .reset
  · subst he
    exact treeShapeOk_build s.params
  · rw [treeShapeOk_iff, s.after_skeleton e he, s.after_params e]
    exact treeShapeOk_iff.mp h

/-- Every step, a reset included, keeps the shape of `TOPOLOGY`. -/
theorem step_treeShapeOk {s t : State} (h : step s = .next t) (hs : treeShapeOk s.params s.roots = true) :
    treeShapeOk t.params t.roots = true :=
  step_keeps (P := fun x => treeShapeOk x.params x.roots = true) (fun _ hx => hx) (fun _ _ hx => hx)
    (fun _ _ hx => hx) (fun _ e hx => State.after_treeShapeOk e hx) h hs

/-- A step changes nothing structural of a tree shaped as `TOPOLOGY`: both trees have the shape that the unchanged
parameters fix. -/
theorem step_skeleton_of_treeShapeOk {s t : State} (h : step s = .next t)
    (hs : treeShapeOk s.params s.roots = true) : t.roots.map Synth.skeleton = s.roots.map Synth.skeleton :=
  calc t.roots.map Synth.skeleton
      = t.params.topology.map Synth.build := treeShapeOk_iff.mp (step_treeShapeOk h hs)
    _ = s.params.topology.map Synth.build := by rw [step_params h]
    _ = s.roots.map Synth.skeleton := (treeShapeOk_iff.mp hs).symm

/-- Settles O59: a tree shaped as `TOPOLOGY` keeps that shape through every step, and a step that is no reset keeps the
skeleton of any tree. -/
theorem structureNeverChanges : Obligations.StructureNeverChanges := by
  intro s t h
  refine ⟨step_params h, ?_⟩
  rintro (hshape | hnoReset)
  · exact step_skeleton_of_treeShapeOk h hshape
  · exact step_skeleton h hnoReset

end Sys2Proof.Machine
end

section
/-! The register port (10_state.md R46 to R52, 20_memory.md R77): the bits of STATUS, the fixed registers as words and
their fields, and the registers of one unit. -/

namespace Sys2Proof.Machine

/-! ## The bits of STATUS -/

/-- Diagnostic `k` has the one bit `code − 1` (60_exceptions.md R260). -/
theorem Diag.getLsbD_bit (k : Diag) (b : Nat) : k.bit.getLsbD b = decide (k.code.toNat = b + 1) := by
  have hcode : 1 ≤ k.code.toNat ∧ k.code.toNat ≤ 5 := by cases k <;> decide
  rw [show k.bit = BitVec.twoPow 5 (k.code.toNat - 1) from rfl, BitVec.getLsbD_twoPow, ← Bool.decide_and,
    decide_eq_decide]
  omega

/-- A bit is set after a list of diagnostics if it was set before, or if one of them has it (R261). -/
theorem getLsbD_statusAfter (st : BitVec 5) (ks : List Diag) (b : Nat) :
    (statusAfter st ks).getLsbD b = (st.getLsbD b || ks.any (fun k => decide (k.code.toNat = b + 1))) := by
  induction ks generalizing st with
  | nil => simp [statusAfter]
  | cons k ks ih =>
    rw [show statusAfter st (k :: ks) = statusAfter (st ||| k.bit) ks from rfl, ih, BitVec.getLsbD_or,
      Diag.getLsbD_bit, List.any_cons, Bool.or_assoc]

/-- Write 1 to clear, bit by bit (10_state.md R47). -/
theorem getLsbD_statusCleared (st : BitVec 5) (d : Word) {b : Nat} (hb : b < 5) :
    (statusCleared st d).getLsbD b = (st.getLsbD b && !d.getLsbD b) := by
  simp [statusCleared, hb]

theorem State.getLsbD_status_regWrite (s : State) (d : Word) {b : Nat} (hb : b < 5) :
    (s.regWrite 0x006 d).status.getLsbD b = (s.status.getLsbD b && !d.getLsbD b) :=
  getLsbD_statusCleared s.status d hb

/-- No write to another register changes STATUS. -/
theorem State.regWrite_status_of_ne {i : RegIndex} (h : i ≠ 0x006) (d : Word) (s : State) :
    (s.regWrite i d).status = s.status := by
  unfold State.regWrite
  split
  case h_7 hstatus => exact absurd (regAt_eq_status hstatus) h
  all_goals rfl

theorem State.sampled_keepsStatusBit {s : State} {b : Nat} (hs : s.status.getLsbD b = true) :
    s.sampled.status.getLsbD b = true := by
  rcases s.sampled_cases with ⟨-, h⟩ | ⟨_, _, -, -, h⟩ | ⟨_, _, _, -, -, h⟩ <;> rw [h]
  · exact hs
  · simp [getLsbD_statusAfter, hs]
  · simp [getLsbD_statusAfter, hs]

/-- A sticky bit stays in every event but a reset and a write of 1 to it (R47, R261). -/
theorem State.after_keepsStatusBit {s : State} {b : Nat} (e : Event) (hreset : e ≠ .reset)
    (hwrite : ∀ d, e = .regWrite 0x006 d → d.getLsbD b = false) (hs : s.status.getLsbD b = true) :
    (s.after e).status.getLsbD b = true := by
  cases e with
  | reset => exact absurd rfl hreset
  | sampleStep => exact State.sampled_keepsStatusBit hs
  | hostPush a w => simp only [State.after, State.hostPush]; split <;> exact hs
  | seqTick =>
    simp only [State.after, State.seqTick]; split
    · exact hs
    · simp [getLsbD_statusAfter, hs]
  | seqPush =>
    simp only [State.after, State.trySeqPush, State.seqPush]; split
    · split <;> exact hs
    · exact hs
  | regWrite i d =>
    by_cases hi : i = 0x006
    · subst hi
      rw [State.after, State.getLsbD_status_regWrite s d (BitVec.lt_of_getLsbD hs), hs, hwrite d rfl]; rfl
    · exact (State.regWrite_status_of_ne hi d s).symm ▸ hs
  | regRead i => exact hs
  | presentDiag => exact s.presentDiag_status.symm ▸ hs

/-- A sticky bit stays in every step whose entry is no reset and writes no 1 to it. -/
theorem step_keepsStatusBit {s t : State} {b : Nat} (h : step s = .next t)
    (hkept : ∀ i rest, s.inputs = i :: rest →
      i.resets = false ∧ ∀ d, i.writes = some (0x006, d) → d.getLsbD b = false)
    (hs : s.status.getLsbD b = true) : t.status.getLsbD b = true := by
  refine step_keeps_of (P := fun x => x.status.getLsbD b = true) id (fun _ hx => hx) (fun _ _ hx => hx) ?_ h hs
  intro i rest hi x e he
  obtain ⟨hreset, hwrite⟩ := hkept i rest hi
  refine State.after_keepsStatusBit e ?_ ?_
  · rintro rfl
    exact absurd (show i.resets = true from he) (by simp [hreset])
  · rintro d rfl
    exact hwrite d he

/-! ## Words as their fields -/

/-- A low field of a word, extended with zeros, is the word masked. -/
theorem setWidth_extractLsb'_low (n : Nat) (d : Word) :
    (d.extractLsb' 0 n).setWidth 32 = d &&& BitVec.ofNat 32 (2 ^ n - 1) := by
  apply BitVec.eq_of_getLsbD_eq
  intro i hi
  rw [BitVec.getLsbD_setWidth, BitVec.getLsbD_extractLsb', BitVec.getLsbD_and, BitVec.getLsbD_ofNat,
    Nat.testBit_two_pow_sub_one]
  simp [hi, Bool.and_comm]

/-- One bit of a word is its field of width 1. -/
theorem ofBool_getLsbD (d : Word) (i : Nat) : BitVec.ofBool (d.getLsbD i) = d.extractLsb' i 1 := by
  ext j hj
  obtain rfl : j = 0 := by omega
  simp

/-- Adjacent fields of a word below other bits are one field. -/
theorem append_extractLsb'_extractLsb' {m : Nat} (x : BitVec m) (d : Word) (l b a : Nat) :
    x ++ d.extractLsb' (l + b) a ++ d.extractLsb' l b =
      (x ++ d.extractLsb' l (a + b)).cast (Nat.add_assoc ..).symm := by
  rw [BitVec.append_assoc, BitVec.extractLsb'_append_extractLsb'_eq_extractLsb' rfl]

/-! ## The fixed registers by index (10_state.md R46) -/

theorem State.regValue_status (s : State) : s.regValue 0x006 = (0 : BitVec 27) ++ s.status := rfl
theorem State.regValue_seqPos (s : State) : s.regValue 0x007 = seqPosWord s.seq := rfl
theorem State.regValue_fifoLevel (s : State) : s.regValue 0x008 = fifoLevelWord s := rfl

theorem Meter.bit_ofBit (b : Bool) : (Meter.ofBit b).bit = BitVec.ofBool b := by cases b <;> rfl

/-- SEQ_CFG reads its two bits back (R46). -/
theorem State.seqCfg_readsBack (s : State) (d : Word) : (s.regWrite 0x001 d).regValue 0x001 = d &&& 0x3#32 :=
  calc (s.regWrite 0x001 d).regValue 0x001
      = (0 : BitVec 30) ++ BitVec.ofBool (d.getLsbD 1) ++ (Meter.ofBit (d.getLsbD 0)).bit := rfl
    _ = (0 : BitVec 30) ++ d.extractLsb' 1 1 ++ d.extractLsb' 0 1 := by
      rw [Meter.bit_ofBit, ofBool_getLsbD, ofBool_getLsbD]
    _ = (0 : BitVec 30) ++ d.extractLsb' 0 2 := append_extractLsb'_extractLsb' 0 d 0 1 1
    _ = (d.extractLsb' 0 2).setWidth 32 := (BitVec.setWidth_eq_append (by decide)).symm
    _ = d &&& 0x3#32 := setWidth_extractLsb'_low 2 d

/-- PAT_HS reads its two masks back (R46). -/
theorem State.patHs_readsBack (s : State) (d : Word) : (s.regWrite 0x002 d).regValue 0x002 = d :=
  calc (s.regWrite 0x002 d).regValue 0x002
      = d.extractLsb' 16 16 ++ d.extractLsb' 0 16 := rfl
    _ = d.extractLsb' 0 32 := BitVec.extractLsb'_append_extractLsb'_eq_extractLsb' rfl
    _ = d := BitVec.extractLsb'_eq_self

/-- PAT_K reads its mask back (R46). -/
theorem State.patK_readsBack (s : State) (d : Word) : (s.regWrite 0x003 d).regValue 0x003 = d &&& 0xFFFF#32 :=
  calc (s.regWrite 0x003 d).regValue 0x003
      = (0 : BitVec 16) ++ d.extractLsb' 0 16 := rfl
    _ = (d.extractLsb' 0 16).setWidth 32 := (BitVec.setWidth_eq_append (by decide)).symm
    _ = d &&& 0xFFFF#32 := setWidth_extractLsb'_low 16 d

/-- PAT_VEL reads its three velocities back (R46). -/
theorem State.patVel_readsBack (s : State) (d : Word) : (s.regWrite 0x004 d).regValue 0x004 = d &&& 0xFFFFFF#32 :=
  calc (s.regWrite 0x004 d).regValue 0x004
      = (0 : BitVec 8) ++ d.extractLsb' 16 8 ++ d.extractLsb' 8 8 ++ d.extractLsb' 0 8 := rfl
    _ = (0 : BitVec 8) ++ d.extractLsb' 8 16 ++ d.extractLsb' 0 8 :=
      congrArg (· ++ d.extractLsb' 0 8) (append_extractLsb'_extractLsb' 0 d 8 8 8)
    _ = (0 : BitVec 8) ++ d.extractLsb' 0 24 := append_extractLsb'_extractLsb' 0 d 0 8 16
    _ = (d.extractLsb' 0 24).setWidth 32 := (BitVec.setWidth_eq_append (by decide)).symm
    _ = d &&& 0xFFFFFF#32 := setWidth_extractLsb'_low 24 d

/-! The fields of SEQ_POS (10_state.md R48). -/

theorem seqPosWord_mode (q : Sequencer) : (seqPosWord q).extractLsb' 0 2 = q.mode.bits :=
  BitVec.extractLsb'_append_eq_right
theorem seqPosWord_measure (q : Sequencer) : (seqPosWord q).extractLsb' 2 2 = q.measure :=
  (BitVec.extractLsb'_append_eq_of_le le_rfl).trans BitVec.extractLsb'_append_eq_right
theorem seqPosWord_current (q : Sequencer) : (seqPosWord q).extractLsb' 4 4 = currentSubdivision q :=
  calc (seqPosWord q).extractLsb' 4 4
      = ((0 : BitVec 20) ++ q.idx ++ currentSubdivision q ++ q.measure).extractLsb' 2 4 :=
        BitVec.extractLsb'_append_eq_of_le (by decide)
    _ = ((0 : BitVec 20) ++ q.idx ++ currentSubdivision q).extractLsb' 0 4 :=
        BitVec.extractLsb'_append_eq_of_le le_rfl
    _ = currentSubdivision q := BitVec.extractLsb'_append_eq_right
/-- Above the mode, the measure and the reported subdivision stand `idx` and zeros. -/
theorem seqPosWord_above (q : Sequencer) (n len : Nat) :
    (seqPosWord q).extractLsb' (n + 8) len = ((0 : BitVec 20) ++ q.idx).extractLsb' n len := by
  unfold seqPosWord
  iterate 3 rw [BitVec.extractLsb'_append_eq_of_le (by omega)]
  rfl
theorem seqPosWord_idx (q : Sequencer) : (seqPosWord q).extractLsb' 8 4 = q.idx :=
  (seqPosWord_above q 0 4).trans BitVec.extractLsb'_append_eq_right
theorem seqPosWord_unused (q : Sequencer) : (seqPosWord q).extractLsb' 12 20 = 0 :=
  (seqPosWord_above q 4 20).trans BitVec.extractLsb'_append_eq_left

/-- Clearing the two low bits of a subdivision rounds it down to its beat (45_sequencer.md R221). -/
theorem beatOf_toNat : ∀ idx : BitVec 4, (idx &&& 0xC).toNat = idx.toNat / 4 * 4 := by decide

/-! The fields of FIFO_LEVEL (10_state.md R46). -/

theorem fifoLevelWord_fifo (s : State) : (fifoLevelWord s).extractLsb' 0 8 = BitVec.ofNat 8 s.fifo.length :=
  BitVec.extractLsb'_append_eq_right
theorem fifoLevelWord_seqbuf (s : State) : (fifoLevelWord s).extractLsb' 8 3 = BitVec.ofNat 3 s.seq.seqbuf.length :=
  (BitVec.extractLsb'_append_eq_of_le le_rfl).trans BitVec.extractLsb'_append_eq_right
theorem fifoLevelWord_unused (s : State) : (fifoLevelWord s).extractLsb' 11 21 = 0 :=
  (BitVec.extractLsb'_append_eq_of_le (by decide)).trans BitVec.extractLsb'_append_eq_left

/-- The channel's depth fits its field of FIFO_LEVEL in a block with legal parameters (00_scope.md R5). -/
theorem Params.wf_fifoDepth {cfg : Params} (h : cfg.wf = true) : cfg.fifoDepth ≤ 255 := by
  simp only [Params.wf, Bool.and_eq_true, decide_eq_true_eq] at h
  tauto

/-! ## The registers of one unit (10_state.md R50, R51) -/

theorem State.regValue_unitCfg {s : State} {u : Nat} (hu : u < s.numUnits) (h : u < 256) :
    s.regValue (BitVec.ofNat 12 (0x100 + u)) = (s.units[u]?.map UnitView.config).getD 0 := by
  rw [State.regValue, regAt_unitCfg hu h]

theorem State.regValue_bend {s : State} {u : Nat} (hu : u < s.numUnits) (h : u < 256) :
    s.regValue (BitVec.ofNat 12 (0x200 + u)) = (s.units[u]?.map UnitView.bend).getD 0 := by
  rw [State.regValue, regAt_bend hu h]

/-- The block after a write to its unit `u`: what a UNIT_CFG or BEND write makes of it (`regWrite_unitCfg`,
`regWrite_bend`). -/
def State.unitWritten (w : UnitWrite) (u : Nat) (s : State) : State := { s with roots := writeRoots w u s.roots }

theorem State.unitWritten_units (w : UnitWrite) (u : Nat) (s : State) :
    (s.unitWritten w u).units = s.units.modify u (UnitView.write w) := writeRoots_units w u s.roots

theorem State.unitWritten_numUnits (w : UnitWrite) (u : Nat) (s : State) :
    (s.unitWritten w u).numUnits = s.numUnits := writeRoots_size w u s.roots

/-- The unit that a write names is there afterwards, written. -/
theorem State.unitWritten_unit {s : State} {u : Nat} {v : UnitView} (w : UnitWrite) (hv : s.units[u]? = some v) :
    (s.unitWritten w u).units[u]? = some (v.write w) := by
  rw [State.unitWritten_units, List.getElem?_modify_eq, hv]; rfl

/-- UNIT_CFG reads the unit that was written (R50). -/
theorem State.regValue_unitCfg_unitWritten {s : State} {u : Nat} {v : UnitView} (w : UnitWrite) (hu : u < s.numUnits)
    (h : u < 256) (hv : s.units[u]? = some v) :
    (s.unitWritten w u).regValue (BitVec.ofNat 12 (0x100 + u)) = (v.write w).config := by
  rw [State.regValue_unitCfg ((s.unitWritten_numUnits w u).symm ▸ hu) h, State.unitWritten_unit w hv]; rfl

/-- BEND reads the unit that was written (R51). -/
theorem State.regValue_bend_unitWritten {s : State} {u : Nat} {v : UnitView} (w : UnitWrite) (hu : u < s.numUnits)
    (h : u < 256) (hv : s.units[u]? = some v) :
    (s.unitWritten w u).regValue (BitVec.ofNat 12 (0x200 + u)) = (v.write w).bend := by
  rw [State.regValue_bend ((s.unitWritten_numUnits w u).symm ▸ hu) h, State.unitWritten_unit w hv]; rfl

theorem step_unitCfgWrite {s : State} {u : Nat} {d : Word} {rest : List Input} (hu : u < s.numUnits) (h : u < 256)
    (hi : s.inputs = .event (.regWrite (BitVec.ofNat 12 (0x100 + u)) d) :: rest) :
    step s = .next ((s.taken rest).unitWritten (.configure d) u) :=
  (step_event hi).trans (congrArg Host.Outcome.next (State.regWrite_unitCfg (s := s.taken rest) hu h d))

theorem step_bendWrite {s : State} {u : Nat} {d : Word} {rest : List Input} (hu : u < s.numUnits) (h : u < 256)
    (hi : s.inputs = .event (.regWrite (BitVec.ofNat 12 (0x200 + u)) d) :: rest) :
    step s = .next ((s.taken rest).unitWritten (.bend d) u) :=
  (step_event hi).trans (congrArg Host.Outcome.next (State.regWrite_bend (s := s.taken rest) hu h d))

/-! ## Unmapped indices (10_state.md R52) -/

theorem regAt_unmapped {n : Nat} {i : RegIndex} (h : 8 < i.toNat)
    (hcfg : ¬ (0x100 ≤ i.toNat ∧ i.toNat < 0x200 ∧ i.toNat - 0x100 < n))
    (hbend : ¬ (0x200 ≤ i.toNat ∧ i.toNat < 0x300 ∧ i.toNat - 0x200 < n)) : regAt n i = .unmapped := by
  rw [regAt_high n h, if_neg hcfg, if_neg hbend]

/-! ## The obligations -/

/-- Settles O47: every event but a reset and a write of 1 keeps a set bit, so every step does. -/
theorem stickyBitsStay : Obligations.StickyBitsStay := by
  refine ⟨?_, getLsbD_statusAfter, rfl⟩
  intro s t b h hs ht
  by_contra hno
  have hkept : ∀ i rest, s.inputs = i :: rest →
      i.resets = false ∧ ∀ d, i.writes = some (0x006, d) → d.getLsbD b = false := fun i rest hi =>
    ⟨Bool.eq_false_iff.mpr fun hr => hno ⟨i, rest, hi, .inl hr⟩,
      fun d hd => Bool.eq_false_iff.mpr fun hb => hno ⟨i, rest, hi, .inr ⟨d, hd, hb⟩⟩⟩
  exact absurd (step_keepsStatusBit h hkept hs) (by simp [ht])

/-- Settles O48: the write changes the `u`-th unit of the walk, and UNIT_CFG reads that unit. -/
theorem unitCfgWriteReplacesTheRecord : Obligations.UnitCfgWriteReplacesTheRecord := by
  intro s u d rest hu h hi
  refine ⟨_, step_unitCfgWrite hu h hi, rfl, State.unitWritten_units _ u (s.taken rest), fun v hv => ?_⟩
  rw [State.regValue_unitCfg_unitWritten (s := s.taken rest) _ hu h hv]
  cases v with
  | sine _ | saw _ | expDecay _ | linDecay _ => exact cfgWord_fields d
  | lpf _ => exact cfgWord_coeff d
  | sample _ | drum _ | poly _ _ | withEffect => rfl

/-- Settles O49: the write changes the `u`-th unit of the walk, and BEND reads that unit. -/
theorem bendWriteReachesOnlySines : Obligations.BendWriteReachesOnlySines := by
  intro s u d rest hu h hi
  refine ⟨_, step_bendWrite hu h hi, rfl, State.unitWritten_units _ u (s.taken rest), fun v hv => ?_⟩
  rw [State.regValue_bend_unitWritten (s := s.taken rest) _ hu h hv]
  cases v <;> rfl

/-- Settles O53: the invariant bounds the channel by 255 beats and `seqbuf` by 4. -/
theorem fifoLevelHoldsBothCounts : Obligations.FifoLevelHoldsBothCounts := by
  rintro s ⟨hparams, hchannel, hseq, -, -⟩
  have hdepth : s.params.fifoDepth ≤ 255 := Params.wf_fifoDepth hparams
  have hfifo := ((channelOk_iff _ _).mp hchannel).1
  have hbuf := ((Sequencer.ok_iff _ _).mp hseq).1
  refine ⟨?_, ?_, fifoLevelWord_unused s⟩
  · rw [State.regValue_fifoLevel, fifoLevelWord_fifo, BitVec.toNat_ofNat]; omega
  · rw [State.regValue_fifoLevel, fifoLevelWord_seqbuf, BitVec.toNat_ofNat]; omega

/-- Settles O46: a write to STATUS writes STATUS only, and clears it bit by bit. -/
theorem statusWriteOneToClear : Obligations.StatusWriteOneToClear := by
  intro s d rest hi
  exact ⟨(s.taken rest).regWrite 0x006 d, step_event hi, rfl, fun b hb => (s.taken rest).getLsbD_status_regWrite d hb⟩

/-- Settles O50: such an index is `.unmapped`, which reads 0 and whose write is the identity. -/
theorem unmappedIndexIsInert : Obligations.UnmappedIndexIsInert := by
  intro s i d h8 hcfg hbend
  have hreg : regAt s.numUnits i = .unmapped := regAt_unmapped h8 hcfg hbend
  refine ⟨by rw [State.regValue, hreg], fun rest hi => ?_⟩
  rw [step_event hi]
  have hwrite : (s.taken rest).regWrite i d = s.taken rest := by
    rw [State.regWrite, show regAt (s.taken rest).numUnits i = .unmapped from hreg]
  exact congrArg _ hwrite

/-- Settles O51, register by register. -/
theorem registersReadBack : Obligations.RegistersReadBack := by
  refine ⟨fun s i rest hi => step_event hi, fun s d => ?_⟩
  exact ⟨s.seqCfg_readsBack d, s.patHs_readsBack d, s.patK_readsBack d, s.patVel_readsBack d,
    s.regValue_status.trans (BitVec.setWidth_eq_append (by decide)).symm, rfl, rfl, rfl, rfl⟩

/-- Settles O52, field by field. -/
theorem seqPosFields : Obligations.SeqPosFields := by
  intro s
  refine ⟨?_, seqPosWord_measure s.seq, ?_, seqPosWord_idx s.seq, seqPosWord_unused s.seq, fun _ => rfl⟩
  · rw [State.regValue_seqPos, seqPosWord_mode]
    cases s.seq.mode <;> rfl
  · rw [State.regValue_seqPos, seqPosWord_current, currentSubdivision]
    cases s.seq.mode with
    | stopped | playing => rfl
    | countoffSlow | countoffFast => exact beatOf_toNat s.seq.idx

end Sys2Proof.Machine
end

section
/-! The command channel (20_memory.md R79, R83, R84): what each event takes from its head and adds at its tail. -/

namespace Sys2Proof.Machine

/-! ## What the pushes add (20_memory.md R83) -/

@[simp] theorem State.hostPush_fifo (s : State) (a : Addr) (w : Word) :
    (s.hostPush a w).fifo = s.fifo ++ if s.cmdReady then [s.portBeat a w] else [] := by
  unfold State.hostPush; split <;> simp

/-- The beat that leaves `seqbuf` enters the channel (45_sequencer.md R223). -/
@[simp] theorem State.seqPush_fifo (s : State) : s.seqPush.fifo = s.fifo ++ s.seq.seqbuf.take 1 := by
  unfold State.seqPush; split <;> simp [*]

@[simp] theorem State.trySeqPush_fifo (s : State) :
    s.trySeqPush.fifo = s.fifo ++ if s.seqPushEnabled then s.seq.seqbuf.take 1 else [] := by
  unfold State.trySeqPush; split <;> simp

@[simp] theorem State.seqTick_fifo (s : State) : s.seqTick.fifo = s.fifo := by
  unfold State.seqTick; split <;> rfl

@[simp] theorem State.cyclePushes_fifo (c : CycleIn) (ready push : Bool) (s : State) :
    (s.cyclePushes c ready push).fifo =
      s.fifo ++ ((if c.cmdValid && ready then [s.portBeat c.cmdAddr c.cmdWord] else [])
        ++ if push then s.seq.seqbuf.take 1 else []) := by
  simp only [State.cyclePushes]
  cases c.cmdValid && ready <;> cases push <;> cases c.seqTick <;> simp

/-- The host and the sequencer never push in one cycle: `cmd_ready` is low while a sequencer beat waits
(46_engine_step.md R243, R246). -/
theorem State.seqPushEnabled_of_cmdReady {s : State} (h : s.cmdReady = true) : s.seqPushEnabled = false := by
  simp only [State.cmdReady, Bool.and_eq_true] at h
  simp [State.seqPushEnabled, h.2]

/-! ## The channel after an entry of the schedule -/

/-- An event but a reset takes at most the head, in a sample step, and adds at most one beat, at the tail. -/
theorem State.after_fifo {e : Event} (he : e ≠ .reset) (s : State) : ∃ added : List Beat,
    (s.after e).fifo = (if (Input.event e).samples then s.fifo.drop 1 else s.fifo) ++ added ∧ added.length ≤ 1 := by
  cases e with
  | reset => exact absurd rfl he
  | sampleStep => exact ⟨[], by simp [State.after, Input.samples], by simp⟩
  | hostPush a w => exact ⟨_, s.hostPush_fifo a w, by split <;> simp⟩
  | seqPush => exact ⟨_, s.trySeqPush_fifo, by split <;> simp⟩
  | seqTick | regWrite _ _ | regRead _ | presentDiag => exact ⟨[], by simp [State.after, Input.samples], by simp⟩

/-- A clock cycle with `rst` low does the same: of its two pushes at most one is enabled. -/
theorem State.cycled_fifo {c : CycleIn} (hc : c.rst = false) (s : State) : ∃ added : List Beat,
    (s.cycled c).fifo = (if (Input.cycle c).samples then s.fifo.drop 1 else s.fifo) ++ added ∧ added.length ≤ 1 := by
  have taken : (if c.sampleTick then (s.cycleRegs c).sampled else s.cycleRegs c).fifo =
      if (Input.cycle c).samples then s.fifo.drop 1 else s.fifo := by
    cases ht : c.sampleTick <;> simp [Input.samples, hc, ht]
  refine ⟨_, by rw [State.cycled, State.cyclePushes_fifo, taken], ?_⟩
  cases hready : s.cmdReady with
  | false => cases s.seqPushEnabled <;> simp
  | true => cases c.cmdValid <;> simp [State.seqPushEnabled_of_cmdReady hready]

/-- Settles O40: an event and a clock cycle alike take at most the head and add at most one beat at the tail. -/
theorem channelKeepsOrder : Obligations.ChannelKeepsOrder := by
  intro s t i rest hi hreset h
  rcases step_cases h with ⟨hs, -⟩ | ⟨e, rest', hs, rfl⟩ | ⟨c, _, hs, hrst, -⟩ | ⟨c, rest', hs, hrst, -, rfl⟩ <;>
    rw [hi] at hs <;> cases hs
  · exact (s.taken rest).after_fifo (by rintro rfl; cases hreset)
  · exact absurd hreset (by simp [Input.resets, hrst])
  · exact (s.taken rest).cycled_fifo hrst

end Sys2Proof.Machine
end

section
/-! The words that decode to a command (30_encoding.md R90, R97, 41_command.md R120, R121): a Play word is its fields,
and a SetAttack word is its fields with bits 25:16 ignored. -/

namespace Sys2Proof

/-- What a word that decodes can be: a Play word of its fields, or a SetAttack word of its fields (R120). -/
theorem deserialize_cases {w : Word} {i : Instr} (h : deserialize w = some i) :
    (cidOf w = 0 ∧ ∃ l a, l.id = letOf w ∧ a.id = accOf w ∧
      i = .play ⟨l, a, (octOf w).toInt⟩ (velOf w) (scaleOf w)) ∨
    (cidOf w = 1 ∧ i = .setAttack (velOf w) (scaleOf w)) := by
  simp only [deserialize, decode] at h
  split at h
  next hcid =>
    split at h
    next l a hl ha =>
      exact .inl ⟨BitVec.eq_of_toNat_eq hcid, l, a, (Letter.ofId_spec _).1 l hl, (Accidental.ofId_spec _).1 a ha,
        (Option.some.inj h).symm⟩
    next => cases h
    next => cases h
  next hcid => exact .inr ⟨BitVec.eq_of_toNat_eq hcid, (Option.some.inj h).symm⟩
  next => cases h

/-- A word is its command id, its bits 25:16, its scale and its velocity side by side (R90). -/
theorem word_eq_setAttack_fields (w : Word) : cidOf w ++ w.extractLsb' 16 10 ++ scaleOf w ++ velOf w = w :=
  calc w.extractLsb' 26 6 ++ w.extractLsb' 16 10 ++ w.extractLsb' 8 8 ++ w.extractLsb' 0 8
      = w.extractLsb' 16 16 ++ w.extractLsb' 8 8 ++ w.extractLsb' 0 8 :=
        congrArg (· ++ w.extractLsb' 8 8 ++ w.extractLsb' 0 8)
          (BitVec.extractLsb'_append_extractLsb'_eq_extractLsb' rfl)
    _ = w.extractLsb' 8 24 ++ w.extractLsb' 0 8 :=
        congrArg (· ++ w.extractLsb' 0 8) (BitVec.extractLsb'_append_extractLsb'_eq_extractLsb' rfl)
    _ = w.extractLsb' 0 32 := BitVec.extractLsb'_append_extractLsb'_eq_extractLsb' rfl
    _ = w := BitVec.extractLsb'_eq_self

/-- The mask keeps every bit but 25:16 (R97). -/
theorem and_setAttackMask (w : Word) :
    w &&& 0xFC00FFFF#32 = cidOf w ++ (0 : BitVec 10) ++ scaleOf w ++ velOf w :=
  calc w &&& 0xFC00FFFF#32
      = (cidOf w ++ w.extractLsb' 16 10 ++ scaleOf w ++ velOf w) &&&
          (BitVec.allOnes 6 ++ (0 : BitVec 10) ++ BitVec.allOnes 8 ++ BitVec.allOnes 8) := by
        rw [word_eq_setAttack_fields]; rfl
    _ = cidOf w ++ (0 : BitVec 10) ++ scaleOf w ++ velOf w := by
        simp only [BitVec.and_append, BitVec.and_allOnes, BitVec.and_zero, BitVec.ofNat_eq_ofNat]

/-- A Play word has one meaning: encoding its fields gives it back (R121). -/
theorem encode_play_fields {w : Word} {l : Letter} {a : Accidental} (hcid : cidOf w = 0) (hl : l.id = letOf w)
    (ha : a.id = accOf w) : encode (.play ⟨l, a, (octOf w).toInt⟩ (velOf w) (scaleOf w)) = w :=
  calc encode (.play ⟨l, a, (octOf w).toInt⟩ (velOf w) (scaleOf w))
      = cidOf w ++ octOf w ++ accOf w ++ letOf w ++ scaleOf w ++ velOf w := by
        simp only [encode, BitVec.ofInt_toInt, hl, ha, hcid]
    _ = w := word_eq_fields w

/-- Encoding the fields of a SetAttack word clears its ignored bits (R97, R121). -/
theorem encode_setAttack_fields {w : Word} (hcid : cidOf w = 1) :
    encode (.setAttack (velOf w) (scaleOf w)) = w &&& 0xFC00FFFF#32 := by
  rw [and_setAttackMask, hcid, encode]

/-- Settles O4: a decoded word is a Play or a SetAttack word, and encoding its fields gives it back or masks it. -/
theorem encodeDecodedWord : Obligations.EncodeDecodedWord := by
  intro w i h
  refine ⟨wf_of_deserialize h, ?_⟩
  change encode i = if cidOf w = 0 then w else w &&& 0xFC00FFFF#32
  rcases deserialize_cases h with ⟨hcid, l, a, hl, ha, rfl⟩ | ⟨hcid, rfl⟩
  · rw [if_pos hcid, encode_play_fields hcid hl ha]
  · rw [if_neg (by rw [hcid]; decide), encode_setAttack_fields hcid]

/-- Settles O1: each of the six words is closed, so the decoder runs on it. -/
theorem specWordsDecode : Obligations.SpecWordsDecode := by
  unfold Obligations.SpecWordsDecode
  decide

end Sys2Proof
end

section
/-! Pitches (40_pitch.md): the range of the linear codes (R113, R116), and the phase-increment ROM as the rounded
frequency fraction (R115). -/

namespace Sys2Proof.Machine

/-! ## Linear codes (R111, R113, R116) -/

/-- A letter lies between C, the lowest of its octave number, and B, the highest (R111). -/
theorem letOff_bounds (l : Letter) : -9 ≤ letOff l ∧ letOff l ≤ 2 := by
  cases l <;> decide

theorem accOff_bounds (a : Accidental) : -2 ≤ accOff a ∧ accOff a ≤ 2 := by
  cases a <;> decide

/-- The accidental takes a pitch above its octave number only at B♯ and B♯♯. -/
theorem two_lt_letOff_add_accOff {l : Letter} {a : Accidental} :
    2 < letOff l + accOff a ↔ l = .b ∧ (a = .sharp ∨ a = .doubleSharp) := by
  cases l <;> cases a <;> decide

/-- The accidental takes a pitch below its octave number only at C♭ and C♭♭. -/
theorem letOff_add_accOff_lt {l : Letter} {a : Accidental} :
    letOff l + accOff a < -9 ↔ l = .c ∧ (a = .doubleFlat ∨ a = .flat) := by
  cases l <;> cases a <;> decide

/-- The code counts from C of octave −1, which has code 0. -/
theorem code_eq (l : Letter) (a : Accidental) (o : Int) : code ⟨l, a, o⟩ = 12 * (o + 1) + (letOff l + accOff a + 9) := by
  simp only [code, semis]; ring

/-- The pitches below the oscillators' range (R116): octaves up to −2 but for the two pitches that reach octave −1, and
the two of octave −1 that fall out of it. -/
theorem code_neg_iff (l : Letter) (a : Accidental) (o : Int) :
    code ⟨l, a, o⟩ < 0 ↔
      (o ≤ -2 ∧ ¬ (o = -2 ∧ 2 < letOff l + accOff a)) ∨ (o = -1 ∧ letOff l + accOff a < -9) := by
  have hl := letOff_bounds l
  have ha := accOff_bounds a
  rw [code_eq]
  omega

/-- Settles O5: the offsets of letter and accidental bound the code within an octave, and cross an octave's end only
at the pitches listed. -/
theorem linearCodeRange : Obligations.LinearCodeRange := by
  rintro ⟨l, a, o⟩ hwf
  obtain ⟨hlo, hhi⟩ : -8 ≤ o ∧ o ≤ 7 := by simpa [Pitch.wf] using hwf
  have hl := letOff_bounds l
  have ha := accOff_bounds a
  have hcode := code_eq l a o
  refine ⟨by omega, by omega, ?_⟩
  rw [code_neg_iff, two_lt_letOff_add_accOff, letOff_add_accOff_lt]
  simp only [Pitch.mk.injEq, ne_eq]
  tauto

/-! ## The phase-increment ROM (R115) -/

theorem twiceIncrement_nonneg (fs c : Nat) : 0 ≤ twiceIncrement fs c := by
  unfold twiceIncrement; positivity

/-- The 33-bit search rounds twice the exact increment down, for every legal sample rate and ROM index. -/
theorem pincSearch_eq_floor {fs c : Nat} (hfs : 25088 ≤ fs) (hc : c ≤ 127) :
    pincSearch fs c 33 0 = ⌊twiceIncrement fs c⌋₊ := by
  have hnonneg := twiceIncrement_nonneg fs c
  have hlt : twiceIncrement fs c < (0 : Nat) + 2 ^ 33 := by
    have := twiceIncrement_lt hfs hc
    norm_num; linarith
  have hspec := pincSearch_spec (by omega) 33 0 (by simpa using hnonneg) hlt
  exact ((Nat.floor_eq_iff hnonneg).mpr hspec).symm

/-- The ROM entry fits its word, so it is half the rounded-down double, rounded up (R71). -/
theorem pinc_toNat {fs c : Nat} (hfs : 25088 ≤ fs) (hc : c ≤ 127) :
    (pinc fs c).toNat = (⌊twiceIncrement fs c⌋₊ + 1) / 2 := by
  have hlt : ⌊twiceIncrement fs c⌋₊ < 2 ^ 32 :=
    (Nat.floor_lt' (by norm_num)).mpr (by exact_mod_cast twiceIncrement_lt hfs hc)
  rw [pinc, pincSearch_eq_floor hfs hc, BitVec.toNat_ofNat, Nat.mod_eq_of_lt (by omega)]

/-- Rounding to nearest is rounding the double down and then its half up. -/
theorem floor_half_add_half {x : ℝ} (hx : 0 ≤ x) : ⌊x / 2 + 1 / 2⌋ = (((⌊x⌋₊ + 1) / 2 : Nat) : Int) :=
  calc ⌊x / 2 + 1 / 2⌋ = (⌊(x + 1) / (2 : Nat)⌋₊ : Int) := by
        rw [Int.natCast_floor_eq_floor (by positivity)]; congr 1; push_cast; ring
    _ = (((⌊x⌋₊ + 1) / 2 : Nat) : Int) := by rw [Nat.floor_div_natCast, Nat.floor_add_one hx]

/-- Settles O6: the search rounds twice the exact increment down, and half of that rounds to nearest. -/
theorem phaseIncrementIsRoundedFrequency : Obligations.PhaseIncrementIsRoundedFrequency := by
  intro fs c hfs hc
  rw [pinc_toNat hfs hc, ← floor_half_add_half (twiceIncrement_nonneg fs c), twiceIncrement]
  congr 1; ring

end Sys2Proof.Machine
end

section
/-! The command word (30_encoding.md R90, 41_command.md R120 to R123): what each word decodes to by its fields, and the
round trip of an encoded command. -/

namespace Sys2Proof

/-- The letter ids are 0..6 (R94). -/
theorem Letter.id_le (l : Letter) : l.id.toNat ≤ 6 := by cases l <;> decide

/-- The accidental ids are 0..4 (R93). -/
theorem Accidental.id_le (a : Accidental) : a.id.toNat ≤ 4 := by cases a <;> decide

theorem Letter.exists_id_eq {i : BitVec 3} (h : i.toNat ≤ 6) : ∃ l : Letter, l.id = i := by
  obtain ⟨hid, hnone⟩ := Letter.ofId_spec i
  cases hl : Letter.ofId i with
  | none => exact absurd (hnone.mp hl) (Nat.not_lt.mpr h)
  | some l => exact ⟨l, hid l hl⟩

theorem Accidental.exists_id_eq {i : BitVec 3} (h : i.toNat ≤ 4) : ∃ a : Accidental, a.id = i := by
  obtain ⟨hid, hnone⟩ := Accidental.ofId_spec i
  cases ha : Accidental.ofId i with
  | none => exact absurd (hnone.mp ha) (Nat.not_lt.mpr h)
  | some a => exact ⟨a, hid a ha⟩

/-- A Play word in range decodes to the Play of its fields (R120). -/
theorem deserialize_of_play_fields {w : Word} {l : Letter} {a : Accidental} (hcid : cidOf w = 0)
    (hl : l.id = letOf w) (ha : a.id = accOf w) :
    deserialize w = some (.play ⟨l, a, (octOf w).toInt⟩ (velOf w) (scaleOf w)) := by
  simp [deserialize, decode, hcid, ← hl, ← ha, Except.toOption]

/-- A SetAttack word decodes to the SetAttack of its fields, whatever its bits 25:16 (R97, R120). -/
theorem deserialize_of_setAttack_fields {w : Word} (hcid : cidOf w = 1) :
    deserialize w = some (.setAttack (velOf w) (scaleOf w)) := by
  simp [deserialize, decode, hcid, Except.toOption]

/-- A Play word with a letter or an accidental out of range decodes to nothing (R99, R120). -/
theorem deserialize_of_play_out_of_range {w : Word} (hcid : cidOf w = 0)
    (h : 6 < (letOf w).toNat ∨ 4 < (accOf w).toNat) : deserialize w = none := by
  refine Option.eq_none_iff_forall_ne_some.mpr fun i hi => ?_
  rcases deserialize_cases hi with ⟨-, l, a, hl, ha, -⟩ | ⟨hcid', -⟩
  · have hletter := hl ▸ l.id_le
    have haccidental := ha ▸ a.id_le
    omega
  · exact absurd (hcid.symm.trans hcid') (by decide)

/-- A word with a reserved command id decodes to nothing (R98, R123). -/
theorem deserialize_of_reserved {w : Word} (hplay : cidOf w ≠ 0) (hattack : cidOf w ≠ 1) : deserialize w = none := by
  refine Option.eq_none_iff_forall_ne_some.mpr fun i hi => ?_
  rcases deserialize_cases hi with ⟨hcid, -⟩ | ⟨hcid, -⟩
  · exact hplay hcid
  · exact hattack hcid

/-- Decoding an encoded command of the operand ranges gives it back (R122). -/
theorem deserialize_encode {i : Instr} (h : i.wf = true) : deserialize (encode i) = some i := by
  cases i with
  | play p vel scale => exact deserialize_encode_play h vel scale
  | setAttack vel scale =>
    rw [deserialize_of_setAttack_fields (cidOf_setAttack vel scale), velOf_setAttack, scaleOf_setAttack]

/-- Settles O3: the encoder writes the fields that the decoder reads; and it writes 0 to the bits 25:16 of a SetAttack,
so no such word with one of them set is the encoding of what it decodes to. -/
theorem serializeRoundTrip : Obligations.SerializeRoundTrip := by
  refine ⟨fun i hwf => deserialize_encode hwf, ?_⟩
  intro w i hcid hunused hi hencode
  obtain rfl := Option.some.inj ((deserialize_of_setAttack_fields hcid).symm.trans hi)
  exact hunused (by rw [← hencode, unusedOf_setAttack]; rfl)

/-- Settles O2, command id by command id. -/
theorem deserializeByFields : Obligations.DeserializeByFields := by
  refine fun w => ⟨fun hcid hlet hacc => ?_, deserialize_of_play_out_of_range, deserialize_of_setAttack_fields,
    deserialize_of_reserved⟩
  obtain ⟨l, hl⟩ := Letter.exists_id_eq hlet
  obtain ⟨a, ha⟩ := Accidental.exists_id_eq hacc
  exact ⟨⟨l, a, (octOf w).toInt⟩, hl, ha, rfl, deserialize_of_play_fields hcid hl ha⟩

end Sys2Proof
end

section
/-! The frames of PLAY and SETATTACK (41_command.md R125 to R128, 44_poly_and_mix.md R201): what a command does to the
block is what each root makes of it alone. -/

namespace Sys2Proof.Machine

/-- In a block of one root, a command does what that root makes of it (R201). -/
theorem exec_singleton (c : Instr) (s : State) (r : Synth) :
    exec c { s with roots := [r] } = .next
      { s with roots := [(r.runCommand s.params s.beatAddr c).1],
               status := statusAfter s.status (r.runCommand s.params s.beatAddr c).2,
               trace := s.trace ++ (r.runCommand s.params s.beatAddr c).2 } := by
  rw [exec_eq]
  simp [State.dispatch, State.emit]

/-- A Play writes only the fields that `unplayed` hides, in every unit of the block (R127). -/
theorem State.unplayed_dispatch_play (p : Pitch) (vel scale : U44) (s : State) :
    (s.dispatch (.play p vel scale)).units.map UnitView.unplayed = s.units.map UnitView.unplayed :=
  map_flatMap_map _ _ _ (Synth.unplayed_runCommand s.params s.beatAddr p vel scale) s.roots

/-- A SetAttack writes only Sine attack gains, in every unit of the block (R128). -/
theorem State.sameButAttack_dispatch_setAttack (vel scale : U44) (s : State) :
    List.Forall₂ (UnitView.SameButAttack (gainOf vel scale)) s.units (s.dispatch (.setAttack vel scale)).units :=
  forall₂_flatMap _ _ (Synth.sameButAttack_runCommand s.params s.beatAddr vel scale) s.roots

/-- No root reports a SetAttack (R128). -/
theorem State.setAttack_codes (vel scale : U44) (s : State) :
    s.roots.flatMap (fun r => (r.runCommand s.params s.beatAddr (.setAttack vel scale)).2) = [] :=
  List.flatMap_eq_nil_iff.mpr fun r _ => Synth.setAttack_diags s.params s.beatAddr vel scale r

/-- Settles O28: both commands are dispatched to every root, and each root makes of it what it makes alone. -/
theorem commandFrame : Obligations.CommandFrame := by
  intro i s
  refine ⟨fun r => (r.runCommand s.params s.beatAddr i).1, fun r => (r.runCommand s.params s.beatAddr i).2,
    exec_eq i s, and_statusAfter _ _, fun r _ => ⟨exec_singleton i s r, r.runCommand_diags _ _ i, fun hunreached => ?_⟩⟩
  have hsame := Synth.runCommand_of_not_match s.params i hunreached
  exact ⟨congrArg Prod.fst hsame, congrArg Prod.snd hsame⟩

/-- Settles O29: a Play is dispatched to every root, and keeps the settings of every unit there. -/
theorem playKeepsSettings : Obligations.PlayKeepsSettings :=
  fun p vel scale s => ⟨_, exec_eq _ s, s.unplayed_dispatch_play p vel scale⟩

/-- Settles O30: a SetAttack is dispatched to every root, which reports nothing and changes at most the attack gains. -/
theorem setAttackKeepsAllElse : Obligations.SetAttackKeepsAllElse := by
  intro vel scale s
  refine ⟨_, exec_eq _ s, ?_, ?_, s.sameButAttack_dispatch_setAttack vel scale⟩
  · rw [State.dispatch_status, s.setAttack_codes]; rfl
  · rw [State.dispatch_trace, s.setAttack_codes, List.append_nil]

/-- Settles O27: a dispatch that reaches no root is the identity. -/
theorem unmatchedAddressChangesNothing : Obligations.UnmatchedAddressChangesNothing := by
  intro i s hunreached
  rw [exec_eq, State.dispatch_unmatched i hunreached]

end Sys2Proof.Machine
end

section
/-! The effects (42_effects.md): the decay counter (R147), the two decay envelopes as one machine on amplitude and
counter (R142, R144, R150), the low-pass filter (R146), and the sample step of a block with one root
(46_engine_step.md R241). -/

namespace Sys2Proof.Machine

/-! ## The decay counter (R147) -/

/-- The counter counts the calls since a note-on until the interval is reached. -/
theorem decayDue_iterate_toNat {every : U16} (hevery : every ≠ 0) :
    ∀ n, n < every.toNat → ((fun c : U16 => (decayDue every c).2)^[n] 0).toNat = n
  | 0, _ => rfl
  | n + 1, hn => by
    have ih := decayDue_iterate_toNat hevery n (by omega)
    have hwait : ((fun c : U16 => (decayDue every c).2)^[n] 0).toNat + 1 < every.toNat := by rwa [ih]
    rw [Function.iterate_succ_apply', decayDue_wait hevery hwait, cnt_add_one_toNat hwait, ih]

/-- A number below an interval is a counter. -/
theorem counter_toNat {every : U16} {n : Nat} (hn : n < every.toNat) : (BitVec.ofNat 16 n).toNat = n :=
  Nat.mod_eq_of_lt (hn.trans every.isLt)

/-- Settles O18: the three cases of `decayDue`, and the counter after `n` calls from 0. -/
theorem decayDueOnTheEveryThCall : Obligations.DecayDueOnTheEveryThCall := by
  refine ⟨decayDue_never, fun every cnt hevery hwait => ?_, fun every cnt => decayDue_due,
    fun every hevery => ⟨decayDue_iterate_toNat hevery, fun n hn => ?_, ?_⟩⟩
  · rw [decayDue_wait hevery hwait]
    exact ⟨rfl, cnt_add_one_toNat hwait⟩
  · have hcount : (BitVec.ofNat 16 n).toNat = n := counter_toNat (Nat.lt_of_succ_lt hn)
    rw [decayDue_wait hevery (by rwa [hcount])]
  · have hpos : 0 < every.toNat := BitVec.toNat_pos_of_ne_zero hevery
    have hcount : (BitVec.ofNat 16 (every.toNat - 1)).toNat = every.toNat - 1 := counter_toNat (Nat.sub_one_lt hpos.ne')
    exact decayDue_due hevery (by omega)

/-! ## The decay envelopes (R142, R144, R150)

A call of either envelope moves its amplitude and counter by `envelopeStep`, whatever the input; they differ in `fall`,
what a due decay makes of the amplitude. -/

/-- The amplitude and the counter after one call. -/
def envelopeStep (fall : Q015 → Q015) (every : U16) (e : Q015 × U16) : Q015 × U16 :=
  (if (decayDue every e.2).1 then fall e.1 else e.1, (decayDue every e.2).2)

/-- A due decay of a LinDecay (R142). -/
def linFall (step amp : Q015) : Q015 := BitVec.ofNat 15 (amp.toNat - step.toNat)

/-- A due decay of an ExpDecay (R144). -/
def expFall (ratio amp : Q015) : Q015 := scaleBy 15 amp ratio

theorem LinDecayUnit.next_snd (u : LinDecayUnit) (x : Int) :
    (u.next x).2 = { u with amp := (envelopeStep (linFall u.step) u.every (u.amp, u.cnt)).1,
                            cnt := (envelopeStep (linFall u.step) u.every (u.amp, u.cnt)).2 } := rfl

theorem ExpDecayUnit.next_snd (u : ExpDecayUnit) (x : Int) :
    (u.next x).2 = { u with amp := (envelopeStep (expFall u.ratio) u.every (u.amp, u.cnt)).1,
                            cnt := (envelopeStep (expFall u.ratio) u.every (u.amp, u.cnt)).2 } := rfl

theorem linFall_toNat (step amp : Q015) : (linFall step amp).toNat = amp.toNat - step.toNat :=
  Nat.mod_eq_of_lt ((Nat.sub_le _ _).trans_lt amp.isLt)

/-- The linear decay stops at 0 (R142). -/
theorem linFall_eq_max (step amp : Q015) : ((linFall step amp).toNat : Int) =
    max 0 ((amp.toNat : Int) - step.toNat) := by
  rw [linFall_toNat]; omega

theorem linFall_le (step amp : Q015) : (linFall step amp).toNat ≤ amp.toNat := by
  rw [linFall_toNat]; exact Nat.sub_le _ _

theorem linFall_le_pred {step : Q015} (hstep : step ≠ 0) (amp : Q015) :
    (linFall step amp).toNat ≤ amp.toNat - 1 := by
  have hpos : 0 < step.toNat := BitVec.toNat_pos_of_ne_zero hstep
  rw [linFall_toNat]; omega

/-- Every ratio lowers every amplitude but 0, since it is below 1 (R144). -/
theorem expFall_le_pred (ratio amp : Q015) : (expFall ratio amp).toNat ≤ amp.toNat - 1 := by
  rw [expFall, scaleBy_toNat]
  rcases Nat.eq_zero_or_pos amp.toNat with hzero | hpos
  · simp [hzero]
  · exact Nat.le_pred_of_lt (scaled_lt hpos ratio.isLt)

section Envelope
variable {fall : Q015 → Q015} {every : U16} {e : Q015 × U16}

theorem envelopeStep_never : envelopeStep fall 0 e = e := rfl

theorem envelopeStep_wait (hevery : every ≠ 0) (hwait : e.2.toNat + 1 < every.toNat) :
    envelopeStep fall every e = (e.1, e.2 + 1) := by
  simp [envelopeStep, decayDue_wait hevery hwait]

theorem envelopeStep_due (hevery : every ≠ 0) (hdue : every.toNat ≤ e.2.toNat + 1) :
    envelopeStep fall every e = (fall e.1, 0) := by
  simp [envelopeStep, decayDue_due hevery hdue]

/-- The amplitude never rises (R150). -/
theorem envelopeStep_amp_le (hfall : ∀ amp, (fall amp).toNat ≤ amp.toNat) :
    (envelopeStep fall every e).1.toNat ≤ e.1.toNat := by
  rw [envelopeStep]
  split
  · exact hfall e.1
  · exact le_rfl

/-- A bound on the calls until the amplitude is 0: each level of the amplitude lasts for at most `every` calls, and the
present one for those that the counter leaves. -/
def callsToZero (every : U16) (e : Q015 × U16) : Nat :=
  e.1.toNat * (every.toNat + 1) + (every.toNat - e.2.toNat)

/-- Every call before the amplitude is 0 brings it nearer: the counter goes up, or the amplitude goes down. -/
theorem callsToZero_envelopeStep (hevery : every ≠ 0) (hfall : (fall e.1).toNat < e.1.toNat) :
    callsToZero every (envelopeStep fall every e) < callsToZero every e := by
  rcases Nat.lt_or_ge (e.2.toNat + 1) every.toNat with hwait | hdue
  · rw [envelopeStep_wait hevery hwait]
    simp only [callsToZero, cnt_add_one_toNat hwait]
    omega
  · have hlevel : ((fall e.1).toNat + 1) * (every.toNat + 1) ≤ e.1.toNat * (every.toNat + 1) :=
      Nat.mul_le_mul_right _ hfall
    rw [envelopeStep_due hevery hdue]
    simp only [callsToZero, BitVec.toNat_zero, Nat.add_mul, BitVec.ofNat_eq_ofNat] at hlevel ⊢
    omega

/-- From `callsToZero` calls on, the amplitude is 0 (R150). -/
theorem envelopeStep_iterate_amp (hevery : every ≠ 0) (hfall : ∀ amp, (fall amp).toNat ≤ amp.toNat - 1) :
    ∀ (n : Nat) (e : Q015 × U16), e.1 = 0 ∨ callsToZero every e ≤ n → ((envelopeStep fall every)^[n] e).1 = 0
  | 0, e, h => by
    rcases h with hzero | hcalls
    · exact hzero
    · have hamp : e.1.toNat = 0 := by
        have hlevels : e.1.toNat * (every.toNat + 1) = 0 := by rw [callsToZero] at hcalls; omega
        exact (Nat.mul_eq_zero.mp hlevels).resolve_right (Nat.succ_ne_zero _)
      exact BitVec.eq_of_toNat_eq hamp
  | n + 1, e, h => by
    rw [Function.iterate_succ_apply]
    refine envelopeStep_iterate_amp hevery hfall n _ ?_
    rcases eq_or_ne e.1 0 with hzero | hne
    · have hle : (envelopeStep fall every e).1.toNat ≤ e.1.toNat :=
        envelopeStep_amp_le fun amp => (hfall amp).trans (Nat.sub_le _ 1)
      rw [hzero] at hle
      exact .inl (BitVec.eq_of_toNat_eq (Nat.le_zero.mp hle))
    · have hpos : 0 < e.1.toNat := BitVec.toNat_pos_of_ne_zero hne
      have hless := callsToZero_envelopeStep hevery ((hfall e.1).trans_lt (Nat.sub_one_lt hpos.ne'))
      have hcalls := h.resolve_left hne
      exact .inr (by omega)

end Envelope

theorem LinDecayUnit.next_amp_le (u : LinDecayUnit) (x : Int) : (u.next x).2.amp.toNat ≤ u.amp.toNat :=
  envelopeStep_amp_le (every := u.every) (e := (u.amp, u.cnt)) (linFall_le u.step)

theorem ExpDecayUnit.next_amp_le (u : ExpDecayUnit) (x : Int) : (u.next x).2.amp.toNat ≤ u.amp.toNat :=
  envelopeStep_amp_le (every := u.every) (e := (u.amp, u.cnt)) (fun amp => scaleBy_le amp u.ratio)

theorem LinDecayUnit.foldl_next_amp : ∀ (xs : List Int) (u : LinDecayUnit),
    (xs.foldl (fun v x => (LinDecayUnit.next x v).2) u).amp =
      ((envelopeStep (linFall u.step) u.every)^[xs.length] (u.amp, u.cnt)).1
  | [], _ => rfl
  | x :: xs, u => LinDecayUnit.foldl_next_amp xs (u.next x).2

theorem ExpDecayUnit.foldl_next_amp : ∀ (xs : List Int) (u : ExpDecayUnit),
    (xs.foldl (fun v x => (ExpDecayUnit.next x v).2) u).amp =
      ((envelopeStep (expFall u.ratio) u.every)^[xs.length] (u.amp, u.cnt)).1
  | [], _ => rfl
  | x :: xs, u => ExpDecayUnit.foldl_next_amp xs (u.next x).2

/-- A lower amplitude gives an output of no greater magnitude: rounding down keeps the order on either side of 0. -/
theorem abs_envelope_le {a b : Nat} (h : a ≤ b) (x : Int) : |asr (x * a) 15| ≤ |asr (x * b) 15| := by
  have hab : (a : Int) ≤ b := Int.ofNat_le.mpr h
  unfold asr
  rcases Int.le_total 0 x with hx | hx
  · have hle : x * a ≤ x * b := Int.mul_le_mul_of_nonneg_left hab hx
    have hnonneg : 0 ≤ x * a := Int.mul_nonneg hx (Int.natCast_nonneg a)
    rw [abs_of_nonneg (by omega), abs_of_nonneg (by omega)]
    omega
  · have hle : x * b ≤ x * a := Int.mul_le_mul_of_nonpos_left hx hab
    have hnonpos : x * a ≤ 0 := Int.mul_nonpos_of_nonpos_of_nonneg hx (Int.natCast_nonneg a)
    rw [abs_of_nonpos (by omega), abs_of_nonpos (by omega)]
    omega

/-- Settles O19: both envelopes move by `envelopeStep`, whose amplitude never rises and is 0 after
`callsToZero` calls. -/
theorem envelopesFallToZero : Obligations.EnvelopesFallToZero := by
  refine ⟨fun u x => ?_, fun u hevery hstep => ?_, fun u x => ?_, fun u hevery => ?_⟩
  · exact ⟨u.next_amp_le x, abs_envelope_le (u.next_amp_le x) x⟩
  · refine ⟨callsToZero u.every (u.amp, u.cnt), fun xs hlen => ?_⟩
    rw [LinDecayUnit.foldl_next_amp]
    exact envelopeStep_iterate_amp hevery (linFall_le_pred hstep) _ _ (.inr hlen)
  · exact ⟨u.next_amp_le x, abs_envelope_le (u.next_amp_le x) x⟩
  · refine ⟨callsToZero u.every (u.amp, u.cnt), fun xs hlen => ?_⟩
    rw [ExpDecayUnit.foldl_next_amp]
    exact envelopeStep_iterate_amp hevery (expFall_le_pred u.ratio) _ _ (.inr hlen)

/-! ## The low-pass filter (R146) -/

/-- For a Q1.15 input the exact mix fits the stored `y`. -/
theorem LpfUnit.next_y_toInt (u : LpfUnit) {x : Int} (hx : InQ15 x) :
    (u.next x).2.y.toInt = lpfMix u.alpha x u.y.toInt :=
  toInt_toQ15 (lpfMix_inQ15 u.alpha hx (toInt_inQ15 u.y))

/-- Settles O20: the mix of two Q1.15 values is one, so storing it loses nothing. -/
theorem lowPassIsExact : Obligations.LowPassIsExact := by
  intro u x hlo hhi
  obtain ⟨hlow, hhigh⟩ := toInt_inQ15 (u.next x).2.y
  exact ⟨u.next_y_toInt ⟨hlo, hhi⟩, hlow, hhigh, rfl, rfl, rfl⟩

/-! ## The sample step of a block with one root (44_poly_and_mix.md R198, R200, 46_engine_step.md R241) -/

/-- The mix of one root is its output, which needs no saturation. -/
theorem mix_singleton (r : Synth) : mix [r] = (r.next.1, [r.next.2]) := by
  simp [mix, sat16_of_inQ15 r.next_inQ15]

/-- A sample step with nothing to pop, in a block of one root: the root advances once. -/
theorem step_silent_singleton {s : State} {rest : List Input} {r : Synth}
    (hi : s.inputs = .event .sampleStep :: rest) (hf : s.fifo = []) (hr : s.roots = [r]) :
    step s = .next
      { s.taken rest with roots := [r.next.2], lastSample := toQ15 r.next.1, sampleValid := true } := by
  rw [step_silent hi hf, State.render, State.taken_roots, hr, mix_singleton]

/-- Settles O16: the root advances once, and the effect does what it does with the synth's output. -/
theorem effectSampleStep : Obligations.EffectSampleStep := by
  intro s synth rest hi hf
  refine ⟨fun e hr => ?_, fun e hr => ?_, fun e hr => ?_⟩
  · refine ⟨_, (e.next synth.next.1).2, step_silent_singleton hi hf hr, rfl, toInt_toQ15 (Synth.next_inQ15 _), rfl,
      fun hnever => ?_, fun hevery hwait => ?_, fun hevery hdue => ?_⟩
    · rw [LinDecayUnit.next_snd, hnever, envelopeStep_never, ← hnever]
    · rw [LinDecayUnit.next_snd, envelopeStep_wait hevery hwait]
      exact ⟨cnt_add_one_toNat hwait, rfl⟩
    · rw [LinDecayUnit.next_snd, envelopeStep_due hevery hdue]
      exact ⟨rfl, linFall_eq_max e.step e.amp⟩
  · refine ⟨_, (e.next synth.next.1).2, step_silent_singleton hi hf hr, rfl, toInt_toQ15 (Synth.next_inQ15 _), rfl,
      fun hnever => ?_, fun hevery hwait => ?_, fun hevery hdue => ?_⟩
    · rw [ExpDecayUnit.next_snd, hnever, envelopeStep_never, ← hnever]
    · rw [ExpDecayUnit.next_snd, envelopeStep_wait hevery hwait]
      exact ⟨cnt_add_one_toNat hwait, rfl⟩
    · rw [ExpDecayUnit.next_snd, envelopeStep_due hevery hdue]
      exact ⟨rfl, scaleBy_toNat e.amp e.ratio⟩
  · have houtput : toQ15 (e.next synth.next.1).2.y.toInt = (e.next synth.next.1).2.y := BitVec.ofInt_toInt
    refine ⟨_, (e.next synth.next.1).2, step_silent_singleton hi hf hr, rfl, ?_, ?_⟩
    · exact (congrArg BitVec.toInt houtput).trans (e.next_y_toInt synth.next_inQ15)
    · exact congrArg (fun y => { e with y := y }) houtput.symm

end Sys2Proof.Machine
end

section
/-! Commands that reach one leaf or Drum root (41_command.md R125 to R128, 43_oscillators.md R161, R162, R166, R169,
R172): what the root makes of the command, and what that makes of the block. -/

namespace Sys2Proof.Machine

/-! ## The whole block after a command to one root -/

section OneRoot
variable {c : Instr} {s : State} {before after : List Synth} {r : Synth}

/-- A command that the root takes without a report replaces that root and writes nothing else. -/
theorem exec_reachesOnly_accepted {r' : Synth} (h : s.ReachesOnly before r after) (hr : ∀ t e, r ≠ .withEffect t e)
    (haccepted : r.receive s.params c = (r', [])) : exec c s = .next { s with roots := before ++ r' :: after } := by
  rw [exec_reachesOnly c h hr, haccepted, List.append_nil]; rfl

/-- A command that the root only reports sets the sticky bit, extends the trace, and writes nothing else
(60_exceptions.md R261). -/
theorem exec_reachesOnly_reported {k : Diag} (h : s.ReachesOnly before r after) (hr : ∀ t e, r ≠ .withEffect t e)
    (hreported : r.receive s.params c = (r, [k])) :
    exec c s = .next { s with status := s.status ||| k.bit, trace := s.trace ++ [k] } := by
  rw [exec_reachesOnly c h hr, hreported, ← h.1]; rfl

end OneRoot

/-! ## PLAY on a Sine or a Saw root (R161, R166) -/

theorem Synth.receive_play_sine (cfg : Params) (p : Pitch) (vel scale : U44) (u : SineUnit) :
    (Synth.sine u).receive cfg (.play p vel scale) =
      if vel = 0 then (.sine { u with gain := 0 }, [])
      else if 0 ≤ code p ∧ code p ≤ 127 then
        (.sine { u with inc := pinc cfg.sampleRateHz (code p).toNat, phase := 0, gain := gainOf vel scale,
                        amp := 0x7FFF, cnt := 0 }, [])
      else (.sine u, [.pitchRange]) := by
  simp only [Synth.receive, Synth.play, SineUnit.play, romIndex]
  split_ifs <;> rfl

theorem Synth.receive_play_saw (cfg : Params) (p : Pitch) (vel scale : U44) (u : SawUnit) :
    (Synth.saw u).receive cfg (.play p vel scale) =
      if vel = 0 then (.saw { u with gain := 0 }, [])
      else if 0 ≤ code p ∧ code p ≤ 127 then
        (.saw { u with inc := pinc cfg.sampleRateHz (code p).toNat, phase := 0, gain := gainOf vel scale,
                       cnt := 0 }, [])
      else (.saw u, [.pitchRange]) := by
  simp only [Synth.receive, Synth.play, SawUnit.play, romIndex]
  split_ifs <;> rfl

/-- An oscillator root that a note-off turns into `off` and a note-on in range into `on`, and that reports any other
note-on: the whole block after a Play (40_pitch.md R116, 41_command.md R127). -/
theorem exec_play_oscillator {s : State} {before after : List Synth} {r off on : Synth} {p : Pitch} {vel scale : U44}
    (h : s.ReachesOnly before r after) (hr : ∀ t e, r ≠ .withEffect t e)
    (hplay : r.receive s.params (.play p vel scale) =
      if vel = 0 then (off, []) else if 0 ≤ code p ∧ code p ≤ 127 then (on, []) else (r, [.pitchRange])) :
    exec (.play p vel scale) s = .next (
      if vel = 0 then { s with roots := before ++ off :: after }
      else if 0 ≤ code p ∧ code p ≤ 127 then { s with roots := before ++ on :: after }
      else { s with status := s.status ||| 8, trace := s.trace ++ [.pitchRange] }) := by
  split_ifs at hplay ⊢
  · exact exec_reachesOnly_accepted h hr hplay
  · exact exec_reachesOnly_accepted h hr hplay
  · exact exec_reachesOnly_reported h hr hplay

/-- Settles O8: a Sine root is an oscillator root. -/
theorem playOnSine : Obligations.PlayOnSine :=
  fun s _ _ u p vel scale h => exec_play_oscillator h (by simp) (Synth.receive_play_sine s.params p vel scale u)

/-- Settles O9: a Saw root is an oscillator root. -/
theorem playOnSaw : Obligations.PlayOnSaw :=
  fun s _ _ u p vel scale h => exec_play_oscillator h (by simp) (Synth.receive_play_saw s.params p vel scale u)

/-! ## PLAY on a Sample or a Drum root (R169, R172), SETATTACK on a Sine root (R162) -/

/-- Settles O10: a Sample root takes every Play without a report. -/
theorem playOnSample : Obligations.PlayOnSample :=
  fun _ _ _ _ _ _ _ h => exec_reachesOnly_accepted h (by simp) rfl

/-- Settles O12: a Sine root takes every SetAttack without a report. -/
theorem setAttackOnSine : Obligations.SetAttackOnSine :=
  fun _ _ _ _ _ _ h => exec_reachesOnly_accepted h (by simp) rfl

theorem Synth.receive_play_drum (cfg : Params) (p : Pitch) (vel scale : U44) (a : Addr) (kick snare hat : SampleUnit) :
    (Synth.drum a kick snare hat).receive cfg (.play p vel scale) =
      if code p = cfg.drumKickCode then (.drum a (kick.play vel scale) snare hat, [])
      else if code p = cfg.drumSnareCode then (.drum a kick (snare.play vel scale) hat, [])
      else if code p = cfg.drumHatCode then (.drum a kick snare (hat.play vel scale), [])
      else (.drum a kick snare hat, [.drumUnmapped]) := by
  simp only [Synth.receive, Synth.play, drumPlay]
  split_ifs <;> rfl

/-- Settles O11: a code names at most one voice, since the three parameters differ. -/
theorem playOnDrum : Obligations.PlayOnDrum := by
  intro s before after a kick snare hat p vel scale h hks hkh hsh
  have hr : ∀ t e, Synth.drum a kick snare hat ≠ .withEffect t e := by simp
  have hplay := Synth.receive_play_drum s.params p vel scale a kick snare hat
  have becomes {t : State} (ht : exec (.play p vel scale) s = .next t) : s.dispatch (.play p vel scale) = t :=
    Host.Outcome.next.inj ((exec_eq _ s).symm.trans ht)
  refine ⟨_, exec_eq _ s, fun hkick => becomes ?_, fun hsnare => becomes ?_, fun hhat => becomes ?_,
    fun hkick hsnare hhat => becomes ?_⟩
  · exact exec_reachesOnly_accepted h hr (hplay.trans (if_pos hkick))
  · have hkick : code p ≠ s.params.drumKickCode := hsnare ▸ hks.symm
    rw [if_neg hkick, if_pos hsnare] at hplay
    exact exec_reachesOnly_accepted h hr hplay
  · have hkick : code p ≠ s.params.drumKickCode := hhat ▸ hkh.symm
    have hsnare : code p ≠ s.params.drumSnareCode := hhat ▸ hsh.symm
    rw [if_neg hkick, if_neg hsnare, if_pos hhat] at hplay
    exact exec_reachesOnly_accepted h hr hplay
  · rw [if_neg hkick, if_neg hsnare, if_neg hhat] at hplay
    exact exec_reachesOnly_reported h hr hplay

end Sys2Proof.Machine
end

section
/-! Samples of the leaf synths (43_oscillators.md R163, R165, R167, R170): the decay that a Sine and a Saw share, the
phase over many samples, and the playback of a buffer. -/

namespace Sys2Proof.Machine

/-! ## The decay of an oscillator (R163, R167, 42_effects.md R147) -/

/-- An oscillator's amplitude or gain after a sample. -/
def decayed {n : Nat} (every cnt : U16) (ratio : Q015) (a : BitVec n) : BitVec n :=
  if (decayDue every cnt).1 then scaleBy n a ratio else a

/-- The counter and the decayed value after a sample: never due, waiting, or due. -/
theorem decayed_cases {n : Nat} (every cnt : U16) (ratio : Q015) (a : BitVec n) :
    (every = 0 → (decayDue every cnt).2 = cnt ∧ decayed every cnt ratio a = a) ∧
    (every ≠ 0 → cnt.toNat + 1 < every.toNat →
      (decayDue every cnt).2.toNat = cnt.toNat + 1 ∧ decayed every cnt ratio a = a) ∧
    (every ≠ 0 → every.toNat ≤ cnt.toNat + 1 →
      (decayDue every cnt).2 = 0 ∧ (decayed every cnt ratio a).toNat = a.toNat * ratio.toNat / 2 ^ 15) := by
  refine ⟨fun hnever => ?_, fun hevery hwait => ?_, fun hevery hdue => ?_⟩
  · rw [decayed, hnever, decayDue_never]
    exact ⟨rfl, rfl⟩
  · rw [decayed, decayDue_wait hevery hwait]
    exact ⟨cnt_add_one_toNat hwait, rfl⟩
  · rw [decayed, decayDue_due hevery hdue]
    exact ⟨rfl, scaleBy_toNat a ratio⟩

theorem SineUnit.next_snd (u : SineUnit) :
    u.next.2 = { u with phase := u.phase + u.inc + u.bend, amp := decayed u.every u.cnt u.ratio u.amp,
                        cnt := (decayDue u.every u.cnt).2 } := rfl

theorem SawUnit.next_snd (u : SawUnit) :
    u.next.2 = { u with phase := u.phase + u.inc, gain := decayed u.every u.cnt u.ratio u.gain,
                        cnt := (decayDue u.every u.cnt).2 } := rfl

/-- Settles O14: the root advances once, and its output fits `sample_out`. -/
theorem sineSampleStep : Obligations.SineSampleStep := by
  intro s u rest hi hf hr
  refine ⟨_, u.next.2, step_silent_singleton hi hf hr, rfl, ⟨_, _, rfl, rfl, toInt_toQ15 u.output_inQ15⟩, ?_⟩
  rw [SineUnit.next_snd]
  exact ⟨rfl, decayed_cases u.every u.cnt u.ratio u.amp⟩

/-- Settles O15: the root advances once, and its output is saturated to fit `sample_out`. -/
theorem sawSampleStep : Obligations.SawSampleStep := by
  intro s u rest hi hf hr
  refine ⟨_, u.next.2, step_silent_singleton hi hf hr, rfl, toInt_toQ15 (sat16_inQ15 _), ?_⟩
  rw [SawUnit.next_snd]
  exact ⟨rfl, decayed_cases u.every u.cnt u.ratio u.gain⟩

/-! ## The phase over many samples (R163, R165) -/

/-- Over `n` samples a Sine's phase advances `n` times, and its decay moves; nothing else changes. -/
theorem SineUnit.iterate_next (u : SineUnit) : ∀ n : Nat, ∃ amp cnt,
    (fun x : SineUnit => x.next.2)^[n] u =
      { u with phase := u.phase + BitVec.ofNat 32 n * (u.inc + u.bend), amp := amp, cnt := cnt }
  | 0 => ⟨u.amp, u.cnt, by simp⟩
  | n + 1 => by
    obtain ⟨amp, cnt, ih⟩ := u.iterate_next n
    have hphase : u.phase + BitVec.ofNat 32 n * (u.inc + u.bend) + u.inc + u.bend =
        u.phase + BitVec.ofNat 32 (n + 1) * (u.inc + u.bend) := by
      rw [BitVec.ofNat_add, BitVec.add_mul, BitVec.one_mul]; ac_rfl
    exact ⟨_, _, by rw [Function.iterate_succ_apply', ih, SineUnit.next_snd, hphase]⟩

/-- Settles O13, by the unit after `n` samples. -/
theorem sinePhaseAdvance : Obligations.SinePhaseAdvance := by
  intro u n v
  obtain ⟨amp, cnt, hv⟩ := u.iterate_next n
  rw [show v = _ from hv]
  exact ⟨rfl, rfl, rfl, rfl, rfl, rfl, rfl⟩

/-! ## The playback of a Sample buffer (R169, R170) -/

theorem SampleUnit.next_inactive {u : SampleUnit} (h : u.active = false) : u.next = (0, u) := if_pos h

/-- The unit after a note-on and `n` entries of its buffer. -/
def SampleUnit.playingAt (u : SampleUnit) (gain : U88) (n : Nat) : SampleUnit :=
  { u with cursor := BitVec.ofNat 21 n, active := true, gain := gain }

theorem SampleUnit.play_noteOn (u : SampleUnit) {vel : U44} (scale : U44) (hvel : vel ≠ 0) :
    u.play vel scale = u.playingAt (gainOf vel scale) 0 := if_neg hvel

section Playback
variable {u : SampleUnit} (hlen : u.rom.length ≤ 2 ^ 20) (gain : U88)
include hlen

/-- The legal buffer lengths leave the cursor room (00_scope.md R5). -/
theorem SampleUnit.playingAt_cursor_toNat {n : Nat} (hn : n ≤ u.rom.length) :
    (u.playingAt gain n).cursor.toNat = n :=
  Nat.mod_eq_of_lt (by omega)

theorem SampleUnit.next_playingAt {n : Nat} (hn : n < u.rom.length) :
    (u.playingAt gain n).next = (sat16 (asr (u.rom[n].toInt * gain.toNat) 8), u.playingAt gain (n + 1)) := by
  have hcursor := SampleUnit.playingAt_cursor_toNat hlen gain hn.le
  have hmore : ¬ (u.playingAt gain n).rom.length ≤ (u.playingAt gain n).cursor.toNat := by
    rw [hcursor]; exact Nat.not_le.mpr hn
  have hadvance : (u.playingAt gain n).cursor + 1 = BitVec.ofNat 21 (n + 1) := (BitVec.ofNat_add n 1).symm
  rw [SampleUnit.next, if_neg (Bool.noConfusion), if_neg hmore, hcursor, SampleUnit.romAt, hadvance]
  simp only [SampleUnit.playingAt, List.getD_eq_getElem _ _ hn]

/-- At the end of the buffer the unit stops. -/
theorem SampleUnit.next_playingAt_end :
    (u.playingAt gain u.rom.length).next = (0, { u.playingAt gain u.rom.length with active := false }) := by
  have hend : (u.playingAt gain u.rom.length).rom.length ≤ (u.playingAt gain u.rom.length).cursor.toNat :=
    (SampleUnit.playingAt_cursor_toNat hlen gain le_rfl).ge
  rw [SampleUnit.next, if_neg (Bool.noConfusion), if_pos hend]

theorem SampleUnit.iterate_playingAt : ∀ n ≤ u.rom.length,
    (fun x : SampleUnit => x.next.2)^[n] (u.playingAt gain 0) = u.playingAt gain n
  | 0, _ => rfl
  | n + 1, hn => by
    rw [Function.iterate_succ_apply', SampleUnit.iterate_playingAt n (Nat.le_of_succ_le hn),
      SampleUnit.next_playingAt hlen gain hn]

/-- One sample after the last entry's the unit has stopped, and then stays as it is. -/
theorem SampleUnit.iterate_stopped {n : Nat} (hn : u.rom.length < n) :
    (fun x : SampleUnit => x.next.2)^[n] (u.playingAt gain 0) =
      { u.playingAt gain u.rom.length with active := false } := by
  obtain ⟨k, rfl⟩ := Nat.exists_eq_add_of_le' hn
  rw [Function.iterate_add_apply, Function.iterate_succ_apply', SampleUnit.iterate_playingAt hlen gain _ le_rfl,
    SampleUnit.next_playingAt_end hlen gain]
  exact Function.iterate_fixed (congrArg Prod.snd (SampleUnit.next_inactive rfl)) k

end Playback

/-- Settles O17: the unit stands at entry `n` after `n` samples, up to the end of its buffer, and then stops. -/
theorem samplePlaysItsBuffer : Obligations.SamplePlaysItsBuffer := by
  unfold Obligations.SamplePlaysItsBuffer
  intro u vel scale hvel hlen
  rw [u.play_noteOn scale hvel]
  dsimp only
  refine ⟨fun n hn => ?_, fun n hn => ?_, fun n hn => ?_⟩
  · rw [SampleUnit.iterate_playingAt hlen _ n hn.le, SampleUnit.next_playingAt hlen _ hn, gainOf_toNat]
    rfl
  · rcases hn.eq_or_lt with rfl | hlt
    · rw [SampleUnit.iterate_playingAt hlen _ _ le_rfl, SampleUnit.next_playingAt_end hlen]
    · rw [SampleUnit.iterate_stopped hlen _ hlt, SampleUnit.next_inactive rfl]
  · rw [SampleUnit.iterate_stopped hlen _ hn]
    exact ⟨rfl, SampleUnit.playingAt_cursor_toNat hlen (gainOf vel scale) le_rfl⟩

end Sys2Proof.Machine
end

section
/-! The sine lookup (43_oscillators.md R160, 20_memory.md R72): the ROM entries as rounded sines, the interpolation, and
the symmetries of the full cycle. -/

namespace Sys2Proof.Machine

/-- Each ROM entry is the sine of its angle in units of 1/32767, rounded to nearest (R72). -/
theorem qtabAt_eq_floor {i : Nat} (h : i ≤ 256) :
    qtabAt i = ⌊(32767 : ℝ) * Real.sin (Real.pi * (i : ℝ) / 512) + 1 / 2⌋ := by
  obtain ⟨hlo, hhi⟩ := qtabAt_box i h
  obtain ⟨hsinLo, hsinHi, -, -⟩ := boxAt_holds i h
  have hlo' : (2 * (qtabAt i : ℝ) - 1) * 2 ^ 60 ≤ 2 * 32767 * (boxAt i).sinLo := by exact_mod_cast hlo
  have hhi' : 2 * 32767 * ((boxAt i).sinHi : ℝ) < (2 * qtabAt i + 1) * 2 ^ 60 := by exact_mod_cast hhi
  refine (Int.floor_eq_iff.mpr ⟨?_, ?_⟩).symm <;> linarith

/-- The quarter wave is one formula up to its end, where the fraction is 0: the entries, however they are computed,
interpolated with a floor. -/
theorem quarterSine_eq_interpolation {entry : Nat → Int} (hentry : ∀ i ≤ 256, qtabAt i = entry i) {p : Nat}
    (hp : p ≤ 2 ^ 30) :
    quarterSine p = entry (p / 2 ^ 22) +
      (entry (p / 2 ^ 22 + 1) - entry (p / 2 ^ 22)) * ((p % 2 ^ 22 : Nat) : Int) / 2 ^ 22 := by
  simp only [quarterSine, asr]
  split
  next hend =>
    have hfrac : p % 2 ^ 22 = 0 := by omega
    rw [hend, hfrac, hentry 256 le_rfl]; simp
  next hinside => rw [hentry _ (by omega), hentry _ (by omega)]

/-- The position in the quadrant on the phase as a number, mirrored in the odd quadrants. -/
theorem quadrantPos_eq (phase : Word) : quadrantPos phase =
    if phase.toNat / 2 ^ 30 % 2 = 1 then 2 ^ 30 - phase.toNat % 2 ^ 30 else phase.toNat % 2 ^ 30 := by
  simp [quadrantPos, BitVec.getLsbD, Nat.testBit_eq_decide_div_mod_eq]

/-- The lookup as the sign of the half cycle and the quarter wave. -/
theorem sineLookup_eq_sign_mul (phase : Word) : sineLookup phase =
    (if phase.toNat / 2 ^ 31 = 1 then -1 else 1) * quarterSine (quadrantPos phase) := by
  rw [sineLookup_eq, quadrantPos_eq]

/-- In the first quarter cycle, its two ends included, the lookup is the quarter wave. -/
theorem sineLookup_firstQuarter {phase : Word} (h : phase.toNat ≤ 2 ^ 30) :
    sineLookup phase = quarterSine phase.toNat := by
  have hpos : quadrantPos phase = phase.toNat := by
    rw [quadrantPos_eq]; split <;> omega
  rw [sineLookup_eq_sign_mul, if_neg (by omega), one_mul, hpos]

/-- Half a cycle on, the position in the quadrant is the same and the sign is the other. -/
theorem sineLookup_add_half (phase : Word) : sineLookup (phase + 0x80000000#32) = -sineLookup phase := by
  have hlt := phase.isLt
  have hhalf : (phase + 0x80000000#32).toNat = (phase.toNat + 2 ^ 31) % 2 ^ 32 := BitVec.toNat_add ..
  have hpos : quadrantPos (phase + 0x80000000#32) = quadrantPos phase := by
    rw [quadrantPos_eq, quadrantPos_eq, hhalf]; split <;> split <;> omega
  have hsign : (phase + 0x80000000#32).toNat / 2 ^ 31 = 1 ↔ ¬ phase.toNat / 2 ^ 31 = 1 := by
    rw [hhalf]; omega
  simp only [sineLookup_eq_sign_mul, hpos, hsign, ite_not, ← neg_mul, neg_ite, neg_neg]

/-- A phase mirrored in the quarter cycle has the same position in its quadrant, and the other sign only where the
sine is 0. -/
theorem sineLookup_half_sub (phase : Word) : sineLookup (0x80000000#32 - phase) = sineLookup phase := by
  have hlt := phase.isLt
  have hmirror : (0x80000000#32 - phase).toNat = (2 ^ 32 - phase.toNat + 2 ^ 31) % 2 ^ 32 := BitVec.toNat_sub ..
  have hpos : quadrantPos (0x80000000#32 - phase) = quadrantPos phase := by
    rw [quadrantPos_eq, quadrantPos_eq, hmirror]; split <;> split <;> omega
  rw [sineLookup_eq_sign_mul, sineLookup_eq_sign_mul, hpos]
  rcases Nat.eq_zero_or_pos (quadrantPos phase) with hzero | hpositive
  · rw [hzero, quarterSine_zero, mul_zero, mul_zero]
  · have hsign : (0x80000000#32 - phase).toNat / 2 ^ 31 = 1 ↔ phase.toNat / 2 ^ 31 = 1 := by
      rw [hmirror]; rw [quadrantPos_eq] at hpositive; split at hpositive <;> omega
    simp only [hsign]

/-- Settles O7: the ROM holds the rounded sines, the first quarter reads it directly, and the symmetries are those of
position and sign. -/
theorem sineLookupFollowsTheSine : Obligations.SineLookupFollowsTheSine := by
  refine ⟨fun i => qtabAt_eq_floor, fun phase hquarter => ?_, fun phase => ?_⟩
  · exact (sineLookup_firstQuarter hquarter).trans (quarterSine_eq_interpolation (fun i => qtabAt_eq_floor) hquarter)
  · obtain ⟨hlow, hhigh⟩ := sineLookup_range phase
    exact ⟨hlow, hhigh, sineLookup_add_half phase, sineLookup_half_sub phase⟩

end Sys2Proof.Machine
end

section
/-! The invariant of the block (10_state.md sections 3, 5 and 6): every event keeps each of its parts, so every step keeps
the whole. -/

namespace Sys2Proof.Machine

/-! ## What the pushes and the tick leave alone -/

@[simp] theorem State.hostPush_seq (a : Addr) (w : Word) (s : State) : (s.hostPush a w).seq = s.seq := by
  unfold State.hostPush; split <;> rfl
@[simp] theorem State.hostPush_roots (a : Addr) (w : Word) (s : State) : (s.hostPush a w).roots = s.roots := by
  unfold State.hostPush; split <;> rfl
@[simp] theorem State.seqTick_roots (s : State) : s.seqTick.roots = s.roots := by
  unfold State.seqTick; split <;> rfl
@[simp] theorem State.seqPush_roots (s : State) : s.seqPush.roots = s.roots := by
  unfold State.seqPush; split <;> rfl
@[simp] theorem State.trySeqPush_roots (s : State) : s.trySeqPush.roots = s.roots := by
  unfold State.trySeqPush; split <;> simp

/-! ## The channel (10_state.md R45) -/

/-- The port's address width and the sequencer's address in a block with legal parameters (00_scope.md R5). -/
theorem Params.wf_addresses {cfg : Params} (h : cfg.wf = true) :
    cfg.addrW ≤ 16 ∧ cfg.seqAddr.fits cfg.addrW = true := by
  simp only [Params.wf, Bool.and_eq_true, decide_eq_true_eq] at h
  tauto

/-- A beat of the sequencer's own making is addressed to `SEQ_ADDR` (45_sequencer.md R220). -/
theorem addr_of_fromSequencer {cfg : Params} {b : Beat} (h : fromSequencer cfg b = true) : b.addr = cfg.seqAddr := by
  simp only [fromSequencer, Bool.and_eq_true, decide_eq_true_eq] at h
  exact h.1

theorem State.hostPush_channelOk (a : Addr) (w : Word) {s : State} (hwidth : s.params.addrW ≤ 16)
    (h : channelOk s.params s.fifo = true) : channelOk s.params (s.hostPush a w).fifo = true := by
  rw [State.hostPush_fifo]
  split
  next hready =>
    simp only [State.cmdReady, Bool.and_eq_true] at hready
    exact channelOk_push h hready.1 (addrMask_fits s.params hwidth a)
  next => simpa using h

theorem State.trySeqPush_channelOk {s : State} (haddr : s.params.seqAddr.fits s.params.addrW = true)
    (hseq : s.seq.ok s.params = true) (h : channelOk s.params s.fifo = true) :
    channelOk s.params s.trySeqPush.fifo = true := by
  obtain ⟨-, hown, -, -⟩ := (Sequencer.ok_iff _ _).mp hseq
  rw [State.trySeqPush_fifo]
  split
  next henabled =>
    simp only [State.seqPushEnabled, Bool.and_eq_true] at henabled
    rcases hbuf : s.seq.seqbuf with _ | ⟨b, rest⟩
    · simpa using h
    · have hb : b.addr = s.params.seqAddr := addr_of_fromSequencer (hown b (by simp [hbuf]))
      exact channelOk_push h henabled.2 (hb ▸ haddr)
  next => simpa using h

/-- Every event keeps the channel within its depth and address width. -/
theorem State.after_channelOk (e : Event) {s : State} (h : s.Inv) :
    channelOk (s.after e).params (s.after e).fifo = true := by
  obtain ⟨hparams, hchannel, hseq, -, -⟩ := h
  obtain ⟨hwidth, haddr⟩ := Params.wf_addresses hparams
  rw [s.after_params e]
  cases e with
  | reset => exact (channelOk_iff _ _).mpr ⟨Nat.zero_le _, fun _ hb => absurd hb List.not_mem_nil⟩
  | sampleStep => exact s.sampled_fifo ▸ channelOk_drop hchannel
  | hostPush a w => exact State.hostPush_channelOk a w hwidth hchannel
  | seqTick => exact s.seqTick_fifo ▸ hchannel
  | seqPush => exact State.trySeqPush_channelOk haddr hseq hchannel
  | regWrite i d => exact s.regWrite_fifo i d ▸ hchannel
  | regRead i => exact hchannel
  | presentDiag => exact s.presentDiag_fifo ▸ hchannel

/-! ## The sequencer (10_state.md R44, 45_sequencer.md R210, R218, R220) -/

theorem State.seqTick_seqOk {s : State} (hparams : s.params.wf = true) (h : s.seq.ok s.params = true) :
    s.seqTick.seq.ok s.params = true := by
  unfold State.seqTick
  split
  · exact Sequencer.ok_tick hparams h
  · exact h

theorem State.trySeqPush_seqOk {s : State} (h : s.seq.ok s.params = true) : s.trySeqPush.seq.ok s.params = true := by
  unfold State.trySeqPush State.seqPush
  split
  · split
    next => exact h
    next hbuf => exact Sequencer.ok_tail h hbuf
  · exact h

theorem State.regWrite_seqOk (i : RegIndex) (d : Word) {s : State} (h : s.seq.ok s.params = true) :
    (s.regWrite i d).seq.ok s.params = true := by
  unfold State.regWrite
  split
  case h_1 => exact Sequencer.ok_command h _
  all_goals exact h

/-- Every event keeps the sequencer in a legal position, with at most 4 beats of its own making. -/
theorem State.after_seqOk (e : Event) {s : State} (hparams : s.params.wf = true) (h : s.seq.ok s.params = true) :
    (s.after e).seq.ok (s.after e).params = true := by
  rw [s.after_params e]
  cases e with
  | reset => rfl
  | sampleStep => exact s.sampled_seq ▸ h
  | hostPush a w => exact s.hostPush_seq a w ▸ h
  | seqTick => exact State.seqTick_seqOk hparams h
  | seqPush => exact State.trySeqPush_seqOk h
  | regWrite i d => exact State.regWrite_seqOk i d h
  | regRead i => exact h
  | presentDiag => exact s.presentDiag_seq ▸ h

/-! ## The units (10_state.md R35 to R43, 44_poly_and_mix.md R190) -/

theorem State.regWrite_unitsOk (i : RegIndex) (d : Word) {s : State} (h : s.roots.all Synth.ok = true) :
    (s.regWrite i d).roots.all Synth.ok = true := by
  unfold State.regWrite
  split
  case h_10 | h_11 => exact (writeRoots_ok _ _ _).trans h
  all_goals exact h

/-- Every event keeps gains and cursors in range and the slots of the allocators legal. -/
theorem State.after_unitsOk (e : Event) {s : State} (h : s.roots.all Synth.ok = true) :
    (s.after e).roots.all Synth.ok = true := by
  cases e with
  | reset =>
    show (s.params.topology.map Synth.build).all Synth.ok = true
    simp [Synth.ok_build]
  | sampleStep => exact sampled_ok h
  | hostPush a w => exact s.hostPush_roots a w ▸ h
  | seqTick => exact s.seqTick_roots ▸ h
  | seqPush => exact s.trySeqPush_roots ▸ h
  | regWrite i d => exact State.regWrite_unitsOk i d h
  | regRead i => exact h
  | presentDiag => exact s.presentDiag_roots ▸ h

/-! ## The whole -/

theorem State.Inv.after (e : Event) {s : State} (h : s.Inv) : (s.after e).Inv :=
  have ⟨hparams, _, hseq, hshape, hunits⟩ := h
  ⟨s.after_params e ▸ hparams, State.after_channelOk e h, State.after_seqOk e hparams hseq,
    State.after_treeShapeOk e hshape, State.after_unitsOk e hunits⟩

/-- Settles O58: the invariant does not read what the start of a step writes, and every event keeps it. -/
theorem stepKeepsTheInvariant : Obligations.StepKeepsTheInvariant :=
  fun _ _ hs h => step_keeps (P := State.Inv) (fun _ hx => hx) (fun _ _ hx => hx) (fun _ _ hx => hx)
    (fun _ e hx => hx.after e) h hs

end Sys2Proof.Machine
end

section
/-! The allocator as a root (44_poly_and_mix.md R190 to R193): the voice that a Play goes to, the Play that finds none, the
attack that every voice receives, and the sum of the voices that needs no saturation. -/

namespace Sys2Proof.Machine

/-! ## PLAY on an allocator (R190, R191) -/

/-- Playing voice `k` reports what that voice reports, and replaces it and its slot. -/
theorem Voices.playAt_of_getElem? (cfg : Params) (p : Pitch) (vel scale : U44) {vs : Voices} {k : Nat}
    {slot : Option Pitch} {voice : Synth} (hk : vs.toList[k]? = some (slot, voice)) :
    (vs.playAt cfg p vel scale k).2 = (voice.play cfg p vel scale).2 ∧
      (vs.playAt cfg p vel scale k).1.toList =
        vs.toList.set k (slotAfter p vel, (voice.play cfg p vel scale).1) := by
  refine ⟨by rw [Voices.playAt_snd, hk], ?_⟩
  rw [Voices.playAt_toList, List.modify_eq_set_getElem?, hk]
  rfl

theorem Synth.play_poly_chosen (cfg : Params) {p : Pitch} (vel scale : U44) (a : Addr) {vs : Voices} {k : Nat}
    (hchosen : ChosenVoice vs.slots p k) :
    (Synth.poly a vs).play cfg p vel scale =
      (.poly a (vs.playAt cfg p vel scale k).1, (vs.playAt cfg p vel scale k).2) := by
  rw [Synth.play, Voices.choose_eq_some.mpr hchosen]

theorem Synth.play_poly_full (cfg : Params) {p : Pitch} (vel scale : U44) (a : Addr) {vs : Voices}
    (hunheld : some p ∉ vs.slots) (hfull : none ∉ vs.slots) :
    (Synth.poly a vs).play cfg p vel scale = (.poly a vs, [.voiceDrop]) := by
  rw [Synth.play, Voices.choose_eq_none.mpr ⟨hunheld, hfull⟩]

/-- A Play that reaches an allocator root: the whole block after the chosen voice is played. -/
theorem exec_play_chosenVoice {s : State} {before after : List Synth} {a : Addr} {voices : Voices} {p : Pitch}
    (vel scale : U44) {k : Nat} {slot : Option Pitch} {voice : Synth} (h : s.ReachesOnly before (.poly a voices) after)
    (hchosen : ChosenVoice voices.slots p k) (hk : voices.toList[k]? = some (slot, voice)) :
    ∃ voices' : Voices,
      exec (.play p vel scale) s = .next
        { s with roots := before ++ .poly a voices' :: after,
                 status := statusAfter s.status (voice.play s.params p vel scale).2,
                 trace := s.trace ++ (voice.play s.params p vel scale).2 } ∧
      voices'.toList = voices.toList.set k (slotAfter p vel, (voice.play s.params p vel scale).1) := by
  obtain ⟨hcodes, hvoices⟩ := Voices.playAt_of_getElem? s.params p vel scale hk
  refine ⟨(voices.playAt s.params p vel scale k).1, ?_, hvoices⟩
  rw [exec_reachesOnly _ h (by simp), Synth.receive, Synth.play_poly_chosen s.params vel scale a hchosen, hcodes]

/-- Settles O21: an allocator passes a Play on to the voice it chooses, and a root that is no WithEffect plays what it
receives. -/
theorem polyPlaysTheChosenVoice : Obligations.PolyPlaysTheChosenVoice :=
  ⟨fun _ _ _ _ _ _ vel scale _ _ _ h hchosen hk => exec_play_chosenVoice vel scale h hchosen hk,
    fun _ _ _ _ p vel scale h hkind => exec_reachesOnly (.play p vel scale) h hkind⟩

/-- Settles O22: with no slot to choose the allocator only reports. -/
theorem polyDropsWhenFull : Obligations.PolyDropsWhenFull :=
  fun s _ _ a _ p vel scale h hunheld hfull =>
    exec_reachesOnly_reported (c := .play p vel scale) h (by simp) (Synth.play_poly_full s.params vel scale a hunheld hfull)

/-! ## SETATTACK on an allocator (R193) -/

/-- Settles O23: the allocator takes every SetAttack without a report, and each voice receives it in place. -/
theorem polyAttackReachesEveryVoice : Obligations.PolyAttackReachesEveryVoice :=
  fun _ _ _ _ voices vel scale h =>
    ⟨voices.attack vel scale, exec_reachesOnly_accepted h (by simp) rfl, voices.attack_toList vel scale⟩

/-! ## The sum of the voices (10_state.md R39, R192) -/

/-- `SHIFT` is the least exponent whose power of two reaches `P`. -/
theorem shiftFor_le {p n : Nat} (h : p ≤ 2 ^ n) : shiftFor p ≤ n := by
  unfold shiftFor
  split
  next => exact Nat.zero_le n
  next hp => exact Nat.succ_le_of_lt ((Nat.log2_lt (by omega)).mpr (by omega))

/-- A sum of at most `2 ^ k` Q1.15 samples, each shifted right by `k`, is a Q1.15 sample: below, `2 ^ k` divides the
lowest sample, so no floor takes the sum under it. -/
theorem sum_asr_inQ15 {k : Nat} (hk : k ≤ 15) {xs : List Int} (hxs : ∀ x ∈ xs, InQ15 x) (hlen : xs.length ≤ 2 ^ k) :
    InQ15 (xs.map (fun x => asr x k)).sum := by
  have hpos : (0 : Int) < 2 ^ k := by positivity
  have hlen' : (xs.length : Int) ≤ 2 ^ k := by exact_mod_cast hlen
  have hlow : ∀ y ∈ xs.map (fun x => asr x k), -(2 : Int) ^ (15 - k) ≤ y := by
    intro y hy
    obtain ⟨x, hx, rfl⟩ := List.mem_map.mp hy
    rw [asr, Int.le_ediv_iff_mul_le hpos, neg_mul, ← pow_add, Nat.sub_add_cancel hk]
    exact (hxs x hx).1
  have hhigh : ∀ y ∈ xs.map (fun x => asr x k), y ≤ 32767 / 2 ^ k := by
    intro y hy
    obtain ⟨x, hx, rfl⟩ := List.mem_map.mp hy
    exact Int.ediv_le_ediv hpos (hxs x hx).2
  have hsumLow := List.card_nsmul_le_sum _ _ hlow
  have hsumHigh := List.sum_le_card_nsmul _ _ hhigh
  rw [List.length_map, nsmul_eq_mul] at hsumLow hsumHigh
  constructor
  · calc (-32768 : Int) = 2 ^ k * -2 ^ (15 - k) := by rw [mul_neg, ← pow_add, Nat.add_sub_cancel' hk]; rfl
      _ ≤ xs.length * -2 ^ (15 - k) := mul_le_mul_of_nonpos_right hlen' (by simp)
      _ ≤ _ := hsumLow
  · calc _ ≤ (xs.length : Int) * (32767 / 2 ^ k) := hsumHigh
      _ ≤ 2 ^ k * (32767 / 2 ^ k) := mul_le_mul_of_nonneg_right hlen' (by positivity)
      _ ≤ 32767 := Int.mul_ediv_self_le hpos.ne'

/-- The voices of a legal allocator, 1 to 16 of them (10_state.md R32), never exceed the sample range. -/
theorem Voices.next_fst_inQ15 (vs : Voices) (h : vs.count ≤ 16) : InQ15 (vs.next (shiftFor vs.count)).1 := by
  have hshift : shiftFor vs.count ≤ 4 := shiftFor_le h
  rw [Voices.next_fst, ← Function.comp_def (fun x => asr x (shiftFor vs.count)), ← List.map_map]
  refine sum_asr_inQ15 (by omega) (fun x hx => ?_) ?_
  · obtain ⟨e, -, rfl⟩ := List.mem_map.mp hx
    exact e.2.next_inQ15
  · rw [List.length_map, vs.length_toList]
    exact le_two_pow_shiftFor vs.count

/-- Settles O24: the sum of the voices is in the sample range, where saturation is the identity. -/
theorem polySumNeverClamps : Obligations.PolySumNeverClamps := by
  refine ⟨fun a voices _ hmost => ?_, fun a voices => ⟨_, rfl, voices.next_toList _⟩, by decide,
    fun p _ => ⟨le_two_pow_shiftFor p, fun n => shiftFor_le⟩⟩
  have hout : (Synth.poly a voices).next.1 = (voices.next (shiftFor voices.count)).1 :=
    sat16_of_inQ15 (voices.next_fst_inQ15 hmost)
  exact ⟨hout.trans (voices.next_fst _), (Synth.poly a voices).next_inQ15⟩

end Sys2Proof.Machine
end

section
/-! A synth under an effect (42_effects.md R141, R143, R149, 44_poly_and_mix.md R195 to R199): as a root each child
receives a command by its own address, and as a voice of an allocator both are played. -/

namespace Sys2Proof.Machine

/-! ## What each child makes of a command -/

/-- A command that reaches a WithEffect root is offered to both children (R197). -/
theorem Synth.runCommand_withEffect (cfg : Params) {a : Addr} (c : Instr) {synth : Synth} {effect : Effect}
    (h : a &&& (Synth.withEffect synth effect).addr ≠ 0) :
    (Synth.withEffect synth effect).runCommand cfg a c =
      (.withEffect (synth.runCommand cfg a c).1 (effect.runCommand a c), (synth.runCommand cfg a c).2) := by
  rw [Synth.runCommand]
  exact if_pos (addrMatch_iff.mpr h)

theorem Effect.runCommand_play (a : Addr) (p : Pitch) (vel scale : U44) (e : Effect) :
    e.runCommand a (.play p vel scale) = if addrMatch a e.addr then e.play vel else e := rfl

/-- The address test (41_command.md R124) as a test for 0. -/
theorem ite_addrMatch {α : Type} (a u : Addr) (reached missed : α) :
    (if addrMatch a u then reached else missed) = if a &&& u = 0 then missed else reached := by
  simp [addrMatch]

/-- An effect ignores a SetAttack (R149). -/
theorem Effect.runCommand_setAttack (a : Addr) (vel scale : U44) (e : Effect) :
    e.runCommand a (.setAttack vel scale) = e := by
  unfold Effect.runCommand; split <;> rfl

/-- A command that reaches a WithEffect root: the whole block, the synth doing what it does as a root of its own. -/
theorem exec_withEffect (c : Instr) {s : State} {before after : List Synth} {synth : Synth} {effect : Effect}
    (h : s.ReachesOnly before (.withEffect synth effect) after) :
    exec c s = .next
      { s with roots := before ++ .withEffect (synth.runCommand s.params s.beatAddr c).1
                 (effect.runCommand s.beatAddr c) :: after,
               status := statusAfter s.status (synth.runCommand s.params s.beatAddr c).2,
               trace := s.trace ++ (synth.runCommand s.params s.beatAddr c).2 } := by
  have ⟨_, hreached, _⟩ := h
  rw [exec_eq, State.dispatch_reachesOnly c h, Synth.runCommand_withEffect s.params c hreached]

/-- A SetAttack that reaches a WithEffect root changes at most its synth and reports nothing (R149, R199). -/
theorem exec_setAttack_withEffect (vel scale : U44) {s : State} {before after : List Synth} {synth : Synth}
    {effect : Effect} (h : s.ReachesOnly before (.withEffect synth effect) after) :
    exec (.setAttack vel scale) s = .next
      { s with roots := before ++
          .withEffect (synth.runCommand s.params s.beatAddr (.setAttack vel scale)).1 effect :: after } := by
  rw [exec_withEffect _ h, Effect.runCommand_setAttack, Synth.setAttack_diags, List.append_nil]
  rfl

/-! ## A Sine by its own address (R124, R161, R162) -/

theorem Synth.runCommand_play_sine (cfg : Params) (a : Addr) (p : Pitch) (vel scale : U44) (u : SineUnit) :
    let played := if addrMatch a u.addr then u.play cfg.sampleRateHz p vel scale else (u, [])
    (Synth.sine u).runCommand cfg a (.play p vel scale) = (.sine played.1, played.2) := by
  unfold Synth.runCommand; split <;> rfl

theorem Synth.runCommand_setAttack_sine (cfg : Params) (a : Addr) (vel scale : U44) (u : SineUnit) :
    ((Synth.sine u).runCommand cfg a (.setAttack vel scale)).1 =
      .sine (if addrMatch a u.addr then u.setAttack vel scale else u) := by
  unfold Synth.runCommand; split <;> rfl

/-! ## A velocity restarts an envelope (R141, R143, R145) -/

theorem Effect.play_noteOff (e : Effect) : e.play 0 = e := by cases e <;> rfl

theorem Effect.play_linDecay (u : LinDecayUnit) {vel : U44} (h : vel ≠ 0) :
    (Effect.linDecay u).play vel = .linDecay { u with amp := 0x7FFF, cnt := 0 } :=
  congrArg Effect.linDecay (if_neg h)

theorem Effect.play_expDecay (u : ExpDecayUnit) {vel : U44} (h : vel ≠ 0) :
    (Effect.expDecay u).play vel = .expDecay { u with amp := 0x7FFF, cnt := 0 } :=
  congrArg Effect.expDecay (if_neg h)

/-- Settles O25: a WithEffect root offers the command to both children, a WithEffect voice plays both, and `restarted` is
what an effect does when it is played. -/
theorem withEffectRoutesByOwnAddress : Obligations.WithEffectRoutesByOwnAddress := by
  unfold Obligations.WithEffectRoutesByOwnAddress
  intro restarted
  have hrestarted (vel : U44) (e : Effect) : e.play vel = restarted vel e := by
    by_cases hvel : vel = 0
    · subst hvel; exact e.play_noteOff
    · refine Eq.trans ?_ (if_neg hvel).symm
      cases e with
      | linDecay u => exact Effect.play_linDecay u hvel
      | expDecay u => exact Effect.play_expDecay u hvel
      | lpf u => rfl
  refine ⟨fun s _ _ synth effect p vel scale h => ?_, fun s _ _ synth _ vel scale h => ?_,
    fun s _ _ u effect p vel scale h => ⟨?_, ?_⟩, fun _ _ _ _ _ _ vel scale _ _ _ effect h hchosen hk => ?_⟩
  · refine ⟨_, _, exec_singleton _ s synth, ?_⟩
    rw [exec_withEffect _ h, Effect.runCommand_play, ite_addrMatch, hrestarted]
  · refine ⟨_, ?_, exec_setAttack_withEffect vel scale h⟩
    rw [exec_singleton, Synth.setAttack_diags, List.append_nil]
    rfl
  · rw [exec_withEffect _ h, Effect.runCommand_play, Synth.runCommand_play_sine, hrestarted]
    rfl
  · rw [exec_setAttack_withEffect vel scale h, Synth.runCommand_setAttack_sine]
    rfl
  · rw [← hrestarted]
    exact exec_play_chosenVoice vel scale h hchosen hk

end Sys2Proof.Machine
end

section
/-! The mixer (44_poly_and_mix.md R200, 00_scope.md R9), and the Sample and the Drum as its inputs (43_oscillators.md
R170, R173). -/

namespace Sys2Proof.Machine

/-! ## A sample of a Sample unit (R170), where it is active -/

section Active
variable {u : SampleUnit} (hactive : u.active ≠ false)
include hactive

theorem SampleUnit.next_sounding {x : Q15} (hx : u.rom[u.cursor.toNat]? = some x) :
    u.next = (sat16 (asr (x.toInt * u.gain.toNat) 8), { u with cursor := u.cursor + 1 }) := by
  have hmore : ¬ u.rom.length ≤ u.cursor.toNat := Nat.not_le.mpr (List.getElem?_eq_some_iff.mp hx).1
  rw [SampleUnit.next, if_neg hactive, if_neg hmore, SampleUnit.romAt, List.getD_eq_getElem?_getD, hx]
  rfl

theorem SampleUnit.next_exhausted (hend : u.rom.length ≤ u.cursor.toNat) :
    u.next = (0, { u with active := false }) := by
  rw [SampleUnit.next, if_neg hactive, if_pos hend]

end Active

/-- Settles O26: the mix saturates once, so `sample_out` holds it; a Sample is inactive, exhausted or sounding, and a Drum
sums three of them. -/
theorem sampleStepMixesEveryRoot : Obligations.SampleStepMixesEveryRoot := by
  unfold Obligations.SampleStepMixesEveryRoot
  refine ⟨fun s rest hi hf => ⟨_, step_silent hi hf, rfl, toInt_toQ15 (sat16_inQ15 _), fun r _ => r.next_inQ15⟩, ?_⟩
  intro out advanced
  have hnext (u : SampleUnit) : u.next = (out u, advanced u) := by
    by_cases hactive : u.active = false
    · simp only [out, advanced, if_pos hactive]
      exact SampleUnit.next_inactive hactive
    simp only [out, advanced, if_neg hactive]
    rcases Nat.lt_or_ge u.cursor.toNat u.rom.length with hmore | hend
    · have hx : u.rom[u.cursor.toNat]? = some u.rom[u.cursor.toNat] := List.getElem?_eq_getElem hmore
      rw [SampleUnit.next_sounding hactive hx, hx, if_pos hmore]
      rfl
    · rw [SampleUnit.next_exhausted hactive hend, List.getElem?_eq_none hend, if_neg (Nat.not_lt.mpr hend)]
  refine ⟨fun u => ?_, fun a kick snare hat => ?_⟩
  · rw [Synth.next, hnext]
  · rw [Synth.next, drumNext, hnext, hnext, hnext]
    rfl

end Sys2Proof.Machine
end

section
/-! The sequencer (45_sequencer.md): the control operations (R212 to R214), the pattern registers (R222), the delivery
of beats (R223), what a tick that finds the buffer empty emits and where it leaves the position (R215 to R220, R225),
and the laws of many ticks (R226). -/

namespace Sys2Proof.Machine

/-! ## Control (R212, R213, R214) -/

theorem seqOp_cases : ∀ op : BitVec 2, op = 0 ∨ op = 1 ∨ op = 2 ∨ op = 3 := by decide

/-- A SEQ_CMD write by its op and the mode. -/
theorem Sequencer.command_eq (op : BitVec 2) (q : Sequencer) :
    q.command op =
      if op = 1 ∧ q.mode = .stopped then { q with mode := .playing, measure := 0, idx := 0 }
      else if op = 2 ∧ q.mode = .stopped then { q with mode := .countoffSlow, measure := 0, idx := 0 }
      else if op = 3 then { q with mode := .stopped, measure := 0, idx := 0 }
      else q := by
  rcases seqOp_cases op with rfl | rfl | rfl | rfl
  · rfl
  · show q.play = _
    simp [Sequencer.play]
  · show q.countoff = _
    simp [Sequencer.countoff]
  · rfl

/-- Settles O31: the write is `Sequencer.command` on the two low bits, and touches the sequencer only. -/
theorem sequencerControl : Obligations.SequencerControl := by
  intro s d rest hi
  rw [step_event hi, ← Sequencer.command_eq]
  rfl

/-! ## The pattern registers (R222) -/

/-- Settles O37: PAT_COMMIT is `Sequencer.commit`, and the three pattern registers write `shadow` only. -/
theorem commitCopiesTheShadow : Obligations.CommitCopiesTheShadow := by
  refine ⟨fun s d rest hi => step_event hi, fun s t i d rest hi hpat hstep => ?_⟩
  obtain rfl := Host.Outcome.next.inj ((step_event hi).symm.trans hstep)
  rcases hpat with rfl | rfl | rfl <;> rfl

/-! ## The delivery of beats (R223) -/

/-- Settles O38: with a beat waiting and room in the channel the push is enabled, and it is `State.seqPush`. -/
theorem seqPushMovesTheHead : Obligations.SeqPushMovesTheHead := by
  intro s b beats rest hi hbuf hroom
  have henabled : (s.taken rest).seqPushEnabled = true := by simp [State.seqPushEnabled, State.hasRoom, hbuf, hroom]
  have hpush : (s.taken rest).seqPush =
      { s.taken rest with fifo := s.fifo ++ [b], seq := { s.seq with seqbuf := beats } } := by
    rw [State.seqPush, State.taken_seq, hbuf]
    rfl
  rw [step_event hi, ← hpush]
  exact congrArg _ (if_pos henabled)

/-! ## One tick that finds the buffer empty (R215 to R220, R225) -/

theorem step_seqTick {s : State} {rest : List Input} (hi : s.inputs = .event .seqTick :: rest)
    (hbuf : s.seq.seqbuf = []) : step s = .next { s.taken rest with seq := s.seq.tick s.params } := by
  rw [step_event hi]
  exact congrArg _ (if_pos hbuf)

theorem Sequencer.tick_stopped (cfg : Params) {q : Sequencer} (hmode : q.mode = .stopped) : q.tick cfg = q :=
  if_pos hmode

theorem Sequencer.tick_running (cfg : Params) {q : Sequencer} (hmode : q.mode ≠ .stopped) :
    q.tick cfg = { q.advance with seqbuf := emitBeats cfg q } :=
  if_neg hmode

/-- Settles O34: the tick meets an empty buffer, so it is `Sequencer.tick`, the identity in STOPPED. -/
theorem stoppedTickChangesNothing : Obligations.StoppedTickChangesNothing := by
  intro s rest hi hmode hbuf
  rw [step_seqTick hi hbuf, Sequencer.tick_stopped _ hmode]
  rfl

theorem Sequencer.advance_within {q : Sequencer} (h : q.idx.toNat + 1 < subdivisions q.meter) :
    q.advance = { q with idx := q.idx + 1 } :=
  if_neg (Nat.not_le.mpr h)

theorem Sequencer.advance_end {q : Sequencer} (h : subdivisions q.meter ≤ q.idx.toNat + 1) : q.advance = q.wrap :=
  if_pos h

theorem Sequencer.wrap_countoffSlow {q : Sequencer} (h : q.mode = .countoffSlow) :
    q.wrap = { q with idx := 0, mode := .countoffFast } := by
  rw [Sequencer.wrap, h]

theorem Sequencer.wrap_countoffFast {q : Sequencer} (h : q.mode = .countoffFast) :
    q.wrap = { q with idx := 0, mode := .playing, measure := 0 } := by
  rw [Sequencer.wrap, h]

theorem Sequencer.wrap_playing {q : Sequencer} (h : q.mode = .playing) :
    q.wrap = { q with idx := 0, measure := q.measure + 1 } := by
  rw [Sequencer.wrap, h]

theorem Sequencer.wrap_idx (q : Sequencer) : q.wrap.idx = 0 := by
  unfold Sequencer.wrap; split <;> rfl

/-- Settles O32: the tick writes the buffer and, through `advance`, the position. -/
theorem tickAdvancesPosition : Obligations.TickAdvancesPosition := by
  intro s rest hi hbuf hmode
  have htick := Sequencer.tick_running s.params hmode
  simp only [subdivisions_eq_ite]
  refine ⟨_, s.seq.tick s.params, step_seqTick hi hbuf, rfl, ?_, fun hwithin => ?_, fun hend => ?_⟩
  · rw [htick, Sequencer.advance_eq]
  · have hN := (subdivisions_bounds s.seq.meter).1
    rw [htick, Sequencer.advance_within hwithin]
    exact ⟨BitVec.toNat_add_of_lt (by simp; omega), rfl, rfl⟩
  · rw [htick, Sequencer.advance_end hend]
    refine ⟨s.seq.wrap_idx, fun h => ?_, fun h => ?_, fun h => ?_⟩
    · rw [Sequencer.wrap_countoffSlow h]; exact ⟨rfl, rfl⟩
    · rw [Sequencer.wrap_countoffFast h]; exact ⟨rfl, rfl⟩
    · rw [Sequencer.wrap_playing h]; exact ⟨h, BitVec.toNat_add _ _⟩

theorem emitBeats_countoffSlow (cfg : Params) {q : Sequencer} (h : q.mode = .countoffSlow) :
    emitBeats cfg q =
      if q.idx.toNat = 0 ∨ q.idx.toNat = subdivisions q.meter / 2 then [accentBeat cfg] else [] := by
  rw [emitBeats, h]

theorem emitBeats_countoffFast (cfg : Params) {q : Sequencer} (h : q.mode = .countoffFast) :
    emitBeats cfg q = if q.idx.toNat % 4 = 0 then [accentBeat cfg] else [] := by
  rw [emitBeats, h]

theorem emitBeats_playing (cfg : Params) {q : Sequencer} (h : q.mode = .playing) :
    emitBeats cfg q = playingBeats cfg q := by
  rw [emitBeats, h]

/-- What waits after a tick is what the position before it emits, in STOPPED too, where that is nothing. -/
theorem Sequencer.tick_seqbuf (cfg : Params) {q : Sequencer} (hbuf : q.seqbuf = []) :
    (q.tick cfg).seqbuf = emitBeats cfg q := by
  by_cases hmode : q.mode = .stopped
  · rw [Sequencer.tick_stopped cfg hmode, hbuf, emitBeats, hmode]
  · rw [Sequencer.tick_running cfg hmode]

/-- The two accents of the slow count-off measure by the meter (R216). -/
theorem slowAccent_iff (m : Meter) (i : BitVec 4) :
    (i.toNat = 0 ∨ i.toNat = subdivisions m / 2) ↔
      (i = 0 ∨ (m = .fourFour ∧ i = 8) ∨ (m = .twelveEight ∧ i = 6)) := by
  cases m <;> simp [subdivisions, BitVec.toNat_eq]

/-- The accents of the fast count-off measure (R217). -/
theorem fastAccent_iff : ∀ i : BitVec 4, i.toNat % 4 = 0 ↔ (i = 0 ∨ i = 4 ∨ i = 8 ∨ i = 12) := by decide

/-- Settles O33: the buffer holds `emitBeats` of the position before the tick, mode by mode. -/
theorem tickEmitsBeats : Obligations.TickEmitsBeats := by
  intro s t rest hi hbuf hstep
  obtain rfl := Host.Outcome.next.inj ((step_seqTick hi hbuf).symm.trans hstep)
  dsimp only
  rw [Sequencer.tick_seqbuf _ hbuf]
  refine ⟨fun h => ?_, fun h => ?_, fun h => ?_⟩
  · simp only [emitBeats_countoffSlow _ h, slowAccent_iff]
    rfl
  · simp only [emitBeats_countoffFast _ h, fastAccent_iff]
    rfl
  · rw [emitBeats_playing _ h]
    rfl

/-! ## Many ticks (R226) -/

section ManyTicks
variable (cfg : Params) {q : Sequencer} (hbuf : q.seqbuf = [])
include hbuf

theorem tickBeats_eq_emitBeats (k : Nat) : tickBeats cfg q k = emitBeats cfg ((Sequencer.drainedTick cfg)^[k] q) :=
  Sequencer.tick_seqbuf cfg (drainedTick_seqbuf cfg hbuf k)

variable (hidx : q.idx = 0)
include hidx

/-- Within a measure tick `k` plays subdivision `k` (R215). -/
theorem tickBeats_within (hmode : q.mode ≠ .stopped) {k : Nat} (hk : k < subdivisions q.meter) :
    tickBeats cfg q k = emitBeats cfg { q with idx := BitVec.ofNat 4 k } := by
  rw [tickBeats_eq_emitBeats cfg hbuf, drainedTick_within cfg hmode hbuf hidx k hk]

/-- A measure of ticks in PLAYING counts one measure. -/
theorem drainedTick_measure_playing (hmode : q.mode = .playing) :
    (Sequencer.drainedTick cfg)^[subdivisions q.meter] q = { q with measure := q.measure + 1 } := by
  rw [drainedTick_measure cfg (by simp [hmode]) hbuf hidx, Sequencer.wrap_playing hmode, ← hidx]

/-- `m` measures of ticks in PLAYING count `m` measures, modulo 4. -/
theorem drainedTick_measures_playing (hmode : q.mode = .playing) : ∀ m : Nat,
    (Sequencer.drainedTick cfg)^[subdivisions q.meter * m] q = { q with measure := q.measure + BitVec.ofNat 2 m }
  | 0 => by simp
  | m + 1 => by
    rw [Nat.mul_succ, Nat.add_comm, Function.iterate_add_apply, drainedTick_measures_playing hmode m,
      drainedTick_measure_playing cfg (q := { q with measure := q.measure + BitVec.ofNat 2 m }) hbuf hidx hmode,
      BitVec.ofNat_add, ← BitVec.add_assoc]
    rfl

/-- `k` ticks of PLAYING from the start of a measure stand `k / N` measures on, at subdivision `k mod N`. -/
theorem drainedTick_playing (hmode : q.mode = .playing) (k : Nat) :
    (Sequencer.drainedTick cfg)^[k] q =
      { q with
        measure := q.measure + BitVec.ofNat 2 (k / subdivisions q.meter)
        idx := BitVec.ofNat 4 (k % subdivisions q.meter) } := by
  have hN : 0 < subdivisions q.meter := Nat.lt_of_lt_of_le (by decide) (subdivisions_bounds q.meter).2
  conv_lhs => rw [← Nat.mod_add_div k (subdivisions q.meter), Function.iterate_add_apply,
    drainedTick_measures_playing cfg hbuf hidx hmode]
  exact drainedTick_within cfg (q := { q with measure := q.measure + BitVec.ofNat 2 (k / subdivisions q.meter) })
    (by simp [hmode]) hbuf hidx _ (Nat.mod_lt k hN)

theorem tickBeats_playing (hmode : q.mode = .playing) (k : Nat) :
    tickBeats cfg q k =
      playingBeats cfg { q with
        measure := q.measure + BitVec.ofNat 2 (k / subdivisions q.meter)
        idx := BitVec.ofNat 4 (k % subdivisions q.meter) } := by
  rw [tickBeats_eq_emitBeats cfg hbuf, drainedTick_playing cfg hbuf hidx hmode]
  exact emitBeats_playing cfg hmode

/-- The slow count-off measure leads to the start of the fast one. -/
theorem drainedTick_measure_countoffSlow (hmode : q.mode = .countoffSlow) :
    (Sequencer.drainedTick cfg)^[subdivisions q.meter] q = { q with mode := .countoffFast } := by
  rw [drainedTick_measure cfg (by simp [hmode]) hbuf hidx, Sequencer.wrap_countoffSlow hmode, ← hidx]

/-- The fast count-off measure leads to the start of PLAYING. -/
theorem drainedTick_measure_countoffFast (hmode : q.mode = .countoffFast) :
    (Sequencer.drainedTick cfg)^[subdivisions q.meter] q = { q with mode := .playing, measure := 0 } := by
  rw [drainedTick_measure cfg (by simp [hmode]) hbuf hidx, Sequencer.wrap_countoffFast hmode, ← hidx]

/-- Ticks past the slow count-off measure are ticks of the fast one. -/
theorem drainedTick_past_countoffSlow (hmode : q.mode = .countoffSlow) (k : Nat) :
    (Sequencer.drainedTick cfg)^[subdivisions q.meter + k] q =
      (Sequencer.drainedTick cfg)^[k] { q with mode := .countoffFast } := by
  rw [Nat.add_comm, Function.iterate_add_apply, drainedTick_measure_countoffSlow cfg hbuf hidx hmode]

/-- Throughout both count-off measures the mode is a count-off mode. -/
theorem drainedTick_countoff_mode (hmode : q.mode = .countoffSlow) {k : Nat} (hk : k < 2 * subdivisions q.meter) :
    ((Sequencer.drainedTick cfg)^[k] q).mode ≠ .playing := by
  rcases Nat.lt_or_ge k (subdivisions q.meter) with hslow | hfast
  · rw [drainedTick_within cfg (by simp [hmode]) hbuf hidx k hslow]
    simp [hmode]
  · obtain ⟨j, rfl⟩ := Nat.exists_eq_add_of_le hfast
    rw [drainedTick_past_countoffSlow cfg hbuf hidx hmode,
      drainedTick_within cfg (q := { q with mode := .countoffFast }) (by simp) hbuf hidx j (by dsimp only; omega)]
    simp

/-- The accents of the slow count-off measure, tick by tick (R216). -/
theorem tickBeats_countoffSlow_length (hmode : q.mode = .countoffSlow) {k : Nat} (hk : k < subdivisions q.meter) :
    (tickBeats cfg q k).length = if k = 0 ∨ k = subdivisions q.meter / 2 then 1 else 0 := by
  have hk16 : k < 2 ^ 4 := Nat.lt_of_lt_of_le hk (subdivisions_bounds q.meter).1
  rw [tickBeats_within cfg hbuf hidx (by simp [hmode]) hk,
    emitBeats_countoffSlow cfg (q := { q with idx := BitVec.ofNat 4 k }) hmode,
    BitVec.toNat_ofNat, Nat.mod_eq_of_lt hk16]
  split <;> rfl

/-- The accents of a fast count-off measure, tick by tick (R217). -/
theorem tickBeats_countoffFast_length (hmode : q.mode = .countoffFast) {k : Nat} (hk : k < subdivisions q.meter) :
    (tickBeats cfg q k).length = if k % 4 = 0 then 1 else 0 := by
  have hk16 : k < 2 ^ 4 := Nat.lt_of_lt_of_le hk (subdivisions_bounds q.meter).1
  rw [tickBeats_within cfg hbuf hidx (by simp [hmode]) hk,
    emitBeats_countoffFast cfg (q := { q with idx := BitVec.ofNat 4 k }) hmode,
    BitVec.toNat_ofNat, Nat.mod_eq_of_lt hk16]
  split <;> rfl

/-- The slow count-off measure emits 2 accents. -/
theorem tickBeats_countoffSlow_sum (hmode : q.mode = .countoffSlow) :
    ((List.range (subdivisions q.meter)).map (fun k => (tickBeats cfg q k).length)).sum = 2 := by
  rw [List.map_congr_left fun k hk => tickBeats_countoffSlow_length cfg hbuf hidx hmode (List.mem_range.mp hk)]
  cases q.meter <;> decide

/-- A fast count-off measure emits an accent every 4 subdivisions. -/
theorem tickBeats_countoffFast_sum (hmode : q.mode = .countoffFast) :
    ((List.range (subdivisions q.meter)).map (fun k => (tickBeats cfg q k).length)).sum = subdivisions q.meter / 4 := by
  rw [List.map_congr_left fun k hk => tickBeats_countoffFast_length cfg hbuf hidx hmode (List.mem_range.mp hk)]
  cases q.meter <;> decide

end ManyTicks

/-- The beats of PLAYING are the cymbal, where the flag and the position ask for it, and then the lanes' (R218). -/
theorem playingBeats_eq_cymbal_append (cfg : Params) (q : Sequencer) :
    playingBeats cfg q = (if q.cymbal4 = true ∧ q.measure = 0 ∧ q.idx = 0 then [cymbalBeat cfg] else []) ++
      playingBeats cfg { q with cymbal4 := false } := by
  simp [playingBeats]

/-- Of the 64 ticks of four measures in 4/4 only the first stands at measure 0, subdivision 0. -/
theorem fourMeasures_start_iff :
    ∀ k < 64, ((0 : BitVec 2) + BitVec.ofNat 2 (k / 16) = 0 ∧ BitVec.ofNat 4 (k % 16) = 0) ↔ k = 0 := by decide

/-- Cymbal placement (R226). -/
theorem tickBeats_cymbal (cfg : Params) {q : Sequencer} (hbuf : q.seqbuf = []) (hmode : q.mode = .playing)
    (hidx : q.idx = 0) (hmeasure : q.measure = 0) (hmeter : q.meter = .fourFour) (hcymbal : q.cymbal4 = true)
    {k : Nat} (hk : k < 64) :
    tickBeats cfg q k =
      (if k = 0 then [cymbalBeat cfg] else []) ++ tickBeats cfg { q with cymbal4 := false } k := by
  rw [tickBeats_playing cfg hbuf hidx hmode, tickBeats_playing cfg (q := { q with cymbal4 := false }) hbuf hidx hmode,
    playingBeats_eq_cymbal_append]
  simp only [hcymbal, hmeasure, hmeter, subdivisions, true_and, fourMeasures_start_iff k hk]

/-- Settles O36, law by law. -/
theorem sequencerLaws : Obligations.SequencerLaws := by
  intro cfg q hbuf
  simp only [subdivisions_eq_ite]
  refine ⟨fun hmode hidx => drainedTick_measure_playing cfg hbuf hidx hmode,
    fun hmode hidx hmeasure hmeter hcymbal k hk => tickBeats_cymbal cfg hbuf hmode hidx hmeasure hmeter hcymbal hk,
    fun k => tickBeats_eq_emitBeats cfg hbuf k ▸ emitBeats_length cfg _,
    fun hmode hidx hmeasure => ⟨?_, ?_, ?_, ?_⟩⟩
  · rw [Nat.two_mul, drainedTick_past_countoffSlow cfg hbuf hidx hmode,
      drainedTick_measure_countoffFast cfg (q := { q with mode := .countoffFast }) hbuf hidx rfl, ← hmeasure]
  · exact fun k hk => drainedTick_countoff_mode cfg hbuf hidx hmode hk
  · exact tickBeats_countoffSlow_sum cfg hbuf hidx hmode
  · simp only [tickBeats, drainedTick_past_countoffSlow cfg hbuf hidx hmode]
    exact tickBeats_countoffFast_sum cfg (q := { q with mode := .countoffFast }) hbuf hidx rfl

end Sys2Proof.Machine
end

section
/-! The engine (46_engine_step.md): the port of the host (R242, R243), the sample step as fetch and execute (R241), its
latency (R248), the order of a clock cycle (R246) with the codes that are presented (60_exceptions.md R261), the missed
deadline (R247), and what leaves the settings records alone (R244). -/

namespace Sys2Proof.Machine

/-! ## The host's push (R242, R243) -/

/-- `cmd_ready` on the pin of a cycle with `rst` low: the channel has room and no sequencer beat waits (R243). -/
theorem ports_cmdReady (s : State) : (ports false s).cmdReady =
    (decide (s.fifo.length < s.params.fifoDepth) && decide (s.seq.seqbuf = [])) := by
  show (s.hasRoom && s.seq.seqbuf.isEmpty) = _
  rw [Bool.eq_iff_iff]
  simp [State.hasRoom]

/-- A beat whose address has `ADDR_W` bits passes the port unchanged. -/
theorem State.portBeat_of_lt {s : State} {a : Addr} (ha : a.toNat < 2 ^ s.params.addrW) (w : Word) :
    s.portBeat a w = ⟨a, w⟩ := congrArg (Beat.mk · w) (addrMask_of_lt ha)

/-- Settles O39: the port leaves the address as it is, and `hostPush` appends the beat or changes nothing. -/
theorem hostPushWaitsForReady : Obligations.HostPushWaitsForReady := by
  intro s a w rest hi
  refine ⟨ports_cmdReady s, fun ha => ?_⟩
  rw [step_event hi, State.after, State.hostPush, State.portBeat_of_lt (s := s.taken rest) ha]
  rfl

/-! ## The sample step (R241, R248) -/

/-- A sample step that finds a word with a meaning delivers the command, then mixes. -/
theorem State.sampled_of_command {s : State} {b : Beat} {beats : List Beat} {c : Instr} (hf : s.fifo = b :: beats)
    (hd : deserialize b.word = some c) : s.sampled = ((s.popped b beats).dispatch c).finishStep := by
  simp only [State.sampled, hf, hd]

/-- Settles O42: `exec` delivers the command, and the sample step is that delivery, then the mix. -/
theorem stepRunsDecodedCommand : Obligations.StepRunsDecodedCommand := by
  intro s b beats rest i hi hf hd s0
  have hexec : exec i s0 = .next (s0.dispatch i) := exec_eq i s0
  have hstep : step s = .next (s0.dispatch i).finishStep :=
    (step_event hi).trans (congrArg Host.Outcome.next (State.sampled_of_command (s := s.taken rest) hf hd))
  refine ⟨fun t ht => ?_, fun f hfault => ?_, fun r hrefused => ?_⟩
  · obtain rfl : s0.dispatch i = t := Host.Outcome.next.inj (hexec.symm.trans ht)
    exact hstep
  · cases hexec.symm.trans hfault
  · cases hexec.symm.trans hrefused

/-- `k` sample steps in a row take the first `k` beats from the channel. -/
theorem run_sampleSteps (rest : List Input) : ∀ (k : Nat) (s : State),
    s.inputs = List.replicate k (.event .sampleStep) ++ rest →
    ∃ t, Sys2Proof.core.run k s = .next t ∧ t.inputs = rest ∧ t.fifo = s.fifo.drop k
  | 0, s, hi => ⟨s, rfl, hi, rfl⟩
  | k + 1, s, hi => by
    obtain ⟨t, hrun, hrest, hfifo⟩ := run_sampleSteps rest k
      (s.taken (List.replicate k (.event .sampleStep) ++ rest)).sampled (by simp)
    refine ⟨t, (run_succ (step_event hi) k).trans hrun, hrest, ?_⟩
    rw [hfifo, State.sampled_fifo, State.taken_fifo, List.drop_drop, Nat.add_comm]

/-- Settles O41: the beat with `k` ahead of it heads the channel from which `k` sample steps took `k` beats. -/
theorem latencyInSampleSteps : Obligations.LatencyInSampleSteps := by
  intro k s b rest hi hb
  obtain ⟨t, hrun, hrest, hfifo⟩ := run_sampleSteps rest k s hi
  exact ⟨t, hrun, hrest, by rw [hfifo, List.head?_drop, hb], hfifo⟩

/-! ## The clock cycle as its events (R246) -/

/-- Every event completes, so a list of them runs to its end. -/
theorem State.events_eq_foldl : ∀ (es : List Event) (s : State),
    State.events es s = .next (es.foldl (fun x e => x.after e) s)
  | [], _ => rfl
  | e :: es, s => by
    rw [State.events, State.event_next]
    exact State.events_eq_foldl es (s.after e)

/-- A clock cycle with `rst` low that meets the deadline runs its events (R246, R247). -/
theorem State.cycle_of_deadlineMet {c : CycleIn} {s : State} (hr : c.rst = false)
    (hd : ¬ (c.sampleTick = true ∧ 0 < s.busy)) : s.cycle c = .next { s.cycled c with busy := s.busyAfter c } := by
  rw [State.cycle_eq, if_neg (by simp [hr]), if_neg (by simpa using hd)]

/-- A clock cycle first presents, if it presents, and then does what it does without presenting (assumption 7). -/
theorem cycleEvents_eq_presentation_append (c : CycleIn) (s : State) :
    cycleEvents c s = (if c.diagSlot then [.presentDiag] else []) ++ cycleEvents { c with diagSlot := false } s := by
  simp [cycleEvents]

/-! ## The codes presented and reported (60_exceptions.md R261) -/

/-- What an entry that neither resets nor presents may run is no reset and no presentation. -/
theorem Input.ne_of_mayRun {i : Input} {e : Event} (he : i.mayRun e) (hr : i.resets = false)
    (hp : i.presents = false) : e ≠ .reset ∧ e ≠ .presentDiag := by
  constructor <;> rintro rfl
  · exact absurd he (by simp [Input.mayRun, hr])
  · exact absurd he (by simp [Input.mayRun, hp])

/-- What the block shows and keeps of its diagnostics after an entry that started in `s`: the oldest waiting code is
shown if the entry presents, and new codes wait behind. -/
def State.PresentsFrom (s : State) (presents : Bool) (t : State) : Prop :=
  t.diagOut = (if presents then s.trace.head? else none) ∧
    ∃ added : List Diag, t.trace = (if presents then s.trace.drop 1 else s.trace) ++ added

/-- The start of an entry: a presentation, if there is one. -/
theorem State.PresentsFrom.start {s : State} (h : s.diagOut = none) (presents : Bool) :
    s.PresentsFrom presents (if presents then s.presentDiag else s) := by
  cases presents with
  | false => exact ⟨h, [], (List.append_nil _).symm⟩
  | true =>
    obtain ⟨hshown, hwaiting⟩ := s.presentDiag_shows h
    exact ⟨hshown, [], hwaiting.trans (List.append_nil _).symm⟩

/-- An event that is no reset and no presentation leaves what is shown, and its codes wait behind. -/
theorem State.PresentsFrom.after {s t : State} {presents : Bool} (h : s.PresentsFrom presents t) {e : Event}
    (he : e ≠ .reset ∧ e ≠ .presentDiag) : s.PresentsFrom presents (t.after e) := by
  obtain ⟨hshown, before, hbefore⟩ := h
  obtain ⟨hkept, added, hadded⟩ := t.after_diagnostics e he.1 he.2
  exact ⟨hkept.trans hshown, before ++ added, by rw [hadded, hbefore, List.append_assoc]⟩

/-- An event but a reset shows the oldest code if it is the presentation. -/
theorem State.after_presentsFrom {e : Event} (he : (Input.event e).resets = false) {s : State}
    (hs : s.diagOut = none) : s.PresentsFrom (Input.event e).presents (s.after e) := by
  cases e with
  | reset => cases he
  | presentDiag => exact State.PresentsFrom.start hs true
  | sampleStep | hostPush _ _ | seqTick | seqPush | regWrite _ _ | regRead _ =>
    exact (State.PresentsFrom.start hs false).after (by simp)

/-- A clock cycle with `rst` low shows the oldest code at its start, if it presents. -/
theorem State.cycled_presentsFrom {c : CycleIn} (hr : c.rst = false) {s : State} (hs : s.diagOut = none) :
    s.PresentsFrom (Input.cycle c).presents (s.cycled c) := by
  have hpresents : (Input.cycle c).presents = c.diagSlot := by simp [Input.presents, hr]
  have hstart : (if c.diagSlot then [Event.presentDiag] else []).foldl (fun x e => x.after e) s =
      if c.diagSlot then s.presentDiag else s := by cases c.diagSlot <;> rfl
  rw [hpresents, State.cycled_eq_foldl, cycleEvents_eq_presentation_append, List.foldl_append, hstart]
  refine foldl_after_keeps _ _ (fun x e he hx => hx.after ?_) (State.PresentsFrom.start hs c.diagSlot)
  exact Input.ne_of_mayRun (cycleEvents_mayRun (c := { c with diagSlot := false }) hr s e he) hr
    (by simp [Input.presents])

/-- Settles O44: a cycle is the fold of its events, and of these only a presentation at the start shows a code. -/
theorem cycleIsItsEventSequence : Obligations.CycleIsItsEventSequence := by
  refine ⟨fun s c rest hi hr hbusy => ?_, fun s t i rest hi hreset h => ?_⟩
  · have hmet : ¬ (c.sampleTick = true ∧ 0 < (s.taken rest).busy) := fun ⟨htick, hpos⟩ => hpos.ne' (hbusy htick)
    refine ⟨(s.taken rest).cycled c, ?_, ?_⟩
    · rw [State.events_eq_foldl, State.cycled_eq_foldl]
    · exact (step_cycle hi).trans (State.cycle_of_deadlineMet hr hmet)
  · suffices hfrom : (s.taken rest).PresentsFrom i.presents t from ⟨congrArg some hfrom.1, hfrom.2⟩
    rcases step_cases h with ⟨hs, -⟩ | ⟨e, rest', hs, rfl⟩ | ⟨c, _, hs, hrst, -⟩ | ⟨c, rest', hs, hrst, -, rfl⟩ <;>
      rw [hi] at hs <;> cases hs
    · exact State.after_presentsFrom hreset rfl
    · exact absurd hreset (by simp [Input.resets, hrst])
    · exact State.cycled_presentsFrom hrst rfl

/-! ## The missed deadline (R247) -/

theorem step_of_deadlineMissed {s : State} (h : s.deadlineMissed) : step s = .fault .sampleTickDuringStep := by
  obtain ⟨c, rest, hi, hr, htick, hbusy⟩ := h
  rw [step_cycle hi, State.cycle_eq, if_neg (by simp [hr]), if_pos (by simp [htick, hbusy])]

/-- Every other step goes on: nothing is scheduled, or an event, a reset, or a cycle that meets the deadline. -/
theorem exists_step_of_not_deadlineMissed {s : State} (h : ¬ s.deadlineMissed) : ∃ t, step s = .next t := by
  rcases hi : s.inputs with _ | ⟨e | c, rest⟩
  · exact ⟨s.quiet, by rw [step, hi]⟩
  · exact ⟨_, step_event hi⟩
  · cases hr : c.rst with
    | true => exact ⟨(s.taken rest).resetBlock, by rw [step_cycle hi, State.cycle_eq, if_pos hr]⟩
    | false =>
      have hmet : ¬ (c.sampleTick = true ∧ 0 < (s.taken rest).busy) :=
        fun ⟨htick, hbusy⟩ => h ⟨c, rest, hi, hr, htick, hbusy⟩
      exact ⟨_, (step_cycle hi).trans (State.cycle_of_deadlineMet hr hmet)⟩

/-- Settles O45: a step that misses the deadline faults, and any other goes on. -/
theorem onlyAMissedDeadlineStops : Obligations.OnlyAMissedDeadlineStops := by
  intro s
  by_cases hmissed : s.deadlineMissed
  · have hstep := step_of_deadlineMissed hmissed
    simp [hmissed, hstep]
  · obtain ⟨t, hstep⟩ := exists_step_of_not_deadlineMissed hmissed
    simp [hmissed, hstep]

/-! ## The settings records (10_state.md section 5, R244) -/

/-- A bend is no setting: UNIT_CFG of no unit reads it (10_state.md R50, R51). -/
theorem UnitView.config_bent (d : Word) (v : UnitView) : (v.bent d).config = v.config := by cases v <;> rfl

/-- A register write outside 0x100..0x1FF leaves every settings record. -/
theorem State.config_regWrite {i : RegIndex} (h : ¬ (0x100 ≤ i.toNat ∧ i.toNat < 0x200)) (d : Word) (s : State) :
    (s.regWrite i d).units.map UnitView.config = s.units.map UnitView.config := by
  unfold State.regWrite
  split
  case h_10 u hreg => exact absurd (regAt_eq_unitCfg hreg) h
  case h_11 u _ =>
    exact (congrArg _ (State.unitWritten_units (.bend d) u s)).trans (modify_map_eq _ _ (UnitView.config_bent d) _ _)
  all_goals rfl

/-- The settings records are those of the tree alone. -/
theorem State.config_of_roots {s t : State} (h : t.roots = s.roots) :
    t.units.map UnitView.config = s.units.map UnitView.config := by rw [State.units, h, State.units]

/-- No event but a reset and a write to a UNIT_CFG index changes a settings record. -/
theorem State.config_after {e : Event} (hreset : e ≠ .reset)
    (hwrite : ∀ x d, e = .regWrite x d → ¬ (0x100 ≤ x.toNat ∧ x.toNat < 0x200)) (s : State) :
    (s.after e).units.map UnitView.config = s.units.map UnitView.config := by
  cases e with
  | reset => exact absurd rfl hreset
  | sampleStep => exact s.config_sampled
  | hostPush a w => exact State.config_of_roots (s.hostPush_roots a w)
  | seqTick => exact State.config_of_roots s.seqTick_roots
  | seqPush => exact State.config_of_roots s.trySeqPush_roots
  | regWrite i d => exact State.config_regWrite (hwrite i d rfl) d s
  | regRead i => rfl
  | presentDiag => exact State.config_of_roots s.presentDiag_roots

/-- Settles O60: a step whose entry is no reset and writes no UNIT_CFG index runs only events that keep the records. -/
theorem settingsChangeOnlyByConfigure : Obligations.SettingsChangeOnlyByConfigure := by
  intro s t h hchanged
  by_contra hno
  refine hchanged (step_keeps_of (P := fun x => x.units.map UnitView.config = s.units.map UnitView.config)
    (fun hx => hx) (fun _ hx => hx) (fun _ _ hx => hx) (fun i rest hi x e he hx => ?_) h rfl)
  have hreset : e ≠ .reset := by
    rintro rfl
    exact hno ⟨i, rest, hi, .inl he⟩
  have hwrite : ∀ y d, e = .regWrite y d → ¬ (0x100 ≤ y.toNat ∧ y.toNat < 0x200) := by
    rintro y d rfl hrange
    exact hno ⟨i, rest, hi, .inr ⟨y, d, he, hrange⟩⟩
  exact (State.config_after hreset hwrite x).trans hx

end Sys2Proof.Machine
end

section
/-! Exceptions, reset and silence: the lost tick (60_exceptions.md R266), the malformed word (R262), the reset state and
the ways into it (70_reset_and_hazards.md R280 to R282), and the block in which nothing sounds (R284). -/

namespace Sys2Proof.Machine

/-! ## The silent block (70_reset_and_hazards.md R284) -/

/-- Silence is a matter of the channel, the sequencer and the tree alone. -/
theorem State.Silent.congr {s t : State} (h : s.Silent) (hfifo : t.fifo = s.fifo) (hseq : t.seq = s.seq)
    (hroots : t.roots = s.roots) : t.Silent := by
  unfold State.Silent State.units at *
  rwa [hfifo, hseq, hroots]

/-! In a silent block the sample step has no beat to pop, the tick finds the sequencer STOPPED (45_sequencer.md R225),
and no beat waits to be pushed (R223). -/

theorem State.Silent.sampled_eq {s : State} (h : s.Silent) : s.sampled = s.render := by
  obtain ⟨hfifo, -, -, -⟩ := h
  rw [State.sampled, hfifo]

theorem State.Silent.seqTick_eq {s : State} (h : s.Silent) : s.seqTick = s := by
  obtain ⟨-, hmode, hbuf, -⟩ := h
  rw [State.seqTick, if_pos hbuf, Sequencer.tick_stopped _ hmode]

theorem State.Silent.seqPushEnabled {s : State} (h : s.Silent) : s.seqPushEnabled = false := by
  obtain ⟨-, -, hbuf, -⟩ := h
  simp [State.seqPushEnabled, hbuf]

theorem State.Silent.trySeqPush_eq {s : State} (h : s.Silent) : s.trySeqPush = s := by
  rw [State.trySeqPush, h.seqPushEnabled]
  rfl

/-- What remains true of a silent block that was `s`: it is silent, a `sample_out` of 0 is still 0, and no diagnostic
has been reported since. -/
structure State.SilentSince (s x : State) : Prop where
  silent : x.Silent
  sample : s.lastSample = 0 → x.lastSample = 0
  status : ∀ b, x.status.getLsbD b = true → s.status.getLsbD b = true
  trace  : ∀ k ∈ x.trace, k ∈ s.trace

theorem State.SilentSince.refl {s : State} (h : s.Silent) : s.SilentSince s := ⟨h, id, fun _ => id, fun _ => id⟩

/-- Presenting a diagnostic takes one from the trace and leaves the rest of the block. -/
theorem State.SilentSince.presentDiag {s x : State} (h : s.SilentSince x) : s.SilentSince x.presentDiag := by
  obtain ⟨hsilent, hsample, hstatus, htrace⟩ := h
  unfold State.presentDiag
  split
  · exact ⟨hsilent, hsample, hstatus, htrace⟩
  next hwaiting =>
    exact ⟨hsilent, hsample, hstatus, fun j hj => htrace j (hwaiting ▸ List.mem_cons_of_mem _ hj)⟩

/-- Every event but a beat from the host and a register write keeps the silence. -/
theorem State.SilentSince.after {s x : State} (h : s.SilentSince x) {e : Event} (hpush : ∀ a w, e ≠ .hostPush a w)
    (hwrite : ∀ i d, e ≠ .regWrite i d) : s.SilentSince (x.after e) := by
  cases e with
  | reset =>
    refine ⟨(State.ofParams_silent x.params).congr rfl rfl rfl, fun _ => rfl, fun b hb => ?_, fun k hk => ?_⟩
    · exact absurd hb (by simp [State.after, State.resetBlock, State.ofParams])
    · exact absurd hk List.not_mem_nil
  | sampleStep =>
    show s.SilentSince x.sampled
    rw [h.silent.sampled_eq]
    obtain ⟨hsilent, hzero⟩ := h.silent.render
    exact ⟨hsilent, fun _ => hzero, h.status, h.trace⟩
  | hostPush a w => exact absurd rfl (hpush a w)
  | seqTick =>
    rw [State.after, h.silent.seqTick_eq]
    exact h
  | seqPush =>
    rw [State.after, h.silent.trySeqPush_eq]
    exact h
  | regWrite i d => exact absurd rfl (hwrite i d)
  | regRead i => exact ⟨h.silent, h.sample, h.status, h.trace⟩
  | presentDiag => exact h.presentDiag

/-- A step whose entry offers no beat and writes no register keeps the silence. -/
theorem step_silentSince {s t : State} (hs : s.Silent)
    (hnone : ∀ i rest, s.inputs = i :: rest → i.pushes = false ∧ i.writes = none) (h : step s = .next t) :
    s.SilentSince t := by
  refine step_keeps_of (P := s.SilentSince) (fun hx => ⟨hx.silent, hx.sample, hx.status, hx.trace⟩)
    (fun _ hx => ⟨hx.silent, hx.sample, hx.status, hx.trace⟩)
    (fun _ _ hx => ⟨hx.silent, hx.sample, hx.status, hx.trace⟩) (fun i rest hi x e he hx => hx.after ?_ ?_) h (.refl hs)
  · rintro a w rfl
    exact absurd he (by simp [Input.mayRun, (hnone i rest hi).1])
  · rintro j d rfl
    exact absurd he (by simp [Input.mayRun, (hnone i rest hi).2])

/-- The event that runs a sample step is the sample step. -/
theorem Input.eq_sampleStep_of_samples {e : Event} (h : (Input.event e).samples = true) : e = .sampleStep := by
  cases e with
  | sampleStep => rfl
  | reset | hostPush _ _ | seqTick | seqPush | regWrite _ _ | regRead _ | presentDiag => cases h

/-- What a clock cycle does before its sample step keeps a silent block silent, if it writes no register. -/
theorem State.Silent.cycleRegs {s : State} (h : s.Silent) {c : CycleIn} (hwe : c.regWe = false) :
    (s.cycleRegs c).Silent := by
  have hshown : (if c.diagSlot then s.presentDiag else s).Silent := by
    split
    · exact h.congr s.presentDiag_fifo s.presentDiag_seq s.presentDiag_roots
    · exact h
  simp only [State.cycleRegs, hwe]
  split
  · exact hshown.congr rfl rfl rfl
  · exact hshown

/-- What a clock cycle does after its sample step is nothing in a silent block, if it offers no beat. -/
theorem State.Silent.cyclePushes_eq {s : State} (h : s.Silent) {c : CycleIn} (hvalid : c.cmdValid = false)
    (ready : Bool) : s.cyclePushes c ready false = s := by
  simp [State.cyclePushes, hvalid, h.seqTick_eq]

/-- In a silent block a clock cycle that brings nothing is its register read and presentation, then its sample. -/
theorem State.Silent.cycled_eq {s : State} (h : s.Silent) {c : CycleIn} (hwe : c.regWe = false)
    (hvalid : c.cmdValid = false) (htick : c.sampleTick = true) : s.cycled c = (s.cycleRegs c).render := by
  have hregs := h.cycleRegs hwe
  rw [State.cycled, if_pos htick, hregs.sampled_eq, h.seqPushEnabled, hregs.render.1.cyclePushes_eq hvalid]

/-- A sample step of a silent block, alone or in a clock cycle, drives 0 and pulses `sample_valid`. -/
theorem step_samples_zero {s t : State} {i : Input} {rest : List Input} (hs : s.Silent) (hi : s.inputs = i :: rest)
    (hpushes : i.pushes = false) (hwrites : i.writes = none) (hsamples : i.samples = true) (h : step s = .next t) :
    t.lastSample = 0 ∧ t.sampleValid = true := by
  have htaken : ∀ r, (s.taken r).Silent := fun r => hs.congr rfl rfl rfl
  rcases step_cases h with ⟨hs', -⟩ | ⟨e, r, hs', rfl⟩ | ⟨c, _, hs', hrst, -⟩ | ⟨c, r, hs', hrst, -, rfl⟩ <;>
    rw [hi] at hs' <;> cases hs'
  · obtain rfl := Input.eq_sampleStep_of_samples hsamples
    rw [State.after, (htaken rest).sampled_eq]
    exact ⟨(htaken rest).render.2, rfl⟩
  · exact absurd hsamples (by simp [Input.samples, hrst])
  · have htick : c.sampleTick = true := by simpa [Input.samples, hrst] using hsamples
    have hvalid : c.cmdValid = false := by simpa [Input.pushes, hrst] using hpushes
    have hwe : c.regWe = false := by simpa [Input.writes, hrst] using hwrites
    rw [(htaken rest).cycled_eq hwe hvalid htick]
    exact ⟨((htaken rest).cycleRegs hwe).render.2, rfl⟩

/-- Settles O56: every event that such an entry may run keeps the silence, and the mix of a silent tree is 0. -/
theorem silentBlockStaysSilent : Obligations.SilentBlockStaysSilent := by
  refine ⟨fun p => ⟨State.ofParams_silent p, rfl⟩, fun s hs hmet hnone => ?_⟩
  obtain ⟨t, h⟩ := exists_step_of_not_deadlineMissed hmet
  obtain ⟨hsilent, hsample, hstatus, htrace⟩ := step_silentSince hs hnone h
  refine ⟨t, h, hsilent, fun i rest hi hsamples => ?_, hsample, hstatus, htrace⟩
  obtain ⟨hpushes, hwrites⟩ := hnone i rest hi
  exact step_samples_zero hs hi hpushes hwrites hsamples h

/-! ## The reset state (70_reset_and_hazards.md R280 to R282) -/

/-- Every unit of the block is at its reset values right after reset. -/
theorem State.ofParams_atReset (p : Params) : ∀ v ∈ (State.ofParams p).units, v.AtReset := by
  intro v hv
  simp only [State.units, State.ofParams, List.mem_flatMap, List.mem_map] at hv
  obtain ⟨_, ⟨node, -, rfl⟩, hv⟩ := hv
  exact Synth.build_atReset node v hv

/-- UNIT_CFG of a unit that is there reads that unit's record (10_state.md R50). -/
theorem State.regValue_unitCfg_of_getElem? {s : State} {u : Nat} {v : UnitView} (h : u < 256)
    (hv : s.units[u]? = some v) : s.regValue (BitVec.ofNat 12 (0x100 + u)) = v.config := by
  have hu : u < s.numUnits := s.length_units ▸ (List.getElem?_eq_some_iff.mp hv).1
  rw [State.regValue_unitCfg hu h, hv]
  rfl

/-- The settings record of a unit at its reset values (R50): a ratio or alpha of 0x7FFF where its kind has one, and 0
elsewhere. -/
def UnitView.resetConfig : UnitView → Word
  | .sine _ | .saw _ | .expDecay _ | .lpf _ => 0x00007FFF#32
  | .linDecay _ | .sample _ | .drum _ | .poly _ _ | .withEffect => 0

theorem UnitView.config_of_atReset {v : UnitView} (h : v.AtReset) : v.config = v.resetConfig := by
  cases v with
  | sine u | saw u | expDecay u =>
    obtain ⟨hratio, hevery, -⟩ := h
    rw [UnitView.config, hratio, hevery]
    rfl
  | lpf u =>
    obtain ⟨halpha, -⟩ := h
    rw [UnitView.config, halpha]
    rfl
  | linDecay u =>
    obtain ⟨hstep, hevery, -⟩ := h
    rw [UnitView.config, hstep, hevery]
    rfl
  | sample _ | drum _ | poly _ _ | withEffect => rfl

theorem seqPosWord_init : seqPosWord Sequencer.init = 0 := by decide

theorem fifoLevelWord_ofParams (p : Params) : fifoLevelWord (State.ofParams p) = 0 :=
  show (0 : BitVec 21) ++ (0 : BitVec 3) ++ (0 : BitVec 8) = 0 by decide

theorem State.regValue_status_ofParams (p : Params) : (State.ofParams p).regValue 0x006 = 0 :=
  show (0 : BitVec 27) ++ (0 : BitVec 5) = 0 by decide

/-- Settles O55: the tree is built unit by unit at its reset values, and UNIT_CFG reads the unit it names. -/
theorem resetValues : Obligations.ResetValues := by
  intro p s
  have hunits : ∀ v ∈ s.units, v.AtReset := State.ofParams_atReset p
  refine ⟨hunits, rfl, rfl, rfl, rfl, rfl, rfl, rfl, rfl, rfl, rfl, rfl, fun u v hu hv => ?_, seqPosWord_init,
    fifoLevelWord_ofParams p, State.regValue_status_ofParams p⟩
  exact (State.regValue_unitCfg_of_getElem? hu hv).trans
    (UnitView.config_of_atReset (hunits v (List.mem_of_getElem? hv)))

/-- An entry that resets the block, an event or a cycle with `rst` high, does so whatever else it asks. -/
theorem step_of_resets {s : State} {i : Input} {rest : List Input} (hi : s.inputs = i :: rest)
    (hreset : i.resets = true) : step s = .next (s.taken rest).resetBlock := by
  cases i with
  | event e =>
    cases e with
    | reset => exact step_event hi
    | sampleStep | hostPush _ _ | seqTick | seqPush | regWrite _ _ | regRead _ | presentDiag => cases hreset
  | cycle c => rw [step_cycle hi, State.cycle_eq, if_pos (show c.rst = true from hreset)]

/-- Settles O54: both ways of resetting are `State.resetBlock`, and the pins under `rst` are constants. -/
theorem resetRestoresTheResetState : Obligations.ResetRestoresTheResetState :=
  ⟨fun _ _ _ hi hreset => step_of_resets hi hreset, fun _ => ⟨rfl, rfl⟩⟩

/-- A block with legal parameters meets the invariant right after reset, whatever its topology. -/
theorem State.ofParams_inv {p : Params} (h : p.wf = true) : (State.ofParams p).Inv := by
  have hchannel : channelOk p [] = true := (channelOk_iff p []).mpr ⟨Nat.zero_le _, by simp⟩
  have hseq : Sequencer.init.ok p = true := by simp [Sequencer.ok_iff, Sequencer.init]
  have hunits : (p.topology.map Synth.build).all Synth.ok = true := by simp [Synth.ok_build]
  exact ⟨h, hchannel, hseq, treeShapeOk_build p, hunits⟩

/-- Settles O57: the parameters of REF are legal. -/
theorem resetMeetsTheInvariant : Obligations.ResetMeetsTheInvariant :=
  State.ofParams_inv (show Params.ref.wf = true by decide)

/-! ## Exceptions (60_exceptions.md R262, R266) -/

theorem State.seqTick_overrun {s : State} (h : s.seq.seqbuf ≠ []) : s.seqTick = s.emit [.seqOverrun] := if_neg h

/-- Settles O35: a tick that finds beats waiting does nothing but emit SEQ_OVERRUN, which sets bit 4 of STATUS. -/
theorem overrunLosesTheTick : Obligations.OverrunLosesTheTick := by
  intro s rest hi hbuf
  rw [step_event hi, State.after, State.seqTick_overrun (s := s.taken rest) hbuf]
  rfl

/-- A sample step that finds a malformed word reports it, and mixes the tree as it is. -/
theorem State.sampled_of_malformed {s : State} {b : Beat} {beats : List Beat} (hf : s.fifo = b :: beats)
    (hd : deserialize b.word = none) : s.sampled = ((s.popped b beats).emit [.malformed]).finishStep := by
  simp only [State.sampled, hf, hd]

/-- Settles O43: the sample step pops the word, emits MALFORMED, which sets bit 0 of STATUS, and goes on to the mix. -/
theorem malformedWordIsConsumed : Obligations.MalformedWordIsConsumed := by
  intro s b beats rest hi hf hd
  rw [step_event hi, State.after, State.sampled_of_malformed (s := s.taken rest) hf hd]
  rfl

end Sys2Proof.Machine
end
